-- ==== Sys2Proof/Word.lean ====
section
/-! DEFINITION. The machine's word types and the two readings of a 16-bit word (00_scope.md R8, R11). -/

namespace Sys2Proof

/-- A memory byte, a variable number, an opcode byte (R8 BYTE). -/
abbrev Byte := BitVec 8

/-- A value held in a variable, on the stack, in an operand or in a memory word (R8 WORD, R11). -/
abbrev Word := BitVec 16

/-- A Z-character: a 5-bit code (41_text.md R180). -/
abbrev ZChar := BitVec 5

/-- A ZSCII code, 0..1023 (41_text.md R203). -/
abbrev Zscii := BitVec 10

/-- `s16(v)`: the two's-complement reading (R11). -/
def s16 (v : Word) : Int := v.toInt

/-- `u16(x)`: `x mod 0x10000` (R11). -/
def u16 (x : Int) : Word := BitVec.ofInt 16 x

end Sys2Proof
end

