-- ==== Sys2Proof/Machine/Flags.lean ====
section
/-! DEFINITION. Conditions and arithmetic results. The machine has no flag register (10_state.md R33): a condition is
computed inside its instruction and used at once by its branch data. -/

namespace Sys2Proof.Machine

/-! ## Conditions (44_arith_branch.md R300, R302 to R306, R317, R318) -/

/-- `je`: equal to one of the others (R302). -/
def condEqualAny (a : Word) (others : List Word) : Bool := others.any (a == ·)

/-- `jl`, `dec_chk`: signed less (R303, R318). -/
def condLess (a b : Word) : Bool := decide (s16 a < s16 b)

/-- `jg`, `inc_chk`: signed greater (R304, R317). -/
def condGreater (a b : Word) : Bool := decide (s16 a > s16 b)

/-- `jz` (R305). -/
def condZero (a : Word) : Bool := a == 0

/-- `test`: every bit of `flags` is set in `bitmap` (R306). -/
def condAllBits (bitmap flags : Word) : Bool := (bitmap &&& flags) == flags

/-! ## Results (R300, R301, R307 to R316) -/

/-- Signed addition, wrapping (R310). -/
def addWord (a b : Word) : Word := u16 (s16 a + s16 b)

/-- Signed subtraction, wrapping (R311). -/
def subWord (a b : Word) : Word := u16 (s16 a - s16 b)

/-- Signed multiplication, wrapping (R312). -/
def mulWord (a b : Word) : Word := u16 (s16 a * s16 b)

/-- The quotient truncated toward zero (R301). -/
def quotient (a b : Int) : Int := (a * b).sign * ((a.natAbs / b.natAbs : Nat) : Int)

/-- The remainder, with the dividend's sign (R301). -/
def remainder (a b : Int) : Int := a - b * quotient a b

/-- `div`'s result for a divisor other than 0 (R313). -/
def divWord (a b : Word) : Word := u16 (quotient (s16 a) (s16 b))

/-- `mod`'s result for a divisor other than 0 (R314). -/
def modWord (a b : Word) : Word := u16 (remainder (s16 a) (s16 b))

/-- `inc` (R315). -/
def incWord (a : Word) : Word := u16 (s16 a + 1)

/-- `dec` (R316). -/
def decWord (a : Word) : Word := u16 (s16 a - 1)

end Sys2Proof.Machine
end

