-- ==== Sys2Proof/Config.lean ====
section
/-! DEFINITION. The parameters of 00_scope.md R8 and the values the spec leaves open. -/

namespace Sys2Proof

/-- NONGOAL_POLICY (R8, 46_io_system.md R370). -/
inductive NongoalPolicy where
  | fault
  | nop
  deriving DecidableEq, Repr

/-- TYPE_BYTE_AFTER_OMIT (R8, 30_encoding.md R112). -/
inductive AfterOmit where
  | ignore
  | fault
  deriving DecidableEq, Repr

/-- The generator state's type is OPEN (10_state.md R34). DESIGN CHOICE: naturals, log 5. -/
abbrev RngState := Nat

/-- The OPEN parameters of R8 that are plain values. They are fixed before load (70_reset_and_hazards.md R440). -/
structure Params where
  /-- MAX_CALL_DEPTH, counting the root frame. -/
  maxCallDepth : Nat
  /-- MAX_EVAL_STACK, words of all frames together. -/
  maxEvalStack : Nat
  /-- NONGOAL_POLICY. -/
  nongoal : NongoalPolicy
  /-- TYPE_BYTE_AFTER_OMIT. -/
  afterOmit : AfterOmit
  /-- RNG_INIT. -/
  rngInit : RngState
  deriving DecidableEq, Repr

/-- The parameters of `State.reset`: the spec's two defaults (R8); the limits and RNG_INIT are DESIGN CHOICE
(logs 3 and 5). -/
def Params.default : Params where
  maxCallDepth := 1024
  maxEvalStack := 1024
  nongoal := .fault
  afterOmit := .ignore
  rngInit := 0

/-- RNG_NEXT before its result is brought into `1..n` (46_io_system.md R360): OPEN, no body (log 5). -/
opaque Config.rngNextRaw : RngState → Nat → Nat × RngState

/-- RNG_SEED (R360): OPEN, no body (log 5). -/
opaque Config.rngSeed : RngState → Nat → RngState

/-- RNG_ENTROPY (R360): OPEN, no body (log 5). -/
opaque Config.rngEntropy : RngState → RngState

/-- What the stack or a local holds after `get_prop_addr` stores a data address that does not fit 16 bits: the spec states
no value, so this one is free (log 6). -/
opaque Config.wideAddress : Nat → Word

end Sys2Proof
end

