-- ==== Sys2Proof/Machine/FaultKind.lean ====
section
/-! DEFINITION. The spec's own faults (60_exceptions.md R401) and the fault record (R400). They are part of the
machine's state (`status`), not stops of the model. -/

namespace Sys2Proof.Machine

/-- Decode faults (R403). Each carries the pc and the opcode byte. -/
inductive DecodeFault where
  /-- An opcode byte with no instruction (40_decode.md R142). -/
  | illegalOpcode (pc : Nat) (op : Byte)
  /-- An operand count not admitted (R148). -/
  | operandCount (pc : Nat) (op : Byte)
  /-- A type after an omitted type, under TYPE_BYTE_AFTER_OMIT = fault (R144). -/
  | malformedTypeByte (pc : Nat) (op : Byte)
  /-- An indirect variable reference above 255 (R151). -/
  | badVariableRef (pc : Nat) (op : Byte)
  /-- A routine declaring more than 15 locals (43_calls_stack.md R273). -/
  | badRoutineHeader (pc : Nat) (op : Byte)
  /-- A non-goal instruction under NONGOAL_POLICY = fault (46_io_system.md R370). -/
  | unimplemented (pc : Nat) (op : Byte)
  deriving DecidableEq, Repr

/-- Memory faults (R404). -/
inductive MemoryFault where
  /-- A read or write at or beyond L, or a negative branch or jump target (20_memory.md R63 to R66, 40_decode.md R161). -/
  | outOfBounds (addr : Int)
  /-- A write at or above static_base (R65, R66). -/
  | writeViolation (addr : Nat)
  deriving DecidableEq, Repr

/-- Stack faults (R405). -/
inductive StackFault where
  /-- A call at MAX_CALL_DEPTH frames (43_calls_stack.md R275). -/
  | stackOverflow
  /-- A push at MAX_EVAL_STACK words (R270). -/
  | evalOverflow
  /-- A pop, peek or replace with no word above the frame's base (R271, R272). -/
  | evalUnderflow
  /-- A local the current frame does not have (40_decode.md R152, R153). -/
  | badLocal (n : Nat)
  deriving DecidableEq, Repr

/-- Text faults (R406, 41_text.md R193). -/
inductive TextFault where
  /-- A 10-bit escape without two following Z-characters (R185). -/
  | orphanedEscape (start : Nat)
  /-- An abbreviation code as the last Z-character (R187). -/
  | truncatedAbbreviation (start : Nat)
  /-- An abbreviation entry or its string outside the image (R188). -/
  | abbrevOutOfRange (index : Nat)
  /-- An abbreviation code inside an abbreviation string (R189). -/
  | nestedAbbreviation (start : Nat)
  /-- print_char of a code above 1023 (R211). -/
  | badCharacter (code : Nat)
  deriving DecidableEq, Repr

/-- Object faults (R407). -/
inductive ObjectFault where
  /-- Object 0 or above 255 where an object is required (42_objects.md R228). -/
  | badObject (o : Nat)
  /-- Attribute above 31 (R229). -/
  | badAttribute (n : Nat)
  /-- Property 0 or above 31 (R230). -/
  | badProperty (p : Nat)
  /-- put_prop or get_next_prop of an absent property (R250, R251). -/
  | missingProperty (o p : Nat)
  /-- get_prop or put_prop of a property longer than 2 bytes (R247, R251). -/
  | propertyTooLong (o p : Nat)
  /-- A chain that does not contain the object, or a walk over 255 links (R232, R233). -/
  | corruptTree (o : Nat)
  /-- insert_obj into itself or a descendant (R252). -/
  | treeCycle (o d : Nat)
  deriving DecidableEq, Repr

/-- Arithmetic faults (R408). -/
inductive ArithmeticFault where
  /-- div or mod by 0 (44_arith_branch.md R313, R314). -/
  | divideByZero
  deriving DecidableEq, Repr

/-- The fault kinds a running machine can take (R401 without the load class). -/
inductive FaultKind where
  | decode (f : DecodeFault)
  | memory (f : MemoryFault)
  | stack (f : StackFault)
  | text (f : TextFault)
  | object (f : ObjectFault)
  | arithmetic (f : ArithmeticFault)
  deriving DecidableEq, Repr

/-- The fault record (R400). -/
structure FaultRecord where
  kind : FaultKind
  /-- Address of the opcode byte of the instruction that faulted. -/
  pc : Nat
  /-- That opcode byte, if it was read. -/
  opbyte : Option Byte
  deriving DecidableEq, Repr

/-- The header fields the load check names (70_reset_and_hazards.md R442). -/
inductive HeaderField where
  | initialPc
  | dictBase
  | objBase
  | globBase
  | abbrBase
  | staticBase
  deriving DecidableEq, Repr

/-- The load class of R401 (R402): load answers it instead of a state. -/
inductive LoadFault where
  /-- Image shorter than the header (R441). -/
  | imageTooShort
  /-- Version byte is not 3 (R441). -/
  | badVersion (v : Byte)
  /-- A table address or the static boundary outside the image (R442). -/
  | headerInconsistent (field : HeaderField)
  deriving DecidableEq, Repr

end Sys2Proof.Machine
end

