-- ==== Sys2Proof/Machine/Memory.lean ====
section
/-! DEFINITION. The memory image as data, its canonical form, byte order and the bounded reads (20_memory.md). -/

namespace Sys2Proof.Machine

/-- The big-endian word of two bytes (R68). -/
def wordOf (hi lo : Byte) : Word := hi ++ lo

/-- `v[15:8]` (R12). -/
def hiByte (v : Word) : Byte := v.extractLsb' 8 8

/-- `v[7:0]` (R12). -/
def loByte (v : Word) : Byte := v.extractLsb' 0 8

/-- A byte zero-extended to a word (30_encoding.md R97). -/
def zextWord (b : Byte) : Word := b.setWidth 16

/-- The bytes of an image: (address, byte) pairs. -/
abbrev Memory := List Host.Cell

/-- What an unlisted address reads as: version byte 3 at 0x00, initial_pc 0x0040 in 0x06..0x07, static_base 0x0040 in
0x0E..0x0F (the header of 95_test_vectors.md P1), 0 everywhere else. DESIGN CHOICE, log 1; `load` lists every byte that
differs, so an image is held exactly. -/
def Memory.unlisted (a : Nat) : Byte :=
  if a = 0 then 3 else if a = 7 then 0x40 else if a = 15 then 0x40 else 0

/-- The byte at `a`. -/
def Memory.get : Memory → Nat → Byte
  | [], a => Memory.unlisted a
  | (k, b) :: m, a => if a = k then b else Memory.get m a

/-- Set the byte at `a`, keeping the canonical form. -/
def Memory.set : Memory → Nat → Byte → Memory
  | [], a, b => if b = Memory.unlisted a then [] else [(a, b)]
  | (k, c) :: m, a, b =>
    if a < k then (if b = Memory.unlisted a then (k, c) :: m else (a, b) :: (k, c) :: m)
    else if a = k then (if b = Memory.unlisted a then m else (a, b) :: m)
    else (k, c) :: Memory.set m a b

/-- The canonical form: addresses strictly rising, no entry equal to what an unlisted address reads as. -/
abbrev Memory.wf (m : Memory) : Prop :=
  m.Pairwise (fun x y => x.1 < y.1) ∧ ∀ c ∈ m, c.2 ≠ Memory.unlisted c.1

/-- Put consecutive bytes at `a, a+1, …`. -/
def Memory.place (m : Memory) (a : Nat) : List Byte → Memory
  | [] => m
  | b :: bs => Memory.place (m.set a b) (a + 1) bs

/-- The memory that holds exactly these bytes from address `a` on, every other address unlisted. -/
def Memory.ofBytes (a : Nat) : List Byte → Memory
  | [] => []
  | b :: bs => if b = Memory.unlisted a then Memory.ofBytes (a + 1) bs else (a, b) :: Memory.ofBytes (a + 1) bs

/-- `MemRead(a, 1)` in an image of `len` bytes (R63). -/
def Memory.byteAt (m : Memory) (len a : Nat) : Except FaultKind Byte :=
  if a < len then .ok (m.get a) else .error (.memory (.outOfBounds a))

/-- The word at `a` without a bounds check. -/
def Memory.getWord (m : Memory) (a : Nat) : Word := wordOf (m.get a) (m.get (a + 1))

/-- `MemRead(a, 2)` in an image of `len` bytes (R64). -/
def Memory.wordAt (m : Memory) (len a : Nat) : Except FaultKind Word :=
  if a + 1 < len then .ok (m.getWord a) else .error (.memory (.outOfBounds a))

/-- The words of the Z-string at `a`, up to and including the first with bit 15 set (41_text.md R180, R192), put after
`acc` (newest first). The first argument bounds the walk; with at least `len` of it the walk ends at the image end first,
so its last case is the image end (log 18). -/
def Memory.stringFrom (m : Memory) (len : Nat) : Nat → Nat → List Word → Except FaultKind (List Word)
  | 0, a, _ => .error (.memory (.outOfBounds a))
  | fuel + 1, a, acc =>
    match m.wordAt len a with
    | .error e => .error e
    | .ok w => if w.getLsbD 15 then .ok ((w :: acc).reverse) else Memory.stringFrom m len fuel (a + 2) (w :: acc)

/-- The words of the Z-string at `a` (R180, R192). -/
def Memory.stringAt (m : Memory) (len a : Nat) : Except FaultKind (List Word) := m.stringFrom len (len + 1) a []

end Sys2Proof.Machine
end

