-- ==== Sys2Proof/Syntax.lean ====
section
/-! DEFINITION. The instructions: one constructor per row of the opcode table (30_encoding.md R105 to R108). -/

namespace Sys2Proof

/-- An operand as the instruction stream holds it (R95 to R98). -/
inductive Operand where
  /-- A large constant, two bytes. -/
  | large (v : Word)
  /-- A small constant, one byte. -/
  | small (v : Byte)
  /-- A variable number, one byte. -/
  | var (n : Byte)
  deriving DecidableEq, Repr

/-- The two encodings of a 2OP instruction: the long form and the variable form (R92, R94, R114). -/
inductive TwoOp where
  | long
  | variable
  deriving DecidableEq, Repr

/-- A branch offset: 6 bits unsigned in one byte, or 14 bits signed in two (R100). -/
inductive BranchOffset where
  | short (k : BitVec 6)
  | long (k : BitVec 14)
  deriving DecidableEq, Repr

/-- Branch data (R100): `onTrue` is the polarity bit. -/
structure Branch where
  onTrue : Bool
  offset : BranchOffset
  deriving DecidableEq, Repr

/-- The 68 instructions. `f` is the encoding of a 2OP instruction, `st` the store byte, `br` the branch data,
`text` the words of the inline Z-string. -/
inductive Instr where
  -- 2OP (R105)
  | je (f : TwoOp) (a b : Operand) (more : List Operand) (br : Branch)
  | jl (f : TwoOp) (a b : Operand) (br : Branch)
  | jg (f : TwoOp) (a b : Operand) (br : Branch)
  | decChk (f : TwoOp) (n limit : Operand) (br : Branch)
  | incChk (f : TwoOp) (n limit : Operand) (br : Branch)
  | jin (f : TwoOp) (a b : Operand) (br : Branch)
  | test (f : TwoOp) (bitmap flags : Operand) (br : Branch)
  | or (f : TwoOp) (a b : Operand) (st : Byte)
  | and (f : TwoOp) (a b : Operand) (st : Byte)
  | testAttr (f : TwoOp) (o n : Operand) (br : Branch)
  | setAttr (f : TwoOp) (o n : Operand)
  | clearAttr (f : TwoOp) (o n : Operand)
  | store (f : TwoOp) (n v : Operand)
  | insertObj (f : TwoOp) (o d : Operand)
  | loadw (f : TwoOp) (array idx : Operand) (st : Byte)
  | loadb (f : TwoOp) (array idx : Operand) (st : Byte)
  | getProp (f : TwoOp) (o p : Operand) (st : Byte)
  | getPropAddr (f : TwoOp) (o p : Operand) (st : Byte)
  | getNextProp (f : TwoOp) (o p : Operand) (st : Byte)
  | add (f : TwoOp) (a b : Operand) (st : Byte)
  | sub (f : TwoOp) (a b : Operand) (st : Byte)
  | mul (f : TwoOp) (a b : Operand) (st : Byte)
  | div (f : TwoOp) (a b : Operand) (st : Byte)
  | mod (f : TwoOp) (a b : Operand) (st : Byte)
  -- 1OP (R106)
  | jz (a : Operand) (br : Branch)
  | getSibling (o : Operand) (st : Byte) (br : Branch)
  | getChild (o : Operand) (st : Byte) (br : Branch)
  | getParent (o : Operand) (st : Byte)
  | getPropLen (a : Operand) (st : Byte)
  | inc (n : Operand)
  | dec (n : Operand)
  | printAddr (a : Operand)
  | removeObj (o : Operand)
  | printObj (o : Operand)
  | ret (v : Operand)
  | jump (k : Operand)
  | printPaddr (a : Operand)
  | load (n : Operand) (st : Byte)
  | not (a : Operand) (st : Byte)
  -- 0OP (R107)
  | rtrue
  | rfalse
  | print (text : List Word)
  | printRet (text : List Word)
  | nop
  | save (br : Branch)
  | restore (br : Branch)
  | restart
  | retPopped
  | pop
  | quit
  | newLine
  | showStatus
  | verify (br : Branch)
  -- VAR (R108)
  | call (routine : Operand) (args : List Operand) (st : Byte)
  | storew (array idx v : Operand)
  | storeb (array idx v : Operand)
  | putProp (o p v : Operand)
  | sread (text parse : Operand)
  | printChar (a : Operand)
  | printNum (a : Operand)
  | random (a : Operand) (st : Byte)
  | push (v : Operand)
  | pull (n : Operand)
  | splitWindow (lines : Operand)
  | setWindow (window : Operand)
  | outputStream (stream : Operand) (table : Option Operand)
  | inputStream (stream : Operand)
  | soundEffect (number : Operand) (more : List Operand)
  deriving DecidableEq, Repr

end Sys2Proof
end

