-- ==== Sys2Proof/WellFormed.lean ====
section
/-! DEFINITION. Which terms of `Instr` an encoding exists for. -/

namespace Sys2Proof

/-- The long form has no large constants (30_encoding.md R92). -/
def Operand.fitsLong : Operand → Bool
  | .large _ => false
  | .small _ => true
  | .var _ => true

/-- A pair of operands the encoding `f` can hold (R92, R94, R114). -/
def TwoOp.holds (f : TwoOp) (a b : Operand) : Bool :=
  match f with
  | .long => a.fitsLong && b.fitsLong
  | .variable => true

/-- An inline Z-string: bit 15 set on its last word and on no other (30_encoding.md R102, 41_text.md R180). -/
def textEnds : List Word → Bool
  | [] => false
  | [w] => w.getLsbD 15
  | w :: ws => !w.getLsbD 15 && textEnds ws

/-- The well-formed instructions: those some byte sequence decodes to (R90 to R108, R112). -/
def Instr.wellFormed : Instr → Bool
  | .je f a b more _ => f.holds a b && decide (more.length ≤ 2) && (f == .variable || more.isEmpty)
  | .jl f a b _ => f.holds a b
  | .jg f a b _ => f.holds a b
  | .decChk f a b _ => f.holds a b
  | .incChk f a b _ => f.holds a b
  | .jin f a b _ => f.holds a b
  | .test f a b _ => f.holds a b
  | .or f a b _ => f.holds a b
  | .and f a b _ => f.holds a b
  | .testAttr f a b _ => f.holds a b
  | .setAttr f a b => f.holds a b
  | .clearAttr f a b => f.holds a b
  | .store f a b => f.holds a b
  | .insertObj f a b => f.holds a b
  | .loadw f a b _ => f.holds a b
  | .loadb f a b _ => f.holds a b
  | .getProp f a b _ => f.holds a b
  | .getPropAddr f a b _ => f.holds a b
  | .getNextProp f a b _ => f.holds a b
  | .add f a b _ => f.holds a b
  | .sub f a b _ => f.holds a b
  | .mul f a b _ => f.holds a b
  | .div f a b _ => f.holds a b
  | .mod f a b _ => f.holds a b
  | .jz _ _ => true
  | .getSibling _ _ _ => true
  | .getChild _ _ _ => true
  | .getParent _ _ => true
  | .getPropLen _ _ => true
  | .inc _ => true
  | .dec _ => true
  | .printAddr _ => true
  | .removeObj _ => true
  | .printObj _ => true
  | .ret _ => true
  | .jump _ => true
  | .printPaddr _ => true
  | .load _ _ => true
  | .not _ _ => true
  | .rtrue => true
  | .rfalse => true
  | .print text => textEnds text
  | .printRet text => textEnds text
  | .nop => true
  | .save _ => true
  | .restore _ => true
  | .restart => true
  | .retPopped => true
  | .pop => true
  | .quit => true
  | .newLine => true
  | .showStatus => true
  | .verify _ => true
  | .call _ args _ => decide (args.length ≤ 3)
  | .storew _ _ _ => true
  | .storeb _ _ _ => true
  | .putProp _ _ _ => true
  | .sread _ _ => true
  | .printChar _ => true
  | .printNum _ => true
  | .random _ _ => true
  | .push _ => true
  | .pull _ => true
  | .splitWindow _ => true
  | .setWindow _ => true
  | .outputStream _ _ => true
  | .inputStream _ => true
  | .soundEffect _ more => decide (more.length ≤ 3)

end Sys2Proof
end

