-- ==== Sys2Proof/Decode.lean ====
section
/-! DEFINITION. The opcode map, the decoder (40_decode.md R140 to R149), total on every image and pc, and the encoder
(30_encoding.md R90 to R104). -/

namespace Sys2Proof

open Sys2Proof.Machine

/-- The 68 opcodes, one per row of the opcode map (R105 to R108). -/
inductive Op where
  | je | jl | jg | decChk | incChk | jin | test | or | and | testAttr | setAttr | clearAttr | store | insertObj | loadw | loadb | getProp | getPropAddr | getNextProp | add | sub | mul | div | mod
  | jz | getSibling | getChild | getParent | getPropLen | inc | dec | printAddr | removeObj | printObj | ret | jump | printPaddr | load | not
  | rtrue | rfalse | print | printRet | nop | save | restore | restart | retPopped | pop | quit | newLine | showStatus | verify
  | call | storew | storeb | putProp | sread | printChar | printNum | random | push | pull | splitWindow | setWindow | outputStream | inputStream | soundEffect
  deriving DecidableEq, Repr

/-- Operand counts (R91 to R94). -/
inductive OpCount where
  | op0
  | op1
  | op2
  | var
  deriving DecidableEq, Repr

/-- The opcode map: `OpcodeMap(count, num)` (40_decode.md R142, rows of R105 to R108); none is an illegal opcode (R110). -/
def opcodeMap : OpCount → Nat → Option Op
  | .op2, 1 => some .je
  | .op2, 2 => some .jl
  | .op2, 3 => some .jg
  | .op2, 4 => some .decChk
  | .op2, 5 => some .incChk
  | .op2, 6 => some .jin
  | .op2, 7 => some .test
  | .op2, 8 => some .or
  | .op2, 9 => some .and
  | .op2, 10 => some .testAttr
  | .op2, 11 => some .setAttr
  | .op2, 12 => some .clearAttr
  | .op2, 13 => some .store
  | .op2, 14 => some .insertObj
  | .op2, 15 => some .loadw
  | .op2, 16 => some .loadb
  | .op2, 17 => some .getProp
  | .op2, 18 => some .getPropAddr
  | .op2, 19 => some .getNextProp
  | .op2, 20 => some .add
  | .op2, 21 => some .sub
  | .op2, 22 => some .mul
  | .op2, 23 => some .div
  | .op2, 24 => some .mod
  | .op1, 0 => some .jz
  | .op1, 1 => some .getSibling
  | .op1, 2 => some .getChild
  | .op1, 3 => some .getParent
  | .op1, 4 => some .getPropLen
  | .op1, 5 => some .inc
  | .op1, 6 => some .dec
  | .op1, 7 => some .printAddr
  | .op1, 9 => some .removeObj
  | .op1, 10 => some .printObj
  | .op1, 11 => some .ret
  | .op1, 12 => some .jump
  | .op1, 13 => some .printPaddr
  | .op1, 14 => some .load
  | .op1, 15 => some .not
  | .op0, 0 => some .rtrue
  | .op0, 1 => some .rfalse
  | .op0, 2 => some .print
  | .op0, 3 => some .printRet
  | .op0, 4 => some .nop
  | .op0, 5 => some .save
  | .op0, 6 => some .restore
  | .op0, 7 => some .restart
  | .op0, 8 => some .retPopped
  | .op0, 9 => some .pop
  | .op0, 10 => some .quit
  | .op0, 11 => some .newLine
  | .op0, 12 => some .showStatus
  | .op0, 13 => some .verify
  | .var, 0 => some .call
  | .var, 1 => some .storew
  | .var, 2 => some .storeb
  | .var, 3 => some .putProp
  | .var, 4 => some .sread
  | .var, 5 => some .printChar
  | .var, 6 => some .printNum
  | .var, 7 => some .random
  | .var, 8 => some .push
  | .var, 9 => some .pull
  | .var, 10 => some .splitWindow
  | .var, 11 => some .setWindow
  | .var, 19 => some .outputStream
  | .var, 20 => some .inputStream
  | .var, 21 => some .soundEffect
  | _, _ => none

/-- The operand count class of an opcode's row. -/
def Op.count : Op → OpCount
  | .je | .jl | .jg | .decChk | .incChk | .jin | .test | .or | .and | .testAttr | .setAttr | .clearAttr | .store | .insertObj | .loadw | .loadb | .getProp | .getPropAddr | .getNextProp | .add | .sub | .mul | .div | .mod => .op2
  | .jz | .getSibling | .getChild | .getParent | .getPropLen | .inc | .dec | .printAddr | .removeObj | .printObj | .ret | .jump | .printPaddr | .load | .not => .op1
  | .rtrue | .rfalse | .print | .printRet | .nop | .save | .restore | .restart | .retPopped | .pop | .quit | .newLine | .showStatus | .verify => .op0
  | .call | .storew | .storeb | .putProp | .sread | .printChar | .printNum | .random | .push | .pull | .splitWindow | .setWindow | .outputStream | .inputStream | .soundEffect => .var

/-- The opcode number of an opcode's row. -/
def Op.num : Op → Nat
  | .je => 1
  | .jl => 2
  | .jg => 3
  | .decChk => 4
  | .incChk => 5
  | .jin => 6
  | .test => 7
  | .or => 8
  | .and => 9
  | .testAttr => 10
  | .setAttr => 11
  | .clearAttr => 12
  | .store => 13
  | .insertObj => 14
  | .loadw => 15
  | .loadb => 16
  | .getProp => 17
  | .getPropAddr => 18
  | .getNextProp => 19
  | .add => 20
  | .sub => 21
  | .mul => 22
  | .div => 23
  | .mod => 24
  | .jz => 0
  | .getSibling => 1
  | .getChild => 2
  | .getParent => 3
  | .getPropLen => 4
  | .inc => 5
  | .dec => 6
  | .printAddr => 7
  | .removeObj => 9
  | .printObj => 10
  | .ret => 11
  | .jump => 12
  | .printPaddr => 13
  | .load => 14
  | .not => 15
  | .rtrue => 0
  | .rfalse => 1
  | .print => 2
  | .printRet => 3
  | .nop => 4
  | .save => 5
  | .restore => 6
  | .restart => 7
  | .retPopped => 8
  | .pop => 9
  | .quit => 10
  | .newLine => 11
  | .showStatus => 12
  | .verify => 13
  | .call => 0
  | .storew => 1
  | .storeb => 2
  | .putProp => 3
  | .sread => 4
  | .printChar => 5
  | .printNum => 6
  | .random => 7
  | .push => 8
  | .pull => 9
  | .splitWindow => 10
  | .setWindow => 11
  | .outputStream => 19
  | .inputStream => 20
  | .soundEffect => 21

/-- The St column (R105 to R108). -/
def Op.hasStore : Op → Bool
  | .or | .and | .loadw | .loadb | .getProp | .getPropAddr | .getNextProp | .add | .sub | .mul | .div | .mod | .getSibling | .getChild | .getParent | .getPropLen | .load | .not | .call | .random => true
  | _ => false

/-- The Br column. -/
def Op.hasBranch : Op → Bool
  | .je | .jl | .jg | .decChk | .incChk | .jin | .test | .testAttr | .jz | .getSibling | .getChild | .save | .restore | .verify => true
  | _ => false

/-- The Tx column. -/
def Op.hasText : Op → Bool
  | .print | .printRet => true
  | _ => false

/-- The admitted operand counts, lowest and highest (the ops column, R111). -/
def Op.arity : Op → Nat × Nat
  | .je => (2, 4)
  | .jl | .jg | .decChk | .incChk | .jin | .test | .or | .and | .testAttr | .setAttr | .clearAttr | .store | .insertObj | .loadw | .loadb | .getProp | .getPropAddr | .getNextProp | .add | .sub | .mul | .div | .mod | .sread => (2, 2)
  | .jz | .getSibling | .getChild | .getParent | .getPropLen | .inc | .dec | .printAddr | .removeObj | .printObj | .ret | .jump | .printPaddr | .load | .not | .printChar | .printNum | .random | .push | .pull | .splitWindow | .setWindow | .inputStream => (1, 1)
  | .rtrue | .rfalse | .print | .printRet | .nop | .save | .restore | .restart | .retPopped | .pop | .quit | .newLine | .showStatus | .verify => (0, 0)
  | .call | .soundEffect => (1, 4)
  | .storew | .storeb | .putProp => (3, 3)
  | .outputStream => (1, 2)

/-- An operand count the row admits (R111, R148). -/
def Op.admits (o : Op) (n : Nat) : Bool := decide (o.arity.1 ≤ n) && decide (n ≤ o.arity.2)

/-- The three forms of version 3 (R91). -/
inductive Form where
  | long
  | short
  | variable
  deriving DecidableEq, Repr

/-- The operand types that take a place in the stream (R95). -/
inductive OpType where
  | large
  | small
  | var
  deriving DecidableEq, Repr

def TwoOp.form : TwoOp → Form
  | .long => .long
  | .variable => .variable

def Form.twoOp : Form → TwoOp
  | .long => .long
  | .short => .variable
  | .variable => .variable

/-- An instruction taken apart (R147, without the addresses, which are not part of the bytes). -/
structure Decoded where
  op : Op
  form : Form
  ops : List Operand
  text : List Word
  store : Option Byte
  branch : Option Branch
  deriving DecidableEq, Repr

def Operand.type : Operand → OpType
  | .large _ => .large
  | .small _ => .small
  | .var _ => .var

/-- Type codes (R95). -/
def OpType.code : OpType → BitVec 2
  | .large => 0
  | .small => 1
  | .var => 2

/-- `TypeOf` (R143), with none for the omitted code 0b11. -/
def typeOf (c : BitVec 2) : Option OpType :=
  if c = 0 then some .large else if c = 1 then some .small else if c = 2 then some .var else none

/-! ## The decoder -/

/-- The opcode byte's form, count and number (R141). -/
def classify (b : Byte) : Form × OpCount × Nat :=
  if b.extractLsb' 6 2 = 3 then
    (.variable, if b.getLsbD 5 then .var else .op2, (b.extractLsb' 0 5).toNat)
  else if b.extractLsb' 6 2 = 2 then
    (.short, if b.extractLsb' 4 2 = 3 then .op0 else .op1, (b.extractLsb' 0 4).toNat)
  else (.long, .op2, (b.extractLsb' 0 5).toNat)

/-- The four type fields of a type byte, first operand first (R94). -/
def typeFields (tb : Byte) : List (BitVec 2) :=
  [tb.extractLsb' 6 2, tb.extractLsb' 4 2, tb.extractLsb' 2 2, tb.extractLsb' 0 2]

/-- `TypeList` (R144): the types before the first omitted field; none when a later field is not omitted and the
policy is `fault`. -/
def typeList (pol : AfterOmit) : List (BitVec 2) → Option (List OpType)
  | [] => some []
  | c :: cs =>
    match typeOf c with
    | some t => (typeList pol cs).map (t :: ·)
    | none => if pol = .fault ∧ cs.any (· ≠ 3) then none else some []

/-- The operand types and the address of the first operand byte (R143). -/
def operandTypes (pol : AfterOmit) (m : Memory) (len pc : Nat) (b : Byte) :
    Form → OpCount → Except FaultKind (List OpType × Nat)
  | .long, _ => .ok ([if b.getLsbD 6 then .var else .small, if b.getLsbD 5 then .var else .small], pc + 1)
  | .short, _ => .ok ((typeOf (b.extractLsb' 4 2)).toList, pc + 1)
  | .variable, _ => do
    let tb ← m.byteAt len (pc + 1)
    match typeList pol (typeFields tb) with
    | some ts => .ok (ts, pc + 2)
    | none => .error (.decode (.malformedTypeByte pc b))

/-- The operand bytes, in type order, and the address after them (R145). -/
def readOperands (m : Memory) (len : Nat) : List OpType → Nat → Except FaultKind (List Operand × Nat)
  | [], p => .ok ([], p)
  | .large :: ts, p => do
    let v ← m.wordAt len p
    let (os, q) ← readOperands m len ts (p + 2)
    .ok (.large v :: os, q)
  | .small :: ts, p => do
    let v ← m.byteAt len p
    let (os, q) ← readOperands m len ts (p + 1)
    .ok (.small v :: os, q)
  | .var :: ts, p => do
    let v ← m.byteAt len p
    let (os, q) ← readOperands m len ts (p + 1)
    .ok (.var v :: os, q)

/-- The inline Z-string, if the row has one (R146). -/
def readText (m : Memory) (len : Nat) (has : Bool) (p : Nat) : Except FaultKind (List Word × Nat) :=
  if has then do
    let ws ← m.stringAt len p
    .ok (ws, p + 2 * ws.length)
  else .ok ([], p)

/-- The store byte, if the row has one (R146). -/
def readStore (m : Memory) (len : Nat) (has : Bool) (p : Nat) : Except FaultKind (Option Byte × Nat) :=
  if has then do
    let b ← m.byteAt len p
    .ok (some b, p + 1)
  else .ok (none, p)

/-- The branch data, if the row has some (R100, R146). -/
def readBranch (m : Memory) (len : Nat) (has : Bool) (p : Nat) : Except FaultKind (Option Branch × Nat) :=
  if has then do
    let b1 ← m.byteAt len p
    if b1.getLsbD 6 then .ok (some ⟨b1.getLsbD 7, .short (b1.extractLsb' 0 6)⟩, p + 1)
    else do
      let b2 ← m.byteAt len (p + 1)
      .ok (some ⟨b1.getLsbD 7, .long (b1.extractLsb' 0 6 ++ b2)⟩, p + 2)
  else .ok (none, p)

/-- The parts of the instruction at `pc` and the address after it, or the first fault in read order (R140 to R149). -/
def decodeParts (pol : AfterOmit) (m : Memory) (len pc : Nat) : Except FaultKind (Decoded × Nat) := do
  let b ← m.byteAt len pc
  let (form, count, num) := classify b
  match opcodeMap count num with
  | none => .error (.decode (.illegalOpcode pc b))
  | some op =>
    let (types, p0) ← operandTypes pol m len pc b form count
    if op.admits types.length then
      let (ops, p1) ← readOperands m len types p0
      let (text, p2) ← readText m len op.hasText p1
      let (store, p3) ← readStore m len op.hasStore p2
      let (branch, p4) ← readBranch m len op.hasBranch p3
      .ok (⟨op, form, ops, text, store, branch⟩, p4)
    else .error (.decode (.operandCount pc b))

def one (ops : List Operand) (k : Operand → Option Instr) : Option Instr :=
  match ops with
  | [a] => k a
  | _ => none

def two (ops : List Operand) (k : Operand → Operand → Option Instr) : Option Instr :=
  match ops with
  | [a, b] => k a b
  | _ => none

def three (ops : List Operand) (k : Operand → Operand → Operand → Option Instr) : Option Instr :=
  match ops with
  | [a, b, c] => k a b c
  | _ => none

def oneOrMore (ops : List Operand) (k : Operand → List Operand → Option Instr) : Option Instr :=
  match ops with
  | a :: more => k a more
  | _ => none

def twoOrMore (ops : List Operand) (k : Operand → Operand → List Operand → Option Instr) : Option Instr :=
  match ops with
  | a :: b :: more => k a b more
  | _ => none

/-- The instruction the parts stand for (R142, R156). -/
def Decoded.build (d : Decoded) : Option Instr :=
  match d.op with
  | .je => twoOrMore d.ops fun a b more => d.branch.map fun br => (.je d.form.twoOp a b more br)
  | .jl => two d.ops fun a b => d.branch.map fun br => (.jl d.form.twoOp a b br)
  | .jg => two d.ops fun a b => d.branch.map fun br => (.jg d.form.twoOp a b br)
  | .decChk => two d.ops fun a b => d.branch.map fun br => (.decChk d.form.twoOp a b br)
  | .incChk => two d.ops fun a b => d.branch.map fun br => (.incChk d.form.twoOp a b br)
  | .jin => two d.ops fun a b => d.branch.map fun br => (.jin d.form.twoOp a b br)
  | .test => two d.ops fun a b => d.branch.map fun br => (.test d.form.twoOp a b br)
  | .or => two d.ops fun a b => d.store.map fun st => (.or d.form.twoOp a b st)
  | .and => two d.ops fun a b => d.store.map fun st => (.and d.form.twoOp a b st)
  | .testAttr => two d.ops fun a b => d.branch.map fun br => (.testAttr d.form.twoOp a b br)
  | .setAttr => two d.ops fun a b => some (.setAttr d.form.twoOp a b)
  | .clearAttr => two d.ops fun a b => some (.clearAttr d.form.twoOp a b)
  | .store => two d.ops fun a b => some (.store d.form.twoOp a b)
  | .insertObj => two d.ops fun a b => some (.insertObj d.form.twoOp a b)
  | .loadw => two d.ops fun a b => d.store.map fun st => (.loadw d.form.twoOp a b st)
  | .loadb => two d.ops fun a b => d.store.map fun st => (.loadb d.form.twoOp a b st)
  | .getProp => two d.ops fun a b => d.store.map fun st => (.getProp d.form.twoOp a b st)
  | .getPropAddr => two d.ops fun a b => d.store.map fun st => (.getPropAddr d.form.twoOp a b st)
  | .getNextProp => two d.ops fun a b => d.store.map fun st => (.getNextProp d.form.twoOp a b st)
  | .add => two d.ops fun a b => d.store.map fun st => (.add d.form.twoOp a b st)
  | .sub => two d.ops fun a b => d.store.map fun st => (.sub d.form.twoOp a b st)
  | .mul => two d.ops fun a b => d.store.map fun st => (.mul d.form.twoOp a b st)
  | .div => two d.ops fun a b => d.store.map fun st => (.div d.form.twoOp a b st)
  | .mod => two d.ops fun a b => d.store.map fun st => (.mod d.form.twoOp a b st)
  | .jz => one d.ops fun a => d.branch.map fun br => (.jz a br)
  | .getSibling => one d.ops fun a => d.store.bind fun st => d.branch.map fun br => (.getSibling a st br)
  | .getChild => one d.ops fun a => d.store.bind fun st => d.branch.map fun br => (.getChild a st br)
  | .getParent => one d.ops fun a => d.store.map fun st => (.getParent a st)
  | .getPropLen => one d.ops fun a => d.store.map fun st => (.getPropLen a st)
  | .inc => one d.ops fun a => some (.inc a)
  | .dec => one d.ops fun a => some (.dec a)
  | .printAddr => one d.ops fun a => some (.printAddr a)
  | .removeObj => one d.ops fun a => some (.removeObj a)
  | .printObj => one d.ops fun a => some (.printObj a)
  | .ret => one d.ops fun a => some (.ret a)
  | .jump => one d.ops fun a => some (.jump a)
  | .printPaddr => one d.ops fun a => some (.printPaddr a)
  | .load => one d.ops fun a => d.store.map fun st => (.load a st)
  | .not => one d.ops fun a => d.store.map fun st => (.not a st)
  | .rtrue => some .rtrue
  | .rfalse => some .rfalse
  | .print => some (.print d.text)
  | .printRet => some (.printRet d.text)
  | .nop => some .nop
  | .save => d.branch.map fun br => (.save br)
  | .restore => d.branch.map fun br => (.restore br)
  | .restart => some .restart
  | .retPopped => some .retPopped
  | .pop => some .pop
  | .quit => some .quit
  | .newLine => some .newLine
  | .showStatus => some .showStatus
  | .verify => d.branch.map fun br => (.verify br)
  | .call => oneOrMore d.ops fun a args => d.store.map fun st => (.call a args st)
  | .storew => three d.ops fun a b c => some (.storew a b c)
  | .storeb => three d.ops fun a b c => some (.storeb a b c)
  | .putProp => three d.ops fun a b c => some (.putProp a b c)
  | .sread => two d.ops fun a b => some (.sread a b)
  | .printChar => one d.ops fun a => some (.printChar a)
  | .printNum => one d.ops fun a => some (.printNum a)
  | .random => one d.ops fun a => d.store.map fun st => (.random a st)
  | .push => one d.ops fun a => some (.push a)
  | .pull => one d.ops fun a => some (.pull a)
  | .splitWindow => one d.ops fun a => some (.splitWindow a)
  | .setWindow => one d.ops fun a => some (.setWindow a)
  | .outputStream => oneOrMore d.ops fun a more => some (.outputStream a more.head?)
  | .inputStream => one d.ops fun a => some (.inputStream a)
  | .soundEffect => oneOrMore d.ops fun a more => some (.soundEffect a more)

/-- The instruction at `pc` and the address after it, or the fault met (R140). The parts of an admitted operand count
always build, so the last case is never reached. -/
def decodeNext (pol : AfterOmit) (m : Memory) (len pc : Nat) : Except FaultKind (Instr × Nat) := do
  let (d, next) ← decodeParts pol m len pc
  match d.build with
  | some i => .ok (i, next)
  | none => .error (.decode (.operandCount pc (m.get pc)))

/-- `Decode(mem, pc)` (R140). -/
def decode (pol : AfterOmit) (m : Memory) (len pc : Nat) : Except FaultKind Instr :=
  (decodeNext pol m len pc).map Prod.fst

/-! ## The encoder -/

/-- The parts of an instruction. -/
def Instr.parts : Instr → Decoded
  | .je f a b more br => ⟨.je, f.form, a :: b :: more, [], none, some br⟩
  | .jl f a b br => ⟨.jl, f.form, [a, b], [], none, some br⟩
  | .jg f a b br => ⟨.jg, f.form, [a, b], [], none, some br⟩
  | .decChk f a b br => ⟨.decChk, f.form, [a, b], [], none, some br⟩
  | .incChk f a b br => ⟨.incChk, f.form, [a, b], [], none, some br⟩
  | .jin f a b br => ⟨.jin, f.form, [a, b], [], none, some br⟩
  | .test f a b br => ⟨.test, f.form, [a, b], [], none, some br⟩
  | .or f a b st => ⟨.or, f.form, [a, b], [], some st, none⟩
  | .and f a b st => ⟨.and, f.form, [a, b], [], some st, none⟩
  | .testAttr f a b br => ⟨.testAttr, f.form, [a, b], [], none, some br⟩
  | .setAttr f a b => ⟨.setAttr, f.form, [a, b], [], none, none⟩
  | .clearAttr f a b => ⟨.clearAttr, f.form, [a, b], [], none, none⟩
  | .store f a b => ⟨.store, f.form, [a, b], [], none, none⟩
  | .insertObj f a b => ⟨.insertObj, f.form, [a, b], [], none, none⟩
  | .loadw f a b st => ⟨.loadw, f.form, [a, b], [], some st, none⟩
  | .loadb f a b st => ⟨.loadb, f.form, [a, b], [], some st, none⟩
  | .getProp f a b st => ⟨.getProp, f.form, [a, b], [], some st, none⟩
  | .getPropAddr f a b st => ⟨.getPropAddr, f.form, [a, b], [], some st, none⟩
  | .getNextProp f a b st => ⟨.getNextProp, f.form, [a, b], [], some st, none⟩
  | .add f a b st => ⟨.add, f.form, [a, b], [], some st, none⟩
  | .sub f a b st => ⟨.sub, f.form, [a, b], [], some st, none⟩
  | .mul f a b st => ⟨.mul, f.form, [a, b], [], some st, none⟩
  | .div f a b st => ⟨.div, f.form, [a, b], [], some st, none⟩
  | .mod f a b st => ⟨.mod, f.form, [a, b], [], some st, none⟩
  | .jz a br => ⟨.jz, .short, [a], [], none, some br⟩
  | .getSibling a st br => ⟨.getSibling, .short, [a], [], some st, some br⟩
  | .getChild a st br => ⟨.getChild, .short, [a], [], some st, some br⟩
  | .getParent a st => ⟨.getParent, .short, [a], [], some st, none⟩
  | .getPropLen a st => ⟨.getPropLen, .short, [a], [], some st, none⟩
  | .inc a => ⟨.inc, .short, [a], [], none, none⟩
  | .dec a => ⟨.dec, .short, [a], [], none, none⟩
  | .printAddr a => ⟨.printAddr, .short, [a], [], none, none⟩
  | .removeObj a => ⟨.removeObj, .short, [a], [], none, none⟩
  | .printObj a => ⟨.printObj, .short, [a], [], none, none⟩
  | .ret a => ⟨.ret, .short, [a], [], none, none⟩
  | .jump a => ⟨.jump, .short, [a], [], none, none⟩
  | .printPaddr a => ⟨.printPaddr, .short, [a], [], none, none⟩
  | .load a st => ⟨.load, .short, [a], [], some st, none⟩
  | .not a st => ⟨.not, .short, [a], [], some st, none⟩
  | .rtrue => ⟨.rtrue, .short, [], [], none, none⟩
  | .rfalse => ⟨.rfalse, .short, [], [], none, none⟩
  | .print text => ⟨.print, .short, [], text, none, none⟩
  | .printRet text => ⟨.printRet, .short, [], text, none, none⟩
  | .nop => ⟨.nop, .short, [], [], none, none⟩
  | .save br => ⟨.save, .short, [], [], none, some br⟩
  | .restore br => ⟨.restore, .short, [], [], none, some br⟩
  | .restart => ⟨.restart, .short, [], [], none, none⟩
  | .retPopped => ⟨.retPopped, .short, [], [], none, none⟩
  | .pop => ⟨.pop, .short, [], [], none, none⟩
  | .quit => ⟨.quit, .short, [], [], none, none⟩
  | .newLine => ⟨.newLine, .short, [], [], none, none⟩
  | .showStatus => ⟨.showStatus, .short, [], [], none, none⟩
  | .verify br => ⟨.verify, .short, [], [], none, some br⟩
  | .call a args st => ⟨.call, .variable, a :: args, [], some st, none⟩
  | .storew a b c => ⟨.storew, .variable, [a, b, c], [], none, none⟩
  | .storeb a b c => ⟨.storeb, .variable, [a, b, c], [], none, none⟩
  | .putProp a b c => ⟨.putProp, .variable, [a, b, c], [], none, none⟩
  | .sread a b => ⟨.sread, .variable, [a, b], [], none, none⟩
  | .printChar a => ⟨.printChar, .variable, [a], [], none, none⟩
  | .printNum a => ⟨.printNum, .variable, [a], [], none, none⟩
  | .random a st => ⟨.random, .variable, [a], [], some st, none⟩
  | .push a => ⟨.push, .variable, [a], [], none, none⟩
  | .pull a => ⟨.pull, .variable, [a], [], none, none⟩
  | .splitWindow a => ⟨.splitWindow, .variable, [a], [], none, none⟩
  | .setWindow a => ⟨.setWindow, .variable, [a], [], none, none⟩
  | .outputStream a b => ⟨.outputStream, .variable, a :: b.toList, [], none, none⟩
  | .inputStream a => ⟨.inputStream, .variable, [a], [], none, none⟩
  | .soundEffect a more => ⟨.soundEffect, .variable, a :: more, [], none, none⟩

/-- The opcode byte (R91 to R94). -/
def Decoded.opbyte (d : Decoded) : Byte :=
  match d.form, d.ops with
  | .long, [a, b] =>
    BitVec.ofNat 8 ((if a.type = .var then 0x40 else 0) + (if b.type = .var then 0x20 else 0) + d.op.num)
  | .long, _ => BitVec.ofNat 8 d.op.num
  | .short, a :: _ => BitVec.ofNat 8 (0x80 + 16 * a.type.code.toNat + d.op.num)
  | .short, [] => BitVec.ofNat 8 (0xB0 + d.op.num)
  | .variable, _ => BitVec.ofNat 8 ((if d.op.count = .op2 then 0xC0 else 0xE0) + d.op.num)

/-- The type byte of up to four operands, the rest omitted (R94, R95). -/
def typeByte (ops : List Operand) : Byte :=
  let code (k : Nat) : BitVec 2 := ((ops[k]?).map fun o => o.type.code).getD 3
  code 0 ++ code 1 ++ code 2 ++ code 3

/-- The bytes of an operand (R96 to R98). -/
def Operand.bytes : Operand → List Byte
  | .large v => [hiByte v, loByte v]
  | .small v => [v]
  | .var n => [n]

/-- The bytes of branch data (R100). -/
def Branch.bytes (br : Branch) : List Byte :=
  match br.offset with
  | .short k => [BitVec.ofBool br.onTrue ++ (1 : BitVec 1) ++ k]
  | .long k => [BitVec.ofBool br.onTrue ++ (0 : BitVec 1) ++ k.extractLsb' 8 6, k.extractLsb' 0 8]

/-- The offset as an integer (R100): 6 bits unsigned, 14 bits signed. -/
def BranchOffset.value : BranchOffset → Int
  | .short k => k.toNat
  | .long k => k.toInt

/-- The bytes of the parts, in the order of R90. -/
def Decoded.bytes (d : Decoded) : List Byte :=
  d.opbyte :: ((if d.form = .variable then [typeByte d.ops] else []) ++ d.ops.flatMap Operand.bytes ++
    d.text.flatMap (fun w => [hiByte w, loByte w]) ++ d.store.toList ++ (d.branch.map Branch.bytes).getD [])

/-- The bytes of an instruction (R90). -/
def encode (i : Instr) : List Byte := i.parts.bytes

/-- The instruction's opcode byte. -/
def Instr.opbyte (i : Instr) : Byte := i.parts.opbyte

/-- The bytes an operand takes (R95). -/
def Operand.size : Operand → Nat
  | .large _ => 2
  | .small _ => 1
  | .var _ => 1

/-- The bytes branch data takes (R100). -/
def Branch.size (br : Branch) : Nat :=
  match br.offset with
  | .short _ => 1
  | .long _ => 2

/-- The length of the parts in bytes (R104). -/
def Decoded.size (d : Decoded) : Nat :=
  1 + (if d.form = .variable then 1 else 0) + (d.ops.map Operand.size).sum + 2 * d.text.length + d.store.toList.length +
    (d.branch.map Branch.size).getD 0

/-- The instruction's length in bytes (R104). -/
def Instr.size (i : Instr) : Nat := i.parts.size

/-! ## The opcode table's words -/

/-- The bytes of a table word: `w`'s low `nbits` bits, least significant byte first, then the zero bytes of the longest
instruction without inline text (12 bytes, R104). -/
def tableBytes (nbits w : Nat) : List Byte :=
  (List.range (nbits / 8 + 12)).map fun k => BitVec.ofNat 8 ((w % 2 ^ nbits) / 2 ^ (8 * k))

/-- What the decoder reads from a table word (TYPE_BYTE_AFTER_OMIT at its default). -/
def decodeTableWord (nbits w : Nat) : Option Instr :=
  let bytes := tableBytes nbits w
  match decode .ignore (Memory.ofBytes 0 bytes) bytes.length 0 with
  | .ok i => some i
  | .error _ => none

end Sys2Proof
end

