-- ==== Sys2Proof/Machine/State.lean ====
section
/-! DEFINITION. The architectural state (10_state.md R20), the state after reset, and the stops of the model. -/

namespace Sys2Proof.Machine

/-- The header fields latched at load (R23, R38). -/
structure Header where
  /-- 0x00, the version number. -/
  version : Byte
  /-- 0x01. -/
  flags1 : Byte
  /-- 0x02. -/
  release : Word
  /-- 0x04, base of high memory; no rule uses it (R30). -/
  highBase : Word
  /-- 0x06, byte address of the first instruction. -/
  initialPc : Word
  /-- 0x08, byte address of the dictionary. -/
  dictBase : Word
  /-- 0x0A, byte address of the object table. -/
  objBase : Word
  /-- 0x0C, byte address of the global-variable table. -/
  globBase : Word
  /-- 0x0E, first byte address of static memory. -/
  staticBase : Word
  /-- 0x10. -/
  flags2 : Word
  /-- 0x12, six bytes. -/
  serial : BitVec 48
  /-- 0x18, byte address of the abbreviation table. -/
  abbrBase : Word
  /-- 0x1A, file length divided by 2. -/
  fileLen : Word
  /-- 0x1C, checksum of the file. -/
  checksum : Word
  deriving DecidableEq, Repr

/-- A frame of the call stack (R26). -/
structure Frame where
  /-- Byte address to resume at in the caller; none for the root frame. -/
  returnPc : Option Nat
  /-- Variable that receives the return value. -/
  storeVar : Option Byte
  /-- Locals 1..n, `locals[k-1]` is local `k`. -/
  locals : List Word
  /-- Number of arguments the call supplied. -/
  argCount : Nat
  /-- Length of the evaluation stack when the routine was entered. -/
  stackBase : Nat
  deriving DecidableEq, Repr

/-- The read that suspended execution (R32). -/
structure PendingRead where
  textAddr : Word
  parseAddr : Word
  atPc : Nat
  next : Nat
  deriving DecidableEq, Repr

/-- The run status (R31). -/
inductive Status where
  | running
  | awaitingInput (pending : PendingRead)
  | halted
  | faulted (record : FaultRecord)
  deriving DecidableEq, Repr

/-- The machine's state (R20), with the parameters of 00_scope.md R8 (log 4). -/
structure State where
  /-- The parameters, fixed before load. -/
  params : Params
  /-- `L`, the image length in bytes (R21). -/
  len : Nat
  /-- The memory image (R21). -/
  mem : Memory
  /-- The image as loaded (R22). -/
  rom : Memory
  /-- The header fields latched at load (R23). -/
  hdr : Header
  /-- The program counter (R24). -/
  pc : Nat
  /-- The evaluation stack, top first (R25; log 9). -/
  stack : List Word
  /-- The current frame: the last element of the spec's `frames` (R26; log 9). -/
  frame : Frame
  /-- The other frames, newest first; the root frame is the last one (R26; log 9). -/
  callers : List Frame
  /-- The run status (R31). -/
  status : Status
  /-- The random-number generator's state (R34). -/
  rng : RngState
  /-- The output port's contents, oldest first (R35). -/
  out : List Zscii
  deriving DecidableEq, Repr

/-- The stops of the model that are not the machine's own. There are none: every fault of 60_exceptions.md R401 is taken
by the machine and is a next state whose `status` is `faulted` (R400, R410; log 7). -/
inductive Fault where
  deriving DecidableEq, Repr

/-- Refusals of the model. -/
inductive Refusal where
  /-- An instruction without a meaning, refused in exec's arm by its mnemonic (safe: a run stops). No arm raises it. -/
  | notModelled (mnemonic : String)
  deriving DecidableEq, Repr

/-- The state after reset: the state after load (70_reset_and_hazards.md R446) of the image of `Memory.unlisted` bytes,
`0x45` of them (the length of 95_test_vectors.md P1), under the default parameters (logs 1 to 5). -/
def State.reset : State where
  params := Params.default
  len := 0x45
  mem := []
  rom := []
  hdr :=
    { version := 3, flags1 := 0, release := 0, highBase := 0, initialPc := 0x40, dictBase := 0, objBase := 0, globBase := 0,
      staticBase := 0x40, flags2 := 0, serial := 0, abbrBase := 0, fileLen := 0, checksum := 0 }
  pc := 0x40
  stack := []
  frame := { returnPc := none, storeVar := none, locals := [], argCount := 0, stackBase := 0 }
  callers := []
  status := .running
  rng := Params.default.rngInit
  out := []

end Sys2Proof.Machine
end

