-- ==== Sys2Proof/Machine/Ops.lean ====
section
/-! DEFINITION. The named operations every meaning is written over: memory, evaluation stack, variables, output, control
transfer, calls and returns, and taking a fault. An operation answers a fault kind or its result; a meaning's writes are
all made on a working copy (40_decode.md R163). -/

namespace Sys2Proof.Machine

/-! ## Memory (20_memory.md R63 to R66) -/

/-- `MemRead(a, 1)` (R63). -/
def readByte (a : Nat) (s : State) : Except FaultKind Byte := s.mem.byteAt s.len a

/-- `MemRead(a, 2)` (R64). -/
def readWord (a : Nat) (s : State) : Except FaultKind Word := s.mem.wordAt s.len a

/-- The state with the byte at `a` set, unchecked. -/
def State.setByte (s : State) (a : Nat) (b : Byte) : State := { s with mem := s.mem.set a b }

/-- The state with the big-endian word at `a` set, unchecked (R68). -/
def State.setWord (s : State) (a : Nat) (v : Word) : State := (s.setByte a (hiByte v)).setByte (a + 1) (loByte v)

/-- `MemWrite(a, 1, v)` (R65): the bounds check first, then the static boundary. -/
def writeByte (a : Nat) (b : Byte) (s : State) : Except FaultKind State :=
  if a < s.len then
    if a < s.hdr.staticBase.toNat then .ok (s.setByte a b) else .error (.memory (.writeViolation a))
  else .error (.memory (.outOfBounds a))

/-- `MemWrite(a, 2, v)` (R66): both bytes or neither. -/
def writeWord (a : Nat) (v : Word) (s : State) : Except FaultKind State :=
  if a + 1 < s.len then
    if a + 1 < s.hdr.staticBase.toNat then .ok (s.setWord a v) else .error (.memory (.writeViolation a))
  else .error (.memory (.outOfBounds a))

/-! ## Evaluation stack (43_calls_stack.md R270 to R272) -/

/-- `Push(v)` (R270). -/
def push (v : Word) (s : State) : Except FaultKind State :=
  if s.params.maxEvalStack ≤ s.stack.length then .error (.stack .evalOverflow) else .ok { s with stack := v :: s.stack }

/-- The top word of the current frame's part of the stack and the words below it; a frame never reaches below its base
(R271). -/
def topOf (s : State) : Except FaultKind (Word × List Word) :=
  match s.stack with
  | [] => .error (.stack .evalUnderflow)
  | v :: rest => if s.frame.stackBase ≤ rest.length then .ok (v, rest) else .error (.stack .evalUnderflow)

/-- `Pop()` (R271). -/
def pop (s : State) : Except FaultKind (Word × State) := do
  let (v, rest) ← topOf s
  .ok (v, { s with stack := rest })

/-- `Peek()` (R272). -/
def peek (s : State) : Except FaultKind Word := do
  let (v, _) ← topOf s
  .ok v

/-- `ReplaceTop(v)` (R272). -/
def replaceTop (v : Word) (s : State) : Except FaultKind State := do
  let (_, rest) ← topOf s
  .ok { s with stack := v :: rest }

/-! ## Variables (40_decode.md R151 to R155, 10_state.md R27) -/

/-- The address of global variable `n` (16..255) (R27). -/
def State.globalAddr (s : State) (n : Byte) : Nat := s.hdr.globBase.toNat + 2 * (n.toNat - 16)

/-- The state with local `n` of the current frame set. -/
def State.setLocal (s : State) (n : Byte) (v : Word) : State :=
  { s with frame := { s.frame with locals := s.frame.locals.set (n.toNat - 1) v } }

/-- `ReadVar(n)` (R152). -/
def readVar (n : Byte) (s : State) : Except FaultKind (Word × State) :=
  if n.toNat = 0 then pop s
  else if n.toNat ≤ 15 then
    match s.frame.locals[n.toNat - 1]? with
    | some v => .ok (v, s)
    | none => .error (.stack (.badLocal n.toNat))
  else (readWord (s.globalAddr n) s).map (·, s)

/-- `WriteVar(n, v)` (R153). -/
def writeVar (n : Byte) (v : Word) (s : State) : Except FaultKind State :=
  if n.toNat = 0 then push v s
  else if n.toNat ≤ 15 then
    if n.toNat ≤ s.frame.locals.length then .ok (s.setLocal n v) else .error (.stack (.badLocal n.toNat))
  else writeWord (s.globalAddr n) v s

/-- `ReadVarInPlace(n)` (R154). -/
def readVarInPlace (n : Byte) (s : State) : Except FaultKind Word :=
  if n.toNat = 0 then peek s else (readVar n s).map Prod.fst

/-- `WriteVarInPlace(n, v)` (R155). -/
def writeVarInPlace (n : Byte) (v : Word) (s : State) : Except FaultKind State :=
  if n.toNat = 0 then replaceTop v s else writeVar n v s

/-- The variable an operand of kind `r` names (R151); `op` is the opcode byte the fault records. -/
def varRef (op : Byte) (v : Word) (s : State) : Except FaultKind Byte :=
  if v.toNat ≤ 255 then .ok (loByte v) else .error (.decode (.badVariableRef s.pc op))

/-- Read the variable `r` names in place, write `f` of it back in place, and give the new value (R315 to R318). -/
def updateVar (op : Byte) (r : Word) (f : Word → Word) (s : State) : Except FaultKind (Word × State) := do
  let n ← varRef op r s
  let v ← readVarInPlace n s
  let t ← writeVarInPlace n (f v) s
  .ok (f v, t)

/-- `u16(base + k*index)` (20_memory.md R62). -/
def arrayAddr (k : Nat) (base index : Word) : Nat := (base.toNat + k * index.toNat) % 0x10000

/-! ## Output (41_text.md R194, R203) -/

/-- `Emit(c)` (R203). -/
def emit (c : Zscii) (s : State) : State := if c = 0 then s else { s with out := s.out ++ [c] }

/-- `EmitAll(list)` (R194). -/
def emitAll (cs : List Zscii) (s : State) : State := cs.foldl (fun t c => emit c t) s

/-! ## Taking a fault (60_exceptions.md R400, R410, R411) -/

/-- Take a fault: the state before the instruction with only `status` changed, to the record of the kind, the pc and the
opcode byte. There is no handler, and no return from it (R413). -/
def takeFault (k : FaultKind) (op : Option Byte) (s : State) : State :=
  { s with status := .faulted { kind := k, pc := s.pc, opbyte := op } }

/-- End an instruction (R163): commit its working copy, or take its fault in the state before it. -/
def finish (op : Byte) (s : State) : Except FaultKind State → Host.Outcome State Fault Refusal
  | .ok t => .next t
  | .error k => .next (takeFault k (some op) s)

/-! ## The program counter (40_decode.md R158 to R161) -/

/-- The default advance past instruction `i` (R158); `t` is a working copy, whose pc is still the instruction's. -/
def advance (i : Instr) (t : State) : State := { t with pc := t.pc + i.size }

/-- `pc <- Target(t)` (R161). -/
def jumpTo (target : Int) (s : State) : Except FaultKind State :=
  if target < 0 then .error (.memory (.outOfBounds target)) else .ok { s with pc := target.toNat }

/-! ## Calls and returns (43_calls_stack.md R273 to R279, 70_reset_and_hazards.md R445) -/

/-- The synthetic root frame (R445). -/
def rootFrame : Frame := { returnPc := none, storeVar := none, locals := [], argCount := 0, stackBase := 0 }

/-- The frames, the root frame first, as the spec lists them (R26). -/
def State.frames (s : State) : List Frame := (s.frame :: s.callers).reverse

/-- The state after frame removal: the caller's frame is current, the stack is cut back to its length at entry (R279), and
execution resumes at `ra` (R277). -/
def State.popFrame (s : State) (caller : Frame) (rest : List Frame) (ra : Nat) : State :=
  { s with frame := caller, callers := rest, stack := s.stack.drop (s.stack.length - s.frame.stackBase), pc := ra }

/-- `Return(v)` (R277, R278): a return from the root frame halts, with pc left at the instruction. A frame other than the
root always has a return address (R26); one without is taken as the root (log 9). -/
def returnValue (v : Word) (s : State) : Except FaultKind State :=
  match s.callers, s.frame.returnPc with
  | caller :: rest, some ra =>
    match s.frame.storeVar with
    | some n => writeVar n v (s.popFrame caller rest ra)
    | none => .ok (s.popFrame caller rest ra)
  | _, _ => .ok { s with status := .halted }

/-- The header's default values of `n` locals, from address `a` (R273). -/
def defaultLocals (s : State) : Nat → Nat → Except FaultKind (List Word)
  | 0, _ => .ok []
  | n + 1, a => do
    let v ← readWord a s
    let vs ← defaultLocals s n (a + 2)
    .ok (v :: vs)

/-- Arguments over defaults; arguments beyond the declared count are dropped (R274). -/
def overlay : List Word → List Word → List Word
  | _, [] => []
  | [], d :: ds => d :: ds
  | a :: args, _ :: ds => a :: overlay args ds

/-- `CallRoutine(P, args, store_var, return_pc)` (R274); `op` is the opcode byte the fault records. -/
def callRoutine (op : Byte) (p : Word) (args : List Word) (storeVar : Option Byte) (returnPc : Nat) (s : State) :
    Except FaultKind State := do
  let ra := 2 * p.toNat
  let n ← readByte ra s
  if n.toNat > 15 then .error (.decode (.badRoutineHeader s.pc op))
  else do
    let defaults ← defaultLocals s n.toNat (ra + 1)
    if s.params.maxCallDepth ≤ s.callers.length + 1 then .error (.stack .stackOverflow)
    else
      .ok
        { s with
          callers := s.frame :: s.callers
          frame :=
            { returnPc := some returnPc, storeVar := storeVar, locals := overlay args defaults, argCount := args.length,
              stackBase := s.stack.length }
          pc := ra + 1 + 2 * n.toNat }

/-! ## Store and branch (40_decode.md R157 to R160) -/

/-- `StoreResult(v)`, then the default advance (R157, R158). -/
def storeNext (i : Instr) (st : Byte) (v : Word) (s : State) : Except FaultKind State :=
  (writeVar st v s).map (advance i)

/-- `Branch(cond)` (R159, R160). -/
def branch (i : Instr) (br : Branch) (cond : Bool) (s : State) : Except FaultKind State :=
  if cond = br.onTrue then
    if br.offset.value = 0 then returnValue 0 s
    else if br.offset.value = 1 then returnValue 1 s
    else jumpTo ((s.pc + i.size : Nat) + br.offset.value - 2) s
  else .ok (advance i s)

/-- `StoreResult(v)`, then `Branch(cond)`. -/
def storeBranch (i : Instr) (st : Byte) (v : Word) (br : Branch) (cond : Bool) (s : State) : Except FaultKind State := do
  let t ← writeVar st v s
  branch i br cond t

end Sys2Proof.Machine
end

