-- ==== Sys2Proof/Machine/Operands.lean ====
section
/-! DEFINITION. Operand resolution (40_decode.md R150): left to right, before the instruction does anything else. -/

namespace Sys2Proof.Machine

/-- An operand's value (R150): a constant, or the variable's value; variable 0 pops. -/
def resolve (o : Operand) (s : State) : Except FaultKind (Word × State) :=
  match o with
  | .large v => .ok (v, s)
  | .small b => .ok (zextWord b, s)
  | .var n => readVar n s

/-- The operands' values, left to right (R150). -/
def resolveAll : List Operand → State → Except FaultKind (List Word × State)
  | [], s => .ok ([], s)
  | o :: os, s => do
    let (v, t) ← resolve o s
    let (vs, u) ← resolveAll os t
    .ok (v :: vs, u)

/-- Run the body of `i`, an instruction without operands, and end it (R163). -/
def with0 (i : Instr) (s : State) (body : State → Except FaultKind State) : Host.Outcome State Fault Refusal :=
  finish i.opbyte s (body s)

/-- Resolve one operand, run the body of `i` on it, and end the instruction (R163). -/
def with1 (i : Instr) (a : Operand) (s : State) (body : Word → State → Except FaultKind State) :
    Host.Outcome State Fault Refusal :=
  finish i.opbyte s do
    let (x, t) ← resolve a s
    body x t

/-- As `with1`, for two operands. -/
def with2 (i : Instr) (a b : Operand) (s : State) (body : Word → Word → State → Except FaultKind State) :
    Host.Outcome State Fault Refusal :=
  finish i.opbyte s do
    let (x, t) ← resolve a s
    let (y, u) ← resolve b t
    body x y u

/-- As `with1`, for three operands. -/
def with3 (i : Instr) (a b c : Operand) (s : State) (body : Word → Word → Word → State → Except FaultKind State) :
    Host.Outcome State Fault Refusal :=
  finish i.opbyte s do
    let (x, t) ← resolve a s
    let (y, u) ← resolve b t
    let (z, w) ← resolve c u
    body x y z w

/-- As `with1`, for one operand and a list of further ones. -/
def withMore (i : Instr) (a : Operand) (more : List Operand) (s : State)
    (body : Word → List Word → State → Except FaultKind State) : Host.Outcome State Fault Refusal :=
  finish i.opbyte s do
    let (x, t) ← resolve a s
    let (xs, u) ← resolveAll more t
    body x xs u

end Sys2Proof.Machine
end

