-- ==== Sys2Proof/Machine/Arith.lean ====
section
/-! DEFINITION. Logic, arithmetic, increment and decrement (44_arith_branch.md R307 to R316). -/

namespace Sys2Proof.Machine

/-- A 2OP instruction that stores a result of its two values. -/
def binaryStore (i : Instr) (a b : Operand) (st : Byte) (op : Word → Word → Word) (s : State) :
    Host.Outcome State Fault Refusal :=
  with2 i a b s fun x y t => storeNext i st (op x y) t

/-- As `binaryStore`, with DivideByZero for a divisor of 0 (R301). -/
def divideStore (i : Instr) (a b : Operand) (st : Byte) (op : Word → Word → Word) (s : State) :
    Host.Outcome State Fault Refusal :=
  with2 i a b s fun x y t =>
    if y = 0 then .error (.arithmetic .divideByZero) else storeNext i st (op x y) t

/-- `or` (R307). -/
def execOr (f : TwoOp) (a b : Operand) (st : Byte) (s : State) : Host.Outcome State Fault Refusal :=
  binaryStore (.or f a b st) a b st (· ||| ·) s

/-- `and` (R308). -/
def execAnd (f : TwoOp) (a b : Operand) (st : Byte) (s : State) : Host.Outcome State Fault Refusal :=
  binaryStore (.and f a b st) a b st (· &&& ·) s

/-- `not` (R309). -/
def execNot (a : Operand) (st : Byte) (s : State) : Host.Outcome State Fault Refusal :=
  with1 (.not a st) a s fun x t => storeNext (.not a st) st (x ^^^ 0xFFFF) t

/-- `add` (R310). -/
def execAdd (f : TwoOp) (a b : Operand) (st : Byte) (s : State) : Host.Outcome State Fault Refusal :=
  binaryStore (.add f a b st) a b st addWord s

/-- `sub` (R311). -/
def execSub (f : TwoOp) (a b : Operand) (st : Byte) (s : State) : Host.Outcome State Fault Refusal :=
  binaryStore (.sub f a b st) a b st subWord s

/-- `mul` (R312). -/
def execMul (f : TwoOp) (a b : Operand) (st : Byte) (s : State) : Host.Outcome State Fault Refusal :=
  binaryStore (.mul f a b st) a b st mulWord s

/-- `div` (R313). -/
def execDiv (f : TwoOp) (a b : Operand) (st : Byte) (s : State) : Host.Outcome State Fault Refusal :=
  divideStore (.div f a b st) a b st divWord s

/-- `mod` (R314). -/
def execMod (f : TwoOp) (a b : Operand) (st : Byte) (s : State) : Host.Outcome State Fault Refusal :=
  divideStore (.mod f a b st) a b st modWord s

/-- `inc` (R315). -/
def execInc (n : Operand) (s : State) : Host.Outcome State Fault Refusal :=
  with1 (.inc n) n s fun r t => (updateVar (Instr.inc n).opbyte r incWord t).map fun p => advance (.inc n) p.2

/-- `dec` (R316). -/
def execDec (n : Operand) (s : State) : Host.Outcome State Fault Refusal :=
  with1 (.dec n) n s fun r t => (updateVar (Instr.dec n).opbyte r decWord t).map fun p => advance (.dec n) p.2

end Sys2Proof.Machine
end

