-- ==== Sys2Proof/Machine/Branches.lean ====
section
/-! DEFINITION. The branch instructions and jump (44_arith_branch.md R302 to R306, R317 to R319). -/

namespace Sys2Proof.Machine

/-- A 2OP instruction that branches on a condition of its two values. -/
def binaryBranch (i : Instr) (a b : Operand) (br : Branch) (cond : Word → Word → Bool) (s : State) :
    Host.Outcome State Fault Refusal :=
  with2 i a b s fun x y t => branch i br (cond x y) t

/-- `je` (R302). -/
def execJe (f : TwoOp) (a b : Operand) (more : List Operand) (br : Branch) (s : State) : Host.Outcome State Fault Refusal :=
  withMore (.je f a b more br) a (b :: more) s fun x ys t => branch (.je f a b more br) br (condEqualAny x ys) t

/-- `jl` (R303). -/
def execJl (f : TwoOp) (a b : Operand) (br : Branch) (s : State) : Host.Outcome State Fault Refusal :=
  binaryBranch (.jl f a b br) a b br condLess s

/-- `jg` (R304). -/
def execJg (f : TwoOp) (a b : Operand) (br : Branch) (s : State) : Host.Outcome State Fault Refusal :=
  binaryBranch (.jg f a b br) a b br condGreater s

/-- `jz` (R305). -/
def execJz (a : Operand) (br : Branch) (s : State) : Host.Outcome State Fault Refusal :=
  with1 (.jz a br) a s fun x t => branch (.jz a br) br (condZero x) t

/-- `test` (R306). -/
def execTest (f : TwoOp) (bitmap flags : Operand) (br : Branch) (s : State) : Host.Outcome State Fault Refusal :=
  binaryBranch (.test f bitmap flags br) bitmap flags br condAllBits s

/-- `inc_chk` (R317): the write is made whether or not the branch is taken. -/
def execIncChk (f : TwoOp) (n limit : Operand) (br : Branch) (s : State) : Host.Outcome State Fault Refusal :=
  with2 (.incChk f n limit br) n limit s fun r y t => do
    let (x, u) ← updateVar (Instr.incChk f n limit br).opbyte r incWord t
    branch (.incChk f n limit br) br (condGreater x y) u

/-- `dec_chk` (R318). -/
def execDecChk (f : TwoOp) (n limit : Operand) (br : Branch) (s : State) : Host.Outcome State Fault Refusal :=
  with2 (.decChk f n limit br) n limit s fun r y t => do
    let (x, u) ← updateVar (Instr.decChk f n limit br).opbyte r decWord t
    branch (.decChk f n limit br) br (condLess x y) u

/-- `jump` (R319): an ordinary signed operand, not branch data. -/
def execJump (k : Operand) (s : State) : Host.Outcome State Fault Refusal :=
  with1 (.jump k) k s fun x t => jumpTo ((t.pc + (Instr.jump k).size : Nat) + s16 x - 2) t

end Sys2Proof.Machine
end

