-- ==== Sys2Proof/Machine/Calls.lean ====
section
/-! DEFINITION. Calls, returns and the evaluation stack (43_calls_stack.md R280 to R287). -/

namespace Sys2Proof.Machine

/-- `call` (R280, R276): packed address 0 stores 0 and goes on. -/
def execCall (routine : Operand) (args : List Operand) (st : Byte) (s : State) : Host.Outcome State Fault Refusal :=
  withMore (.call routine args st) routine args s fun p vs t =>
    if p = 0 then storeNext (.call routine args st) st 0 t
    else
      callRoutine (Instr.call routine args st).opbyte p vs (some st) (t.pc + (Instr.call routine args st).size) t

/-- `ret` (R281). -/
def execRet (v : Operand) (s : State) : Host.Outcome State Fault Refusal :=
  with1 (.ret v) v s fun x t => returnValue x t

/-- `rtrue` (R282). -/
def execRtrue (s : State) : Host.Outcome State Fault Refusal := with0 .rtrue s (returnValue 1)

/-- `rfalse` (R283). -/
def execRfalse (s : State) : Host.Outcome State Fault Refusal := with0 .rfalse s (returnValue 0)

/-- `ret_popped` (R284): the pop comes first, even in the root frame. -/
def execRetPopped (s : State) : Host.Outcome State Fault Refusal :=
  with0 .retPopped s fun t => do
    let (v, u) ← pop t
    returnValue v u

/-- `push` (R285). -/
def execPush (v : Operand) (s : State) : Host.Outcome State Fault Refusal :=
  with1 (.push v) v s fun x t => (push x t).map (advance (.push v))

/-- `pull` (R286): the reference is checked, the top is popped, then the variable is written in place. -/
def execPull (n : Operand) (s : State) : Host.Outcome State Fault Refusal :=
  with1 (.pull n) n s fun r t => do
    let k ← varRef (Instr.pull n).opbyte r t
    let (x, u) ← pop t
    (writeVarInPlace k x u).map (advance (.pull n))

/-- `pop` (R287). -/
def execPop (s : State) : Host.Outcome State Fault Refusal :=
  with0 .pop s fun t => (pop t).map fun p => advance .pop p.2

end Sys2Proof.Machine
end

