-- ==== Sys2Proof/Machine/ObjectTable.lean ====
section
/-! DEFINITION. The object table: layout, the property walk, validity checks and the tree-update primitives
(42_objects.md R220 to R234). Object, attribute and property numbers are naturals here. -/

namespace Sys2Proof.Machine

/-! ## Validity (R228 to R230) -/

/-- `CheckObj(o)` (R228), with the object's number. -/
def checkObj (o : Word) : Except FaultKind Nat :=
  if o.toNat = 0 ∨ o.toNat > 255 then .error (.object (.badObject o.toNat)) else .ok o.toNat

/-- `CheckAttr(n)` (R229), with the attribute's number. -/
def checkAttr (n : Word) : Except FaultKind Nat :=
  if n.toNat > 31 then .error (.object (.badAttribute n.toNat)) else .ok n.toNat

/-- `CheckProp(p)` (R230), with the property's number. -/
def checkProp (p : Word) : Except FaultKind Nat :=
  if p.toNat = 0 ∨ p.toNat > 31 then .error (.object (.badProperty p.toNat)) else .ok p.toNat

/-! ## Layout (R220 to R225, R227) -/

/-- `EntryAddr(o)` (R221). -/
def State.entryAddr (s : State) (o : Nat) : Nat := s.hdr.objBase.toNat + 62 + 9 * (o - 1)

/-- The link byte at offset `k` of object `o`'s entry (R221, R223). -/
def readLink (k o : Nat) (s : State) : Except FaultKind Nat := (readByte (s.entryAddr o + k) s).map BitVec.toNat

/-- Write the link byte at offset `k` of object `o`'s entry (R223). -/
def writeLink (k o v : Nat) (s : State) : Except FaultKind State := writeByte (s.entryAddr o + k) (BitVec.ofNat 8 v) s

/-- `Parent(o)` (R223). -/
def parentOf (o : Nat) (s : State) : Except FaultKind Nat := readLink 4 o s

/-- `Sibling(o)` (R223). -/
def siblingOf (o : Nat) (s : State) : Except FaultKind Nat := readLink 5 o s

/-- `Child(o)` (R223). -/
def childOf (o : Nat) (s : State) : Except FaultKind Nat := readLink 6 o s

/-- `SetParent` (R223). -/
def setParent (o v : Nat) (s : State) : Except FaultKind State := writeLink 4 o v s

/-- `SetSibling` (R223). -/
def setSibling (o v : Nat) (s : State) : Except FaultKind State := writeLink 5 o v s

/-- `SetChild` (R223). -/
def setChild (o v : Nat) (s : State) : Except FaultKind State := writeLink 6 o v s

/-- The address of the byte that holds attribute `n` of object `o` (R222). -/
def State.attrAddr (s : State) (o n : Nat) : Nat := s.entryAddr o + n / 8

/-- The mask of attribute `n` in its byte: attribute 0 is bit 7 (R222, R245). -/
def attrMask (n : Nat) : Byte := (0x80 : Byte) >>> (n % 8)

/-- `PropTable(o)` (R224). -/
def propTable (o : Nat) (s : State) : Except FaultKind Nat := (readWord (s.entryAddr o + 7) s).map BitVec.toNat

/-- `FirstProp(o)` (R224). -/
def firstProp (o : Nat) (s : State) : Except FaultKind Nat := do
  let t ← propTable o s
  let n ← readByte t s
  .ok (t + 1 + 2 * n.toNat)

/-- The number in a size byte (R225). -/
def sizeNum (sb : Byte) : Nat := (sb.extractLsb' 0 5).toNat

/-- The length in a size byte (R225). -/
def sizeLen (sb : Byte) : Nat := (sb.extractLsb' 5 3).toNat + 1

/-- `DefaultProp(p)` (R227). -/
def defaultProp (p : Nat) (s : State) : Except FaultKind Word := readWord (s.hdr.objBase.toNat + 2 * (p - 1)) s

/-! ## The property walk (R226) -/

/-- A property found: its data address and length. -/
structure PropAt where
  addr : Nat
  len : Nat
  deriving DecidableEq, Repr

/-- The loop of `FindProp` from the size byte at `a`. The first argument bounds the walk; each turn reads at a higher
address, so with `len + 1` of it the walk ends at the image end first (R234, log 18). -/
def findPropFrom (p : Nat) (s : State) : Nat → Nat → Except FaultKind (Option PropAt)
  | 0, a => .error (.memory (.outOfBounds a))
  | fuel + 1, a => do
    let sb ← readByte a s
    if sb = 0 then .ok none
    else if sizeNum sb = p then .ok (some ⟨a + 1, sizeLen sb⟩)
    else if sizeNum sb < p then .ok none
    else findPropFrom p s fuel (a + 1 + sizeLen sb)

/-- `FindProp(o, p)` (R226). -/
def findProp (o p : Nat) (s : State) : Except FaultKind (Option PropAt) := do
  let a ← firstProp o s
  findPropFrom p s (s.len + 1) a

/-! ## Tree updates (R232, R233) -/

/-- The object of the chain from `x` whose sibling is `o`; CorruptTree at the chain's end or after 255 links (R232). -/
def findBefore (o : Nat) (s : State) : Nat → Nat → Except FaultKind Nat
  | 0, _ => .error (.object (.corruptTree o))
  | fuel + 1, x =>
    if x = 0 then .error (.object (.corruptTree o))
    else do
      let nx ← siblingOf x s
      if nx = o then .ok x else findBefore o s fuel nx

/-- Take `o` out of the sibling chain of its parent `p` (R232). -/
def unlink (o p : Nat) (s : State) : Except FaultKind State := do
  let c ← childOf p s
  if c = o then do
    let sib ← siblingOf o s
    setChild p sib s
  else do
    let x ← findBefore o s 255 c
    let sib ← siblingOf o s
    setSibling x sib s

/-- `Detach(o)` (R232): nothing if `o` has no parent; `o` keeps its own children. -/
def detach (o : Nat) (s : State) : Except FaultKind State := do
  let p ← parentOf o s
  if p = 0 then .ok s
  else do
    let t ← unlink o p s
    let u ← setParent o 0 t
    setSibling o 0 u

/-- The loop of `Descends(d, o)` at `x`: CorruptTree after 255 steps (R233). -/
def descendsFrom (d o : Nat) (s : State) : Nat → Nat → Except FaultKind Bool
  | fuel, x =>
    if x = 0 then .ok false
    else if x = o then .ok true
    else
      match fuel with
      | 0 => .error (.object (.corruptTree d))
      | fuel + 1 => do
        let px ← parentOf x s
        descendsFrom d o s fuel px

/-- `Descends(d, o)`: whether `o` is `d` or an ancestor of `d` (R233). -/
def descends (d o : Nat) (s : State) : Except FaultKind Bool := descendsFrom d o s 255 d

/-- The tree part of `insert_obj` after its checks: detach `o`, make it the first child of `d` (R252). -/
def attach (o d : Nat) (s : State) : Except FaultKind State := do
  let t ← detach o s
  let u ← setParent o d t
  let c ← childOf d u
  let v ← setSibling o c u
  setChild d o v

end Sys2Proof.Machine
end

