-- ==== Sys2Proof/Machine/Text.lean ====
section
/-! DEFINITION. The text engine: Z-string decoding, decimal numerals and dictionary encoding (41_text.md R180 to R204). -/

namespace Sys2Proof.Machine

/-- The alphabet of the next Z-character (R181). -/
inductive Alphabet where
  | a0
  | a1
  | a2
  deriving DecidableEq, Repr

/-- The three Z-characters of a word (R180). -/
def zchars (w : Word) : List ZChar := [w.extractLsb' 10 5, w.extractLsb' 5 5, w.extractLsb' 0 5]

/-- Alphabet A2 from Z-character 7 on (R183, R186). -/
def a2Codes : List Nat :=
  [13, 48, 49, 50, 51, 52, 53, 54, 55, 56, 57, 46, 44, 33, 63, 95, 35, 39, 34, 47, 92, 45, 58, 40, 41]

/-- The ZSCII code of a Z-character 6..31 (R183; 6 of A2 is the escape and never asked for). -/
def alphabetCode : Alphabet → ZChar → Zscii
  | .a0, z => BitVec.ofNat 10 (91 + z.toNat)
  | .a1, z => BitVec.ofNat 10 (59 + z.toNat)
  | .a2, z => BitVec.ofNat 10 ((a2Codes[z.toNat - 7]?).getD 0)

/-- The abbreviation index of reference `z` (1..3) and the Z-character after it (R187). -/
def abbrevIndex (z x : ZChar) : Nat := 32 * (z.toNat - 1) + x.toNat

/-- The loop of `DecodeZString` over a string's Z-characters (R190). `expand` is the decoding of an abbreviation, and none
inside an abbreviation string (R189); `start` is the string's address. -/
def decodeChars (expand : Option (Nat → Except FaultKind (List Zscii))) (start : Nat) :
    Alphabet → List ZChar → Except FaultKind (List Zscii)
  | _, [] => .ok []
  | alpha, z :: zs =>
    if alpha = .a2 ∧ z = 6 then
      match zs with
      | hi :: lo :: rest => (decodeChars expand start .a0 rest).map ((hi ++ lo) :: ·)
      | _ => .error (.text (.orphanedEscape start))
    else if z = 0 then (decodeChars expand start .a0 zs).map (32 :: ·)
    else if z.toNat ≤ 3 then
      match expand with
      | none => .error (.text (.nestedAbbreviation start))
      | some f =>
        match zs with
        | [] => .error (.text (.truncatedAbbreviation start))
        | x :: rest => do
          let cs ← f (abbrevIndex z x)
          let ds ← decodeChars expand start .a0 rest
          .ok (cs ++ ds)
    else if z = 4 then decodeChars expand start .a1 zs
    else if z = 5 then decodeChars expand start .a2 zs
    else (decodeChars expand start .a0 zs).map (alphabetCode alpha z :: ·)

/-- The text of abbreviation `i` (R188): its entry's word address, decoded one level down. -/
def abbreviation (s : State) (i : Nat) : Except FaultKind (List Zscii) :=
  if s.len ≤ s.hdr.abbrBase.toNat + 2 * i + 1 then .error (.text (.abbrevOutOfRange i))
  else
    let a := 2 * (s.mem.getWord (s.hdr.abbrBase.toNat + 2 * i)).toNat
    if s.len ≤ a then .error (.text (.abbrevOutOfRange i))
    else do
      let ws ← s.mem.stringAt s.len a
      decodeChars none a .a0 (ws.flatMap zchars)

/-- The text of a string's words; `start` is its address (R190). -/
def decodeWords (s : State) (start : Nat) (ws : List Word) : Except FaultKind (List Zscii) :=
  decodeChars (some (abbreviation s)) start .a0 (ws.flatMap zchars)

/-- `DecodeZString(a, false)` (R190). -/
def decodeZString (s : State) (a : Nat) : Except FaultKind (List Zscii) := do
  let ws ← s.mem.stringAt s.len a
  decodeWords s a ws

/-- The ZSCII code of a decimal digit (R204). -/
def digitCode (d : Nat) : Zscii := BitVec.ofNat 10 (48 + d)

/-- The decimal digits of a natural below `10 ^ (fuel + 1)`, no leading zeros (R204). -/
def decimalOf : Nat → Nat → List Zscii
  | 0, n => [digitCode n]
  | fuel + 1, n => if n < 10 then [digitCode n] else decimalOf fuel (n / 10) ++ [digitCode (n % 10)]

/-- `DecimalDigits(v)` (R204); 16-bit values have at most five digits. -/
def decimalDigits (v : Word) : List Zscii :=
  (if s16 v < 0 then [45] else []) ++ decimalOf 4 (s16 v).natAbs

/-- The Z-character of A2, 7..31, for a code, if there is one (R195). -/
def a2Char (c : Zscii) : Option ZChar := (a2Codes.idxOf? c.toNat).map fun k => BitVec.ofNat 5 (k + 7)

/-- The Z-characters of one code (R195). -/
def encodeChar (c : Zscii) : List ZChar :=
  if 97 ≤ c.toNat ∧ c.toNat ≤ 122 then [BitVec.ofNat 5 (c.toNat - 91)]
  else if 65 ≤ c.toNat ∧ c.toNat ≤ 90 then [4, BitVec.ofNat 5 (c.toNat - 59)]
  else if c = 32 then [0]
  else
    match a2Char c with
    | some z => [5, z]
    | none => [5, 6, c.extractLsb' 5 5, c.extractLsb' 0 5]

/-- The word of three Z-characters, with its end bit (R180). -/
def packChars (last : Bool) (a b c : ZChar) : Word := BitVec.ofBool last ++ a ++ b ++ c

/-- `EncodeWord(cs)` (R195): four bytes, padded with 5 and cut to six Z-characters. -/
def encodeWord (cs : List Zscii) : List Byte :=
  match (cs.flatMap encodeChar ++ [5, 5, 5, 5, 5, 5]).take 6 with
  | [a, b, c, d, e, f] =>
    let w1 := packChars false a b c
    let w2 := packChars true d e f
    [hiByte w1, loByte w1, hiByte w2, loByte w2]
  | _ => []

end Sys2Proof.Machine
end

