-- ==== Sys2Proof/Machine/Print.lean ====
section
/-! DEFINITION. The print instructions (41_text.md R206 to R212). -/

namespace Sys2Proof.Machine

/-- Print decoded text and go on (R206, R208, R209). -/
def printNext (i : Instr) (text : Except FaultKind (List Zscii)) (t : State) : Except FaultKind State := do
  let cs ← text
  .ok (advance i (emitAll cs t))

/-- `print` (R206): the inline string starts right after the opcode byte. -/
def execPrint (text : List Word) (s : State) : Host.Outcome State Fault Refusal :=
  with0 (.print text) s fun t => printNext (.print text) (decodeWords t (t.pc + 1) text) t

/-- `print_ret` (R207). -/
def execPrintRet (text : List Word) (s : State) : Host.Outcome State Fault Refusal :=
  with0 (.printRet text) s fun t => do
    let cs ← decodeWords t (t.pc + 1) text
    returnValue 1 (emit 13 (emitAll cs t))

/-- `print_addr` (R208). -/
def execPrintAddr (a : Operand) (s : State) : Host.Outcome State Fault Refusal :=
  with1 (.printAddr a) a s fun x t => printNext (.printAddr a) (decodeZString t x.toNat) t

/-- `print_paddr` (R209). -/
def execPrintPaddr (a : Operand) (s : State) : Host.Outcome State Fault Refusal :=
  with1 (.printPaddr a) a s fun x t => printNext (.printPaddr a) (decodeZString t (2 * x.toNat)) t

/-- `new_line` (R210). -/
def execNewLine (s : State) : Host.Outcome State Fault Refusal :=
  with0 .newLine s fun t => .ok (advance .newLine (emit 13 t))

/-- `print_char` (R211). -/
def execPrintChar (a : Operand) (s : State) : Host.Outcome State Fault Refusal :=
  with1 (.printChar a) a s fun x t =>
    if x.toNat > 1023 then .error (.text (.badCharacter x.toNat))
    else .ok (advance (.printChar a) (emit (x.setWidth 10) t))

/-- `print_num` (R212). -/
def execPrintNum (a : Operand) (s : State) : Host.Outcome State Fault Refusal :=
  with1 (.printNum a) a s fun x t => printNext (.printNum a) (.ok (decimalDigits x)) t

end Sys2Proof.Machine
end

