-- ==== Sys2Proof/Machine/Objects.lean ====
section
/-! DEFINITION. The object instructions (42_objects.md R240 to R254). -/

namespace Sys2Proof.Machine

/-- `get_parent` (R240). -/
def execGetParent (o : Operand) (st : Byte) (s : State) : Host.Outcome State Fault Refusal :=
  with1 (.getParent o st) o s fun x t => do
    let n ← checkObj x
    let p ← parentOf n t
    storeNext (.getParent o st) st (BitVec.ofNat 16 p) t

/-- `get_sibling` (R241): the store comes before the branch. -/
def execGetSibling (o : Operand) (st : Byte) (br : Branch) (s : State) : Host.Outcome State Fault Refusal :=
  with1 (.getSibling o st br) o s fun x t => do
    let n ← checkObj x
    let p ← siblingOf n t
    storeBranch (.getSibling o st br) st (BitVec.ofNat 16 p) br (p != 0) t

/-- `get_child` (R242). -/
def execGetChild (o : Operand) (st : Byte) (br : Branch) (s : State) : Host.Outcome State Fault Refusal :=
  with1 (.getChild o st br) o s fun x t => do
    let n ← checkObj x
    let p ← childOf n t
    storeBranch (.getChild o st br) st (BitVec.ofNat 16 p) br (p != 0) t

/-- `jin` (R243): the second operand may be 0. -/
def execJin (f : TwoOp) (a b : Operand) (br : Branch) (s : State) : Host.Outcome State Fault Refusal :=
  with2 (.jin f a b br) a b s fun x y t => do
    let n ← checkObj x
    if y.toNat > 255 then .error (.object (.badObject y.toNat))
    else do
      let p ← parentOf n t
      branch (.jin f a b br) br (p == y.toNat) t

/-- `test_attr` (R244). -/
def execTestAttr (f : TwoOp) (o n : Operand) (br : Branch) (s : State) : Host.Outcome State Fault Refusal :=
  with2 (.testAttr f o n br) o n s fun x y t => do
    let x ← checkObj x
    let y ← checkAttr y
    let b ← readByte (t.attrAddr x y) t
    branch (.testAttr f o n br) br (b.getLsbD (7 - y % 8)) t

/-- `set_attr` (R245). -/
def execSetAttr (f : TwoOp) (o n : Operand) (s : State) : Host.Outcome State Fault Refusal :=
  with2 (.setAttr f o n) o n s fun x y t => do
    let x ← checkObj x
    let y ← checkAttr y
    let b ← readByte (t.attrAddr x y) t
    (writeByte (t.attrAddr x y) (b ||| attrMask y) t).map (advance (.setAttr f o n))

/-- `clear_attr` (R246). -/
def execClearAttr (f : TwoOp) (o n : Operand) (s : State) : Host.Outcome State Fault Refusal :=
  with2 (.clearAttr f o n) o n s fun x y t => do
    let x ← checkObj x
    let y ← checkAttr y
    let b ← readByte (t.attrAddr x y) t
    (writeByte (t.attrAddr x y) (b &&& ~~~ attrMask y) t).map (advance (.clearAttr f o n))

/-- The value `get_prop` stores for object `o` and property `p` (R247). -/
def propValue (o p : Nat) (t : State) : Except FaultKind Word := do
  match ← findProp o p t with
  | none => defaultProp p t
  | some r =>
    if r.len = 1 then (readByte r.addr t).map zextWord
    else if r.len = 2 then readWord r.addr t
    else .error (.object (.propertyTooLong o p))

/-- `get_prop` (R247). -/
def execGetProp (f : TwoOp) (o p : Operand) (st : Byte) (s : State) : Host.Outcome State Fault Refusal :=
  with2 (.getProp f o p st) o p s fun x y t => do
    let x ← checkObj x
    let y ← checkProp y
    let v ← propValue x y t
    storeNext (.getProp f o p st) st v t

/-- What storing the natural address `a` in variable `st` leaves there: the address itself where it fits 16 bits. Above
that a global gets its low 16 bits, those `MemWrite(·, 2, ·)` writes (00_scope.md R12, 40_decode.md R153); for the stack
and the locals the spec states no value, and it is free (R11, R248; log 6). -/
def addressValue (st : Byte) (a : Nat) : Word :=
  if a < 0x10000 ∨ 16 ≤ st.toNat then BitVec.ofNat 16 a else Config.wideAddress a

/-- `get_prop_addr` (R248): 0 for an absent property. -/
def execGetPropAddr (f : TwoOp) (o p : Operand) (st : Byte) (s : State) : Host.Outcome State Fault Refusal :=
  with2 (.getPropAddr f o p st) o p s fun x y t => do
    let x ← checkObj x
    let y ← checkProp y
    match ← findProp x y t with
    | none => storeNext (.getPropAddr f o p st) st 0 t
    | some r => storeNext (.getPropAddr f o p st) st (addressValue st r.addr) t

/-- `get_prop_len` (R249): 0 for address 0. -/
def execGetPropLen (a : Operand) (st : Byte) (s : State) : Host.Outcome State Fault Refusal :=
  with1 (.getPropLen a st) a s fun x t =>
    if x = 0 then storeNext (.getPropLen a st) st 0 t
    else do
      let sb ← readByte (x.toNat - 1) t
      storeNext (.getPropLen a st) st (BitVec.ofNat 16 (sizeLen sb)) t

/-- The number `get_next_prop` stores for object `o` and property `p`, 0 meaning the first (R250). -/
def nextProp (o p : Nat) (t : State) : Except FaultKind Nat := do
  if p = 0 then do
    let a ← firstProp o t
    (readByte a t).map sizeNum
  else
    match ← findProp o p t with
    | none => .error (.object (.missingProperty o p))
    | some r => (readByte (r.addr + r.len) t).map sizeNum

/-- `get_next_prop` (R250). -/
def execGetNextProp (f : TwoOp) (o p : Operand) (st : Byte) (s : State) : Host.Outcome State Fault Refusal :=
  with2 (.getNextProp f o p st) o p s fun x y t => do
    let x ← checkObj x
    if y.toNat > 31 then .error (.object (.badProperty y.toNat))
    else do
      let q ← nextProp x y.toNat t
      storeNext (.getNextProp f o p st) st (BitVec.ofNat 16 q) t

/-- The memory part of `put_prop` (R251): a 1-byte property keeps the value's low byte. -/
def setProp (o p : Nat) (v : Word) (t : State) : Except FaultKind State := do
  match ← findProp o p t with
  | none => .error (.object (.missingProperty o p))
  | some r =>
    if r.len = 1 then writeByte r.addr (loByte v) t
    else if r.len = 2 then writeWord r.addr v t
    else .error (.object (.propertyTooLong o p))

/-- `put_prop` (R251). -/
def execPutProp (o p v : Operand) (s : State) : Host.Outcome State Fault Refusal :=
  with3 (.putProp o p v) o p v s fun x y z t => do
    let x ← checkObj x
    let y ← checkProp y
    let u ← setProp x y z t
    .ok (advance (.putProp o p v) u)

/-- `insert_obj` (R252): TreeCycle before any write. -/
def execInsertObj (f : TwoOp) (o d : Operand) (s : State) : Host.Outcome State Fault Refusal :=
  with2 (.insertObj f o d) o d s fun x y t => do
    let x ← checkObj x
    let y ← checkObj y
    if ← descends y x t then .error (.object (.treeCycle x y))
    else do
      let u ← attach x y t
      .ok (advance (.insertObj f o d) u)

/-- `remove_obj` (R253). -/
def execRemoveObj (o : Operand) (s : State) : Host.Outcome State Fault Refusal :=
  with1 (.removeObj o) o s fun x t => do
    let x ← checkObj x
    let u ← detach x t
    .ok (advance (.removeObj o) u)

/-- The text of object `o`'s short name (R254): nothing for a length byte of 0, else the Z-string to its end bit. -/
def nameText (o : Nat) (t : State) : Except FaultKind (List Zscii) := do
  let a ← propTable o t
  let n ← readByte a t
  if n = 0 then .ok [] else decodeZString t (a + 1)

/-- `print_obj` (R254). -/
def execPrintObj (o : Operand) (s : State) : Host.Outcome State Fault Refusal :=
  with1 (.printObj o) o s fun x t => do
    let x ← checkObj x
    printNext (.printObj o) (nameText x t) t

end Sys2Proof.Machine
end

