-- ==== Sys2Proof/Machine/System.lean ====
section
/-! DEFINITION. Line input's instruction, random numbers, the system instructions and the non-goals
(46_io_system.md R350, R351, R360 to R376). -/

namespace Sys2Proof.Machine

/-- `sread` phase 1 (R351): the pending read is recorded, and pc stays at the instruction. -/
def execSread (text parse : Operand) (s : State) : Host.Outcome State Fault Refusal :=
  with2 (.sread text parse) text parse s fun x y t =>
    .ok
      { t with
        status :=
          .awaitingInput { textAddr := x, parseAddr := y, atPc := t.pc, next := t.pc + (Instr.sread text parse).size } }

/-- `RNG_NEXT(rng, n)`: a number in `1..n` and the next generator state (R360). The number is free within its bound
(log 5). -/
def rngNext (g : RngState) (n : Nat) : Nat × RngState := ((Config.rngNextRaw g n).1 % n + 1, (Config.rngNextRaw g n).2)

/-- The value `random` stores for the range `n = s16(a)`, and the next generator state (R361). -/
def randomResult (g : RngState) (n : Int) : Word × RngState :=
  if n > 0 then (BitVec.ofNat 16 (rngNext g n.toNat).1, (rngNext g n.toNat).2)
  else if n < 0 then (0, Config.rngSeed g (-n).toNat)
  else (0, Config.rngEntropy g)

/-- `random` (R361). -/
def execRandom (a : Operand) (st : Byte) (s : State) : Host.Outcome State Fault Refusal :=
  with1 (.random a st) a s fun x t =>
    storeNext (.random a st) st (randomResult t.rng (s16 x)).1 { t with rng := (randomResult t.rng (s16 x)).2 }

/-- `save` (R362): the block has no save medium, the branch is that of a failed save. -/
def execSave (br : Branch) (s : State) : Host.Outcome State Fault Refusal := with0 (.save br) s (branch (.save br) br false)

/-- `restore` (R363). -/
def execRestore (br : Branch) (s : State) : Host.Outcome State Fault Refusal :=
  with0 (.restore br) s (branch (.restore br) br false)

/-- The address of flags2's low byte (R364). -/
def flags2Low : Nat := 0x11

/-- A byte with its bits 1..0 taken from `keep` and the others from `b` (R364). -/
def keepLowBits (keep b : Byte) : Byte := (b &&& 0xFC) ||| (keep &&& 0x03)

/-- `restart` (R364): memory from the loaded image with flags2 bits 0 and 1 kept, empty stacks, pc at initial_pc. -/
def execRestart (s : State) : Host.Outcome State Fault Refusal :=
  with0 .restart s fun t =>
    .ok
      { t with
        mem := t.rom.set flags2Low (keepLowBits (t.mem.get flags2Low) (t.rom.get flags2Low))
        stack := []
        frame := rootFrame
        callers := []
        pc := t.hdr.initialPc.toNat }

/-- `quit` (R365): pc stays at the instruction. -/
def execQuit (s : State) : Host.Outcome State Fault Refusal := with0 .quit s fun t => .ok { t with status := .halted }

/-- The sum of the bytes of `m` at 0x40 up to, not including, `n` (R366). -/
def imageSum (m : Memory) (n : Nat) : Nat := ((List.range' 0x40 (n - 0x40)).map fun a => (m.get a).toNat).sum

/-- `verify`'s condition, over the image as loaded (R366). -/
def checksumOk (s : State) : Bool :=
  imageSum s.rom (min (2 * s.hdr.fileLen.toNat) s.len) % 0x10000 == s.hdr.checksum.toNat

/-- `verify` (R366). -/
def execVerify (br : Branch) (s : State) : Host.Outcome State Fault Refusal :=
  with0 (.verify br) s fun t => branch (.verify br) br (checksumOk t) t

/-- `nop` (R367). -/
def execNop (s : State) : Host.Outcome State Fault Refusal := with0 .nop s fun t => .ok (advance .nop t)

/-! ## Non-goals (R370): under either policy no output and no memory write -/

/-- The rule of the non-goal instructions after their operands are resolved (R370). -/
def nongoal (i : Instr) (t : State) : Except FaultKind State :=
  match t.params.nongoal with
  | .fault => .error (.decode (.unimplemented t.pc i.opbyte))
  | .nop => .ok (advance i t)

/-- `show_status` (R371). -/
def execShowStatus (s : State) : Host.Outcome State Fault Refusal := with0 .showStatus s (nongoal .showStatus)

/-- `split_window` (R372). -/
def execSplitWindow (lines : Operand) (s : State) : Host.Outcome State Fault Refusal :=
  with1 (.splitWindow lines) lines s fun _ t => nongoal (.splitWindow lines) t

/-- `set_window` (R373). -/
def execSetWindow (window : Operand) (s : State) : Host.Outcome State Fault Refusal :=
  with1 (.setWindow window) window s fun _ t => nongoal (.setWindow window) t

/-- `output_stream` (R374). -/
def execOutputStream (stream : Operand) (table : Option Operand) (s : State) : Host.Outcome State Fault Refusal :=
  withMore (.outputStream stream table) stream table.toList s fun _ _ t => nongoal (.outputStream stream table) t

/-- `input_stream` (R375). -/
def execInputStream (stream : Operand) (s : State) : Host.Outcome State Fault Refusal :=
  with1 (.inputStream stream) stream s fun _ t => nongoal (.inputStream stream) t

/-- `sound_effect` (R376). -/
def execSoundEffect (number : Operand) (more : List Operand) (s : State) : Host.Outcome State Fault Refusal :=
  withMore (.soundEffect number more) number more s fun _ _ t => nongoal (.soundEffect number more) t

end Sys2Proof.Machine
end

