-- ==== Sys2Proof/Machine/Variables.lean ====
section
/-! DEFINITION. Variable moves, memory loads and memory stores (45_memory_vars.md R330 to R335). -/

namespace Sys2Proof.Machine

/-- `store` (R330). -/
def execStore (f : TwoOp) (n v : Operand) (s : State) : Host.Outcome State Fault Refusal :=
  with2 (.store f n v) n v s fun r x t => do
    let k ← varRef (Instr.store f n v).opbyte r t
    (writeVarInPlace k x t).map (advance (.store f n v))

/-- `load` (R331). -/
def execLoad (n : Operand) (st : Byte) (s : State) : Host.Outcome State Fault Refusal :=
  with1 (.load n st) n s fun r t => do
    let k ← varRef (Instr.load n st).opbyte r t
    let x ← readVarInPlace k t
    storeNext (.load n st) st x t

/-- `loadw` (R332). -/
def execLoadw (f : TwoOp) (array idx : Operand) (st : Byte) (s : State) : Host.Outcome State Fault Refusal :=
  with2 (.loadw f array idx st) array idx s fun x y t => do
    let v ← readWord (arrayAddr 2 x y) t
    storeNext (.loadw f array idx st) st v t

/-- `loadb` (R333). -/
def execLoadb (f : TwoOp) (array idx : Operand) (st : Byte) (s : State) : Host.Outcome State Fault Refusal :=
  with2 (.loadb f array idx st) array idx s fun x y t => do
    let b ← readByte (arrayAddr 1 x y) t
    storeNext (.loadb f array idx st) st (zextWord b) t

/-- `storew` (R334). -/
def execStorew (array idx v : Operand) (s : State) : Host.Outcome State Fault Refusal :=
  with3 (.storew array idx v) array idx v s fun x y z t =>
    (writeWord (arrayAddr 2 x y) z t).map (advance (.storew array idx v))

/-- `storeb` (R335): only the low byte of the value is stored. -/
def execStoreb (array idx v : Operand) (s : State) : Host.Outcome State Fault Refusal :=
  with3 (.storeb array idx v) array idx v s fun x y z t =>
    (writeByte (arrayAddr 1 x y) (loByte z) t).map (advance (.storeb array idx v))

end Sys2Proof.Machine
end

