-- ==== Sys2Proof/Machine/Dispatch.lean ====
section
/-! DEFINITION. Dispatch (40_decode.md R156): one arm per instruction, each its own meaning. -/

namespace Sys2Proof.Machine

def exec (i : Instr) (s : State) : Host.Outcome State Fault Refusal :=
  match i with
  | .je f a b more br => Sys2Proof.Machine.execJe f a b more br s
  | .jl f a b br => Sys2Proof.Machine.execJl f a b br s
  | .jg f a b br => Sys2Proof.Machine.execJg f a b br s
  | .decChk f n limit br => Sys2Proof.Machine.execDecChk f n limit br s
  | .incChk f n limit br => Sys2Proof.Machine.execIncChk f n limit br s
  | .jin f a b br => Sys2Proof.Machine.execJin f a b br s
  | .test f bitmap flags br => Sys2Proof.Machine.execTest f bitmap flags br s
  | .or f a b st => Sys2Proof.Machine.execOr f a b st s
  | .and f a b st => Sys2Proof.Machine.execAnd f a b st s
  | .testAttr f o n br => Sys2Proof.Machine.execTestAttr f o n br s
  | .setAttr f o n => Sys2Proof.Machine.execSetAttr f o n s
  | .clearAttr f o n => Sys2Proof.Machine.execClearAttr f o n s
  | .store f n v => Sys2Proof.Machine.execStore f n v s
  | .insertObj f o d => Sys2Proof.Machine.execInsertObj f o d s
  | .loadw f array idx st => Sys2Proof.Machine.execLoadw f array idx st s
  | .loadb f array idx st => Sys2Proof.Machine.execLoadb f array idx st s
  | .getProp f o p st => Sys2Proof.Machine.execGetProp f o p st s
  | .getPropAddr f o p st => Sys2Proof.Machine.execGetPropAddr f o p st s
  | .getNextProp f o p st => Sys2Proof.Machine.execGetNextProp f o p st s
  | .add f a b st => Sys2Proof.Machine.execAdd f a b st s
  | .sub f a b st => Sys2Proof.Machine.execSub f a b st s
  | .mul f a b st => Sys2Proof.Machine.execMul f a b st s
  | .div f a b st => Sys2Proof.Machine.execDiv f a b st s
  | .mod f a b st => Sys2Proof.Machine.execMod f a b st s
  | .jz a br => Sys2Proof.Machine.execJz a br s
  | .getSibling o st br => Sys2Proof.Machine.execGetSibling o st br s
  | .getChild o st br => Sys2Proof.Machine.execGetChild o st br s
  | .getParent o st => Sys2Proof.Machine.execGetParent o st s
  | .getPropLen a st => Sys2Proof.Machine.execGetPropLen a st s
  | .inc n => Sys2Proof.Machine.execInc n s
  | .dec n => Sys2Proof.Machine.execDec n s
  | .printAddr a => Sys2Proof.Machine.execPrintAddr a s
  | .removeObj o => Sys2Proof.Machine.execRemoveObj o s
  | .printObj o => Sys2Proof.Machine.execPrintObj o s
  | .ret v => Sys2Proof.Machine.execRet v s
  | .jump k => Sys2Proof.Machine.execJump k s
  | .printPaddr a => Sys2Proof.Machine.execPrintPaddr a s
  | .load n st => Sys2Proof.Machine.execLoad n st s
  | .not a st => Sys2Proof.Machine.execNot a st s
  | .rtrue => Sys2Proof.Machine.execRtrue s
  | .rfalse => Sys2Proof.Machine.execRfalse s
  | .print text => Sys2Proof.Machine.execPrint text s
  | .printRet text => Sys2Proof.Machine.execPrintRet text s
  | .nop => Sys2Proof.Machine.execNop s
  | .save br => Sys2Proof.Machine.execSave br s
  | .restore br => Sys2Proof.Machine.execRestore br s
  | .restart => Sys2Proof.Machine.execRestart s
  | .retPopped => Sys2Proof.Machine.execRetPopped s
  | .pop => Sys2Proof.Machine.execPop s
  | .quit => Sys2Proof.Machine.execQuit s
  | .newLine => Sys2Proof.Machine.execNewLine s
  | .showStatus => Sys2Proof.Machine.execShowStatus s
  | .verify br => Sys2Proof.Machine.execVerify br s
  | .call routine args st => Sys2Proof.Machine.execCall routine args st s
  | .storew array idx v => Sys2Proof.Machine.execStorew array idx v s
  | .storeb array idx v => Sys2Proof.Machine.execStoreb array idx v s
  | .putProp o p v => Sys2Proof.Machine.execPutProp o p v s
  | .sread text parse => Sys2Proof.Machine.execSread text parse s
  | .printChar a => Sys2Proof.Machine.execPrintChar a s
  | .printNum a => Sys2Proof.Machine.execPrintNum a s
  | .random a st => Sys2Proof.Machine.execRandom a st s
  | .push v => Sys2Proof.Machine.execPush v s
  | .pull n => Sys2Proof.Machine.execPull n s
  | .splitWindow lines => Sys2Proof.Machine.execSplitWindow lines s
  | .setWindow window => Sys2Proof.Machine.execSetWindow window s
  | .outputStream stream table => Sys2Proof.Machine.execOutputStream stream table s
  | .inputStream stream => Sys2Proof.Machine.execInputStream stream s
  | .soundEffect number more => Sys2Proof.Machine.execSoundEffect number more s

end Sys2Proof.Machine
end

