-- ==== Sys2Proof/Machine/Step.lean ====
section
/-! DEFINITION. The step (40_decode.md R163) and the placing of one instruction where it fetches. -/

namespace Sys2Proof.Machine

/-- The instruction at pc, or the decode fault (R140, R165). -/
def State.fetch (s : State) : Except FaultKind Instr := decode s.params.afterOmit s.mem s.len s.pc

/-- The opcode byte at pc, if it can be read (60_exceptions.md R400). -/
def State.opbyteAt (s : State) : Option Byte := if s.pc < s.len then some (s.mem.get s.pc) else none

/-- One step (R163). A machine that is not Running executes nothing and keeps its state (60_exceptions.md R417, log 8). -/
def step (s : State) : Host.Outcome State Fault Refusal :=
  match s.status with
  | .running =>
    match s.fetch with
    | .ok i => exec i s
    | .error k => .next (takeFault k s.opbyteAt s)
  | .awaitingInput _ => .next s
  | .halted => .next s
  | .faulted _ => .next s

/-- The state with a table word's bytes stored at pc, where the next step fetches, and the image long enough to hold them.
It stands for the load of an image that holds them there (log 10). -/
def State.withFetchWord (s : State) (nbits w : Nat) : State :=
  { s with
    mem := s.mem.place s.pc (tableBytes nbits w)
    len := max s.len (s.pc + (tableBytes nbits w).length) }

end Sys2Proof.Machine
end

