-- ==== Sys2Proof/Machine/Input.lean ====
section
/-! DEFINITION. Line input's second phase, the host operation `provide_input` (46_io_system.md R352 to R358). -/

namespace Sys2Proof.Machine

/-- Read `n` consecutive bytes. -/
def readBytes (s : State) : Nat → Nat → Except FaultKind (List Byte)
  | 0, _ => .ok []
  | n + 1, a => do
    let b ← readByte a s
    let bs ← readBytes s n (a + 1)
    .ok (b :: bs)

/-- Write consecutive bytes. -/
def writeBytes : Nat → List Byte → State → Except FaultKind State
  | _, [], s => .ok s
  | a, b :: bs, s => do
    let t ← writeByte a b s
    writeBytes (a + 1) bs t

/-- A code the host may supply (R358). -/
def lineCodeOk (c : Nat) : Bool := decide (32 ≤ c) && decide (c ≤ 126)

/-- Lower-casing of an input code (R352). -/
def lowerCode (c : Nat) : Byte := BitVec.ofNat 8 (if 65 ≤ c ∧ c ≤ 90 then c + 32 else c)

/-- `StoreText(a, cs)` (R353): the codes kept, and the state with them and a 0 terminator written from `a + 1`. -/
def storeText (a : Nat) (cs : List Byte) (s : State) : Except FaultKind (List Byte × State) := do
  let mx ← readByte a s
  let kept := cs.take (mx.toNat - 1)
  let t ← writeBytes (a + 1) (kept ++ [0]) s
  .ok (kept, t)

/-- A word of the input line: the index of its first code, and its codes (R354). -/
structure Token where
  start : Nat
  codes : List Byte
  deriving DecidableEq, Repr

/-- The token of the codes collected before index `i`, if there are any. -/
def flushToken (i : Nat) (cur : List Byte) : List Token := if cur = [] then [] else [⟨i - cur.length, cur⟩]

/-- `Tokenize`'s splitting (R354) of the codes from index `i` on; `cur` holds the codes of the word being collected. -/
def tokens (seps : List Byte) : Nat → List Byte → List Byte → List Token
  | i, cur, [] => flushToken i cur
  | i, cur, c :: cs =>
    if c = 32 then flushToken i cur ++ tokens seps (i + 1) [] cs
    else if seps.contains c then flushToken i cur ++ ⟨i, [c]⟩ :: tokens seps (i + 1) [] cs
    else tokens seps (i + 1) (cur ++ [c]) cs

/-- The separator codes of the dictionary (R356). -/
def separators (s : State) : Except FaultKind (List Byte) := do
  let n ← readByte s.hdr.dictBase.toNat s
  readBytes s n.toNat (s.hdr.dictBase.toNat + 1)

/-- The address of the first of `n` entries from `a` on whose first four bytes are `e`, or 0 (R357). -/
def lookupFrom (s : State) (e : List Byte) (elen : Nat) : Nat → Nat → Except FaultKind Nat
  | 0, _ => .ok 0
  | n + 1, a => do
    let bs ← readBytes s 4 a
    if bs = e then .ok a else lookupFrom s e elen n (a + elen)

/-- `Lookup(word)` (R356, R357). -/
def lookup (s : State) (word : List Byte) : Except FaultKind Nat := do
  let d := s.hdr.dictBase.toNat
  let n ← readByte d s
  let elen ← readByte (d + n.toNat + 1) s
  let count ← readWord (d + n.toNat + 2) s
  lookupFrom s (encodeWord (word.map (·.setWidth 10))) elen.toNat (s16 count).natAbs (d + n.toNat + 4)

/-- Write the parse-buffer entries of the words from address `a` on (R355); an entry keeps the low 16 bits of its dictionary
address (00_scope.md R12; log 12). -/
def writeTokens : Nat → List Token → State → Except FaultKind State
  | _, [], s => .ok s
  | a, w :: ws, s => do
    let e ← lookup s w.codes
    let t ← writeWord a (BitVec.ofNat 16 e) s
    let u ← writeByte (a + 2) (BitVec.ofNat 8 w.codes.length) t
    let v ← writeByte (a + 3) (BitVec.ofNat 8 (w.start + 1)) u
    writeTokens (a + 4) ws v

/-- `Tokenize(a, p)` of the stored codes (R354, R355). -/
def tokenize (p : Nat) (codes : List Byte) (s : State) : Except FaultKind State := do
  let seps ← separators s
  let pm ← readByte p s
  let kept := (tokens seps 0 [] codes).take pm.toNat
  let t ← writeByte (p + 1) (BitVec.ofNat 8 kept.length) s
  writeTokens (p + 2) kept t

/-- What a host operation answers (R352, 60_exceptions.md R423). -/
inductive Reply where
  | accepted
  | refused
  deriving DecidableEq, Repr

/-- Phase 2 of `sread` on a working copy (R352). -/
def completeRead (r : PendingRead) (line : List Nat) (s : State) : Except FaultKind State := do
  let (kept, t) ← storeText r.textAddr.toNat (line.map lowerCode) s
  let u ← tokenize r.parseAddr.toNat kept t
  .ok { u with pc := r.next, status := .running }

/-- `provide_input(line)` (R352): a fault leaves everything but `status` as it was and records the sread. -/
def provideInput (line : List Nat) (s : State) : Reply × State :=
  match s.status with
  | .awaitingInput r =>
    if line.all lineCodeOk then
      match completeRead r line s with
      | .ok t => (.accepted, t)
      | .error k => (.accepted, { s with status := .faulted { kind := k, pc := r.atPc, opbyte := some 0xE4 } })
    else (.refused, s)
  | .running => (.refused, s)
  | .halted => (.refused, s)
  | .faulted _ => (.refused, s)

end Sys2Proof.Machine
end

