-- ==== Sys2Proof/Machine/Load.lean ====
section
/-! DEFINITION. Load (70_reset_and_hazards.md R440 to R447). -/

namespace Sys2Proof.Machine

/-- The header fields of an image's bytes (10_state.md R23). -/
def headerOf (m : Memory) : Header where
  version := m.get 0x00
  flags1 := m.get 0x01
  release := m.getWord 0x02
  highBase := m.getWord 0x04
  initialPc := m.getWord 0x06
  dictBase := m.getWord 0x08
  objBase := m.getWord 0x0A
  globBase := m.getWord 0x0C
  staticBase := m.getWord 0x0E
  flags2 := m.getWord 0x10
  serial := m.getWord 0x12 ++ m.getWord 0x14 ++ m.getWord 0x16
  abbrBase := m.getWord 0x18
  fileLen := m.getWord 0x1A
  checksum := m.getWord 0x1C

/-- The header checks, in order (R442). -/
def checkHeader (h : Header) (len : Nat) : Except LoadFault Unit :=
  if len ≤ h.initialPc.toNat then .error (.headerInconsistent .initialPc)
  else if len ≤ h.dictBase.toNat then .error (.headerInconsistent .dictBase)
  else if len ≤ h.objBase.toNat then .error (.headerInconsistent .objBase)
  else if len ≤ h.globBase.toNat then .error (.headerInconsistent .globBase)
  else if len ≤ h.abbrBase.toNat then .error (.headerInconsistent .abbrBase)
  else if h.staticBase.toNat < 64 ∨ len < h.staticBase.toNat then .error (.headerInconsistent .staticBase)
  else .ok ()

/-- The state after load of an image of `len` bytes (R446). -/
def loaded (p : Params) (m : Memory) (len : Nat) : State where
  params := p
  len := len
  mem := m
  rom := m
  hdr := headerOf m
  pc := (headerOf m).initialPc.toNat
  stack := []
  frame := rootFrame
  callers := []
  status := .running
  rng := p.rngInit
  out := []

/-- `load(image)` (R440, R441). -/
def load (p : Params) (image : List Byte) : Except LoadFault State :=
  if image.length < 64 then .error .imageTooShort
  else
    let m := Memory.ofBytes 0 image
    if m.get 0 ≠ 3 then .error (.badVersion (m.get 0))
    else
      match checkHeader (headerOf m) image.length with
      | .error e => .error e
      | .ok () => .ok (loaded p m image.length)

end Sys2Proof.Machine
end

