-- ==== Sys2Proof/Machine/HostPorts.lean ====
section
/-! DEFINITION. The run contract and the host ports beside input (60_exceptions.md R415 to R423). -/

namespace Sys2Proof.Machine

/-- Why `run` returned (R415). -/
inductive StopReason where
  | budgetExhausted
  | awaitingInput
  | halted
  | fault (k : FaultKind)
  deriving DecidableEq, Repr

/-- `StopOf(status)` (R415); a running machine stops only because its budget is used up. -/
def stopOf : Status → StopReason
  | .running => .budgetExhausted
  | .awaitingInput _ => .awaitingInput
  | .halted => .halted
  | .faulted f => .fault f.kind

/-- `run(k)` (R415 to R417). -/
def run : Nat → State → Host.Outcome (StopReason × State) Fault Refusal
  | 0, s => .next (stopOf s.status, s)
  | k + 1, s =>
    match s.status with
    | .running =>
      match step s with
      | .next t => run k t
      | .fault r => .fault r
      | .refused r => .refused r
    | .awaitingInput _ => .next (stopOf s.status, s)
    | .halted => .next (stopOf s.status, s)
    | .faulted _ => .next (stopOf s.status, s)

/-- The host removes the first `n` codes of the output port (R420). -/
def drainOut (n : Nat) (s : State) : State := { s with out := s.out.drop n }

/-- The host sets the generator's state between runs (R421). -/
def setRng (g : RngState) (s : State) : State := { s with rng := g }

/-- A snapshot (10_state.md R36, R423). -/
structure Snapshot where
  /-- The dynamic memory. -/
  dyn : List Byte
  frame : Frame
  callers : List Frame
  stack : List Word
  pc : Nat
  status : Status
  rng : RngState
  deriving DecidableEq, Repr

/-- `take_snapshot()` (R423). -/
def takeSnapshot (s : State) : Snapshot where
  dyn := (List.range s.hdr.staticBase.toNat).map s.mem.get
  frame := s.frame
  callers := s.callers
  stack := s.stack
  pc := s.pc
  status := s.status
  rng := s.rng

/-- A frame whose parts have the shape of 10_state.md R26. -/
def Frame.ok (f : Frame) : Bool := decide (f.locals.length ≤ 15) && decide (f.argCount ≤ 3)

/-- A call stack, newest frame first: the root frame last and nowhere else a frame without return address, each stack base
at most that of the next newer frame (R26, R423). -/
def framesLinked : Frame → List Frame → Bool
  | f, [] => decide (f = rootFrame)
  | f, c :: rest => f.ok && f.returnPc.isSome && decide (c.stackBase ≤ f.stackBase) && framesLinked c rest

/-- Whether a snapshot may be installed (R423). -/
def Snapshot.fits (sn : Snapshot) (s : State) : Bool :=
  decide (sn.dyn.length = s.hdr.staticBase.toNat) && decide (sn.callers.length + 1 ≤ s.params.maxCallDepth) &&
    framesLinked sn.frame sn.callers && decide (sn.frame.stackBase ≤ sn.stack.length)

/-- `install_snapshot(sn)` (R423): `rom`, `hdr`, static memory and `out` are unchanged. -/
def installSnapshot (sn : Snapshot) (s : State) : Reply × State :=
  if sn.fits s then
    (.accepted,
      { s with
        mem := s.mem.place 0 sn.dyn
        frame := sn.frame
        callers := sn.callers
        stack := sn.stack
        pc := sn.pc
        status := sn.status
        rng := sn.rng })
  else (.refused, s)

end Sys2Proof.Machine
end

