-- ==== Sys2Proof/Safety.lean ====
section
/-! DEFINITION. The terms the claims are stated in: when a variable, an operand, a branch or a return can be carried out
and the state it leaves, as total functions of the state; the paths of the object walks; and the machine's invariant. -/

namespace Sys2Proof.Machine

/-! ## Variables (40_decode.md R152 to R155) -/

/-- There is a word above the current frame's base (43_calls_stack.md R271). -/
def hasTop (s : State) : Bool := decide (s.frame.stackBase < s.stack.length)

/-- `ReadVar(n)` does not fault (R152, R154: nor does `ReadVarInPlace(n)`). -/
def varReadable (n : Byte) (s : State) : Bool :=
  if n.toNat = 0 then hasTop s
  else if n.toNat ≤ 15 then decide (n.toNat ≤ s.frame.locals.length)
  else decide (s.globalAddr n + 1 < s.len)

/-- The value of variable `n` (10_state.md R27). -/
def varValue (n : Byte) (s : State) : Word :=
  if n.toNat = 0 then s.stack.headD 0
  else if n.toNat ≤ 15 then s.frame.locals.getD (n.toNat - 1) 0
  else s.mem.getWord (s.globalAddr n)

/-- The state after `ReadVar(n)`: variable 0 pops. -/
def afterVar (n : Byte) (s : State) : State := if n.toNat = 0 then { s with stack := s.stack.tail } else s

/-- `WriteVar(n, _)` does not fault (R153). -/
def varWritable (n : Byte) (s : State) : Bool :=
  if n.toNat = 0 then decide (s.stack.length < s.params.maxEvalStack)
  else if n.toNat ≤ 15 then decide (n.toNat ≤ s.frame.locals.length)
  else decide (s.globalAddr n + 1 < s.len) && decide (s.globalAddr n + 1 < s.hdr.staticBase.toNat)

/-- The state after `WriteVar(n, v)`: variable 0 pushes. -/
def withVar (n : Byte) (v : Word) (s : State) : State :=
  if n.toNat = 0 then { s with stack := v :: s.stack }
  else if n.toNat ≤ 15 then s.setLocal n v
  else s.setWord (s.globalAddr n) v

/-- `WriteVarInPlace(n, _)` does not fault (R155). -/
def inPlaceWritable (n : Byte) (s : State) : Bool := if n.toNat = 0 then hasTop s else varWritable n s

/-- The state after `WriteVarInPlace(n, v)`: variable 0 replaces the top. -/
def withVarInPlace (n : Byte) (v : Word) (s : State) : State :=
  if n.toNat = 0 then { s with stack := v :: s.stack.tail } else withVar n v s

/-! ## Operands (R150) -/

/-- The operand can be resolved. -/
def opReadable (o : Operand) (s : State) : Bool :=
  match o with
  | .large _ => true
  | .small _ => true
  | .var n => varReadable n s

/-- The operand's value. -/
def opValue (o : Operand) (s : State) : Word :=
  match o with
  | .large v => v
  | .small b => b.setWidth 16
  | .var n => varValue n s

/-- The state after the operand is resolved. -/
def opAfter (o : Operand) (s : State) : State :=
  match o with
  | .large _ => s
  | .small _ => s
  | .var n => afterVar n s

/-- All operands can be resolved, left to right. -/
def opsReadable : List Operand → State → Bool
  | [], _ => true
  | o :: os, s => opReadable o s && opsReadable os (opAfter o s)

/-- The operands' values, left to right. -/
def opValues : List Operand → State → List Word
  | [], _ => []
  | o :: os, s => opValue o s :: opValues os (opAfter o s)

/-- The state after the operands are resolved. -/
def opsAfter : List Operand → State → State
  | [], s => s
  | o :: os, s => opsAfter os (opAfter o s)

/-! ## Returns and branches (43_calls_stack.md R277 to R279, 40_decode.md R159 to R161) -/

/-- `Return(_)` does not fault: its store, if there is one, can be made in the caller. -/
def returnable (s : State) : Bool :=
  match s.callers, s.frame.returnPc, s.frame.storeVar with
  | caller :: rest, some ra, some n => varWritable n (s.popFrame caller rest ra)
  | _, _, _ => true

/-- The state after `Return(v)`. -/
def afterReturn (v : Word) (s : State) : State :=
  match s.callers, s.frame.returnPc with
  | caller :: rest, some ra =>
    match s.frame.storeVar with
    | some n => withVar n v (s.popFrame caller rest ra)
    | none => s.popFrame caller rest ra
  | _, _ => { s with status := .halted }

/-- The address the branch of instruction `i` names (R159). -/
def branchTarget (i : Instr) (br : Branch) (s : State) : Int := (s.pc + i.size : Nat) + br.offset.value - 2

/-- `Branch(cond)` does not fault. -/
def branchable (i : Instr) (br : Branch) (cond : Bool) (s : State) : Bool :=
  if cond = br.onTrue then
    if br.offset.value = 0 ∨ br.offset.value = 1 then returnable s else decide (0 ≤ branchTarget i br s)
  else true

/-- The state after `Branch(cond)`. -/
def afterBranch (i : Instr) (br : Branch) (cond : Bool) (s : State) : State :=
  if cond = br.onTrue then
    if br.offset.value = 0 then afterReturn 0 s
    else if br.offset.value = 1 then afterReturn 1 s
    else { s with pc := (branchTarget i br s).toNat }
  else advance i s

/-! ## Objects (42_objects.md R221, R223, R226, R232, R233) -/

/-- All of the entries of objects 1 to 255 can be read and written. -/
def objectsWritable (s : State) : Bool :=
  decide (s.hdr.objBase.toNat + 62 + 9 * 255 ≤ s.len) && decide (s.hdr.objBase.toNat + 62 + 9 * 255 ≤ s.hdr.staticBase.toNat)

/-- The link byte at offset `k` of object `o`'s entry: 4 the parent, 5 the sibling, 6 the child (R221). -/
def linkOf (k o : Nat) (s : State) : Nat := (s.mem.get (s.entryAddr o + k)).toNat

/-- `xs` are the objects from `x` on along sibling links, ending with the one whose sibling is `o`. -/
def siblingPath (s : State) (o x : Nat) : List Nat → Bool
  | [] => false
  | [y] => decide (y = x) && decide (x ≠ 0) && decide (linkOf 5 x s = o)
  | y :: ys => decide (y = x) && decide (x ≠ 0) && decide (linkOf 5 x s ≠ o) && siblingPath s o (linkOf 5 x s) ys

/-- `xs` are the objects from `x` on along parent links, up to but not including `target` (0: no parent left). -/
def parentPath (s : State) (target x : Nat) : List Nat → Bool
  | [] => decide (x = target)
  | y :: ys => decide (y = x) && decide (x ≠ 0) && decide (x ≠ target) && parentPath s target (linkOf 4 x s) ys

/-- Object `o` has no parent, or is found in its parent's chain within 255 links (R231, R232). -/
def detachable (o : Nat) (s : State) : Prop :=
  linkOf 4 o s = 0 ∨ linkOf 6 (linkOf 4 o s) s = o ∨
    ∃ xs, siblingPath s o (linkOf 6 (linkOf 4 o s) s) xs = true ∧ xs.length ≤ 255

/-- `xs` are the objects before `o` in its parent's chain (R231, R232): none if `o` has no parent or is the first child. -/
def chainBefore (o : Nat) (xs : List Nat) (s : State) : Bool :=
  if linkOf 4 o s = 0 ∨ linkOf 6 (linkOf 4 o s) s = o then xs.isEmpty
  else siblingPath s o (linkOf 6 (linkOf 4 o s) s) xs && decide (xs.length ≤ 255)

/-- The address of object `o`'s property table (R224). -/
def propTableOf (s : State) (o : Nat) : Nat := (s.mem.getWord (s.entryAddr o + 7)).toNat

/-- The table's address and name length can be read. -/
def propTableReadable (s : State) (o : Nat) : Bool :=
  decide (s.entryAddr o + 8 < s.len) && decide (propTableOf s o < s.len)

/-- The address of the first size byte (R224). -/
def propStart (s : State) (o : Nat) : Nat := propTableOf s o + 1 + 2 * (s.mem.get (propTableOf s o)).toNat

/-- Searching the property list from the size byte at `a` for `p` ends with `r` (R226): the entry's data address and
length, or none. -/
inductive PropSearch (s : State) (p : Nat) : Nat → Option (Nat × Nat) → Prop where
  | ends (a : Nat) : a < s.len → s.mem.get a = 0 → PropSearch s p a none
  | found (a : Nat) : a < s.len → s.mem.get a ≠ 0 → (s.mem.get a).toNat % 32 = p →
      PropSearch s p a (some (a + 1, (s.mem.get a).toNat / 32 + 1))
  | passed (a : Nat) : a < s.len → s.mem.get a ≠ 0 → (s.mem.get a).toNat % 32 < p → PropSearch s p a none
  | next (a : Nat) (r : Option (Nat × Nat)) : a < s.len → s.mem.get a ≠ 0 → p < (s.mem.get a).toNat % 32 →
      PropSearch s p (a + 1 + ((s.mem.get a).toNat / 32 + 1)) r → PropSearch s p a r

/-! ## The dictionary and the words of a line (46_io_system.md R354 to R356) -/

/-- The number of separator codes. -/
def sepCount (s : State) : Nat := (s.mem.get s.hdr.dictBase.toNat).toNat

/-- The separator codes. -/
def separatorsOf (s : State) : List Byte := (List.range (sepCount s)).map fun k => s.mem.get (s.hdr.dictBase.toNat + 1 + k)

/-- The length of an entry in bytes. -/
def entryLen (s : State) : Nat := (s.mem.get (s.hdr.dictBase.toNat + sepCount s + 1)).toNat

/-- The number of entries searched. -/
def entryCount (s : State) : Nat := (s.mem.getWord (s.hdr.dictBase.toNat + sepCount s + 2)).toInt.natAbs

/-- The address of entry 0. -/
def entriesAt (s : State) : Nat := s.hdr.dictBase.toNat + sepCount s + 4

/-- The address after the last byte a search can read: the header's end, or that of the last entry's four bytes. -/
def dictTop (s : State) : Nat :=
  if entryCount s = 0 then entriesAt s else entriesAt s + entryLen s * (entryCount s - 1) + 4

/-- The words of the stored codes that the parse buffer at `p` keeps. -/
def wordsKept (p : Nat) (codes : List Byte) (s : State) : List Token :=
  (tokens (separatorsOf s) 0 [] codes).take (s.mem.get p).toNat

/-! ## The invariant -/

/-- What every operation of a running machine keeps, whatever the program (10_state.md R21 to R26, R35, R38;
20_memory.md R65; 70_reset_and_hazards.md R442). -/
structure Sound (s : State) : Prop where
  /-- Memory is in canonical form. -/
  memWf : s.mem.wf
  /-- So is the loaded image. -/
  romWf : s.rom.wf
  /-- Memory lists nothing outside the image. -/
  memIn : ∀ c ∈ s.mem, c.1 < s.len
  /-- Nor does the loaded image. -/
  romIn : ∀ c ∈ s.rom, c.1 < s.len
  /-- The latched header is that of the loaded image (R23, R38). -/
  header : s.hdr = headerOf s.rom
  /-- The version is 3 (R441). -/
  version : s.hdr.version = 3
  /-- The header passes the load checks (R442). -/
  checked : checkHeader s.hdr s.len = .ok ()
  /-- Static and high memory hold the loaded bytes (R21, R65). -/
  static : ∀ a, s.hdr.staticBase.toNat ≤ a → s.mem.get a = s.rom.get a
  /-- The call stack has the shape of R26, the root frame last. -/
  linked : framesLinked s.frame s.callers = true
  /-- The stack reaches the current frame's base (R25, R26). -/
  base : s.frame.stackBase ≤ s.stack.length
  /-- No more frames than MAX_CALL_DEPTH (R26). -/
  depth : s.callers.length + 1 ≤ s.params.maxCallDepth
  /-- No more words than MAX_EVAL_STACK (R25). -/
  words : s.stack.length ≤ s.params.maxEvalStack
  /-- Output holds codes 1 to 1023 (R35). -/
  output : ∀ c ∈ s.out, c ≠ 0

/-- What holds between steps: the above, and the status's addresses are the pc's (R32, 40_decode.md R162,
60_exceptions.md R400). -/
structure Inv (s : State) : Prop where
  sound : Sound s
  /-- A pending read is that of the instruction at pc, and resumes after it. -/
  pending : ∀ r, s.status = .awaitingInput r → r.atPc = s.pc ∧ r.atPc < r.next
  /-- A fault record's pc is the pc. -/
  faultPc : ∀ f, s.status = .faulted f → f.pc = s.pc

end Sys2Proof.Machine
end

