-- ==== Sys2Proof/Certificates/Slice0/Obligations.lean ====
section
/-! DEFINITION. The statements about the machine, in the order of the spec's files. -/

open Sys2Proof Sys2Proof.Machine

/-! ## Load and reset (70_reset_and_hazards.md) -/

/-- The reset state is what load leaves for the model's blank image under the default parameters. The image, its length and
the parameters are the model's choice (logs 1 to 5). -/
def Obligations.ResetIsLoaded : Prop :=
  load Params.default
      ([3, 0, 0, 0, 0, 0, 0, 0x40] ++ List.replicate 7 0 ++ [0x40] ++ List.replicate 53 0) =
    .ok State.reset

/-- R441, R442: the load checks in order, each with its fault; an image that passes them loads. -/
def Obligations.LoadChecks : Prop :=
  ∀ (p : Params) (image : List Byte),
    let word (k : Nat) : Nat := 256 * (image.getD k 0).toNat + (image.getD (k + 1) 0).toNat
    let n := image.length
    (n < 64 → load p image = .error .imageTooShort) ∧
      (64 ≤ n → image.getD 0 0 ≠ 3 → load p image = .error (.badVersion (image.getD 0 0))) ∧
      (64 ≤ n → image.getD 0 0 = 3 →
        (n ≤ word 0x06 → load p image = .error (.headerInconsistent .initialPc)) ∧
        (word 0x06 < n → n ≤ word 0x08 → load p image = .error (.headerInconsistent .dictBase)) ∧
        (word 0x06 < n → word 0x08 < n → n ≤ word 0x0A → load p image = .error (.headerInconsistent .objBase)) ∧
        (word 0x06 < n → word 0x08 < n → word 0x0A < n → n ≤ word 0x0C →
          load p image = .error (.headerInconsistent .globBase)) ∧
        (word 0x06 < n → word 0x08 < n → word 0x0A < n → word 0x0C < n → n ≤ word 0x18 →
          load p image = .error (.headerInconsistent .abbrBase)) ∧
        (word 0x06 < n → word 0x08 < n → word 0x0A < n → word 0x0C < n → word 0x18 < n →
          (word 0x0E < 64 ∨ n < word 0x0E) → load p image = .error (.headerInconsistent .staticBase)) ∧
        (word 0x06 < n → word 0x08 < n → word 0x0A < n → word 0x0C < n → word 0x18 < n →
          64 ≤ word 0x0E → word 0x0E ≤ n → ∃ s, load p image = .ok s))

/-- R446 with R23, R443, R444, R445, R447: the state after load, field by field. -/
def Obligations.LoadedState : Prop :=
  ∀ (p : Params) (image : List Byte) (s : State), load p image = .ok s →
    let word (k : Nat) : Nat := 256 * (image.getD k 0).toNat + (image.getD (k + 1) 0).toNat
    s.len = image.length ∧ (∀ a, a < image.length → s.mem.get a = image.getD a 0) ∧ s.rom = s.mem ∧
      s.hdr.version = image.getD 0 0 ∧ s.hdr.flags1 = image.getD 1 0 ∧ s.hdr.release.toNat = word 0x02 ∧
      s.hdr.highBase.toNat = word 0x04 ∧ s.hdr.initialPc.toNat = word 0x06 ∧ s.hdr.dictBase.toNat = word 0x08 ∧
      s.hdr.objBase.toNat = word 0x0A ∧ s.hdr.globBase.toNat = word 0x0C ∧ s.hdr.staticBase.toNat = word 0x0E ∧
      s.hdr.flags2.toNat = word 0x10 ∧
      s.hdr.serial.toNat = 0x100000000 * word 0x12 + 0x10000 * word 0x14 + word 0x16 ∧
      s.hdr.abbrBase.toNat = word 0x18 ∧ s.hdr.fileLen.toNat = word 0x1A ∧ s.hdr.checksum.toNat = word 0x1C ∧
      s.pc = word 0x06 ∧ s.stack = [] ∧
      s.frame = { returnPc := none, storeVar := none, locals := [], argCount := 0, stackBase := 0 } ∧ s.callers = [] ∧
      s.status = .running ∧ s.rng = p.rngInit ∧ s.out = [] ∧ s.params = p

/-- The machine that load leaves satisfies the invariant (MAX_CALL_DEPTH is at least 1, 00_scope.md R8). -/
def Obligations.LoadedInv : Prop :=
  ∀ (p : Params) (image : List Byte) (s : State), 1 ≤ p.maxCallDepth → load p image = .ok s → Inv s

/-- The reset state satisfies the invariant. -/
def Obligations.ResetInv : Prop := Inv State.reset

/-! ## Memory (20_memory.md) -/

/-- R63 to R66, R68: byte and word accesses, in bounds and not; a write changes the bytes it names and nothing else. -/
def Obligations.MemoryAccess : Prop :=
  ∀ (a : Nat) (b : Byte) (v : Word) (s : State), s.mem.wf →
    (a < s.len → readByte a s = .ok (s.mem.get a)) ∧
      (s.len ≤ a → readByte a s = .error (.memory (.outOfBounds a))) ∧
      (a + 1 < s.len →
        ∃ w, readWord a s = .ok w ∧ w.toNat = 256 * (s.mem.get a).toNat + (s.mem.get (a + 1)).toNat) ∧
      (s.len ≤ a + 1 → readWord a s = .error (.memory (.outOfBounds a))) ∧
      (s.len ≤ a → writeByte a b s = .error (.memory (.outOfBounds a))) ∧
      (a < s.len → s.hdr.staticBase.toNat ≤ a → writeByte a b s = .error (.memory (.writeViolation a))) ∧
      (a < s.len → a < s.hdr.staticBase.toNat →
        ∃ t, writeByte a b s = .ok t ∧ t = { s with mem := t.mem } ∧ t.mem.wf ∧
          ∀ x, t.mem.get x = if x = a then b else s.mem.get x) ∧
      (s.len ≤ a + 1 → writeWord a v s = .error (.memory (.outOfBounds a))) ∧
      (a + 1 < s.len → s.hdr.staticBase.toNat ≤ a + 1 → writeWord a v s = .error (.memory (.writeViolation a))) ∧
      (a + 1 < s.len → a + 1 < s.hdr.staticBase.toNat →
        ∃ t, writeWord a v s = .ok t ∧ t = { s with mem := t.mem } ∧ t.mem.wf ∧
          ∀ x, (t.mem.get x).toNat =
            if x = a then v.toNat / 256 else if x = a + 1 then v.toNat % 256 else (s.mem.get x).toNat)

/-! ## Encoding and decoding (30_encoding.md, 40_decode.md) -/

/-- Every well-formed instruction, with every operand at every value, is decoded from its encoding, wherever it lies. -/
def Obligations.DecodeEncode : Prop :=
  ∀ (pol : AfterOmit) (m : Memory) (len pc : Nat) (i : Instr),
    i.wellFormed = true → pc + (encode i).length ≤ len →
      (∀ k, k < (encode i).length → m.get (pc + k) = (encode i).getD k 0) →
        decodeNext pol m len pc = .ok (i, pc + (encode i).length)

/-- Under the strict type-byte policy, what is decoded encodes to the very bytes it was decoded from. -/
def Obligations.EncodeDecode : Prop :=
  ∀ (m : Memory) (len pc next : Nat) (i : Instr),
    decodeNext .fault m len pc = .ok (i, next) →
      next = pc + (encode i).length ∧ ∀ k, k < (encode i).length → m.get (pc + k) = (encode i).getD k 0

/-- What is decoded is well formed, carries the opcode byte at pc, lies inside the image, and is `size` bytes long (R104,
R149). -/
def Obligations.DecodeWellFormed : Prop :=
  ∀ (pol : AfterOmit) (m : Memory) (len pc next : Nat) (i : Instr),
    decodeNext pol m len pc = .ok (i, next) →
      i.wellFormed = true ∧ i.opbyte = m.get pc ∧ next = pc + i.size ∧ next ≤ len ∧ i.size = (encode i).length

/-- Decoding depends on the instruction's own bytes only (R140). -/
def Obligations.DecodeLocal : Prop :=
  ∀ (pol : AfterOmit) (m n : Memory) (len pc next : Nat) (i : Instr),
    decodeNext pol m len pc = .ok (i, next) → (∀ a, pc ≤ a → a < next → n.get a = m.get a) →
      decodeNext pol n len pc = .ok (i, next)

/-- Words of the spec's examples decode to the instructions they stand for (95_test_vectors.md). -/
def Obligations.DecodeWords : Prop :=
  decode .ignore (Memory.ofBytes 0 [0x01, 0x05, 0x05, 0xCA]) 4 0 =
      .ok (.je .long (.small 5) (.small 5) [] ⟨true, .short 10⟩) ∧
    decode .ignore (Memory.ofBytes 0 [0xD4, 0x1F, 0x7F, 0xFF, 0x01, 0x10]) 6 0 =
      .ok (.add .variable (.large 0x7FFF) (.small 1) 0x10) ∧
    decode .ignore (Memory.ofBytes 0 [0xA1, 0x11, 0x11, 0xBF, 0xFA]) 5 0 =
      .ok (.getSibling (.var 0x11) 0x11 ⟨true, .long 0x3FFA⟩) ∧
    decode .ignore (Memory.ofBytes 0 [0xB3, 0x35, 0x51, 0xC6, 0x85]) 5 0 = .ok (.printRet [0x3551, 0xC685]) ∧
    decode .ignore (Memory.ofBytes 0 [0xE0, 0x1F, 0x03, 0x00, 0x05, 0x10]) 6 0 =
      .ok (.call (.large 0x0300) [.small 5] 0x10)

/-- R110, R142: exactly the listed opcode bytes are illegal, and an illegal byte faults with its pc and itself. -/
def Obligations.IllegalOpcodes : Prop :=
  ∀ (pol : AfterOmit) (m : Memory) (len pc : Nat), pc < len →
    ((m.get pc).toNat ∈
        [0x00, 0x20, 0x40, 0x60, 0xC0, 0x88, 0x98, 0xA8, 0xBE, 0xBF] ++ List.range' 0x19 7 ++ List.range' 0x39 7 ++
          List.range' 0x59 7 ++ List.range' 0x79 7 ++ List.range' 0xD9 7 ++ List.range' 0xEC 7 ++ List.range' 0xF6 10 ↔
      decodeNext pol m len pc = .error (.decode (.illegalOpcode pc (m.get pc))))

/-- R112, R144, R111, R148: in the variable form the operands are the type byte's fields up to the first omitted one; a
field after it that is not omitted faults under the strict policy; a count outside the row's range faults. -/
def Obligations.TypeByte : Prop :=
  ∀ (pol : AfterOmit) (m : Memory) (len pc : Nat), pc + 1 < len →
    let b := (m.get pc).toNat
    let tb := (m.get (pc + 1)).toNat
    let fields := [tb / 64, tb / 16 % 4, tb / 4 % 4, tb % 4]
    let taken := fields.takeWhile (· ≠ 3)
    let late := ∃ c ∈ fields.drop taken.length, c ≠ 3
    let range : Nat × Nat :=
      if b = 0xC1 then (2, 4) else if b < 0xE0 then (2, 2) else if b = 0xE0 ∨ b = 0xF5 then (1, 4)
      else if b = 0xE1 ∨ b = 0xE2 ∨ b = 0xE3 then (3, 3) else if b = 0xE4 then (2, 2)
      else if b = 0xF3 then (1, 2) else (1, 1)
    (0xC1 ≤ b ∧ b ≤ 0xD8 ∨ 0xE0 ≤ b ∧ b ≤ 0xEB ∨ 0xF3 ≤ b ∧ b ≤ 0xF5) →
      (pol = .fault → late → decodeNext pol m len pc = .error (.decode (.malformedTypeByte pc (m.get pc)))) ∧
      ((pol = .ignore ∨ ¬ late) → (taken.length < range.1 ∨ range.2 < taken.length) →
        decodeNext pol m len pc = .error (.decode (.operandCount pc (m.get pc)))) ∧
      (∀ i next, decodeNext pol m len pc = .ok (i, next) →
        i.parts.ops.map (fun o => o.type.code.toNat) = taken ∧ range.1 ≤ taken.length ∧ taken.length ≤ range.2)

/-- A step of a running machine runs the instruction its fetch decodes, or takes the decode fault; a machine that is not
running keeps its state (R163, 60_exceptions.md R400; the last clause is the model's choice, log 8). -/
def Obligations.StepRunsDecoded : Prop :=
  ∀ s : State,
    (∀ i, s.status = .running → decode s.params.afterOmit s.mem s.len s.pc = .ok i → step s = exec i s) ∧
      (∀ k, s.status = .running → decode s.params.afterOmit s.mem s.len s.pc = .error k →
        step s = .next (takeFault k (if s.pc < s.len then some (s.mem.get s.pc) else none) s)) ∧
      (s.status ≠ .running → step s = .next s)

/-- When the bytes at pc are the encoding of a well-formed instruction, a step of a running machine runs it. -/
def Obligations.StepRunsEncoded : Prop :=
  ∀ (s : State) (i : Instr),
    s.status = .running → i.wellFormed = true → s.pc + (encode i).length ≤ s.len →
      (∀ k, k < (encode i).length → s.mem.get (s.pc + k) = (encode i).getD k 0) → step s = exec i s

/-! ## Variables, operands, branches and returns (40_decode.md, 43_calls_stack.md) -/

/-- R152, R271: reading a variable, with its faults; the terms the claims use say when it can be read, its value and the state
after. -/
def Obligations.ReadVariable : Prop :=
  ∀ (n : Byte) (s : State),
    let a := s.hdr.globBase.toNat + 2 * (n.toNat - 16)
    (∀ v rest, n.toNat = 0 → s.stack = v :: rest → s.frame.stackBase < s.stack.length →
        readVar n s = .ok (v, { s with stack := rest })) ∧
      (n.toNat = 0 → s.stack.length ≤ s.frame.stackBase → readVar n s = .error (.stack .evalUnderflow)) ∧
      (∀ v, 1 ≤ n.toNat → n.toNat ≤ 15 → s.frame.locals[n.toNat - 1]? = some v → readVar n s = .ok (v, s)) ∧
      (1 ≤ n.toNat → n.toNat ≤ 15 → s.frame.locals.length < n.toNat →
        readVar n s = .error (.stack (.badLocal n.toNat))) ∧
      (16 ≤ n.toNat → a + 1 < s.len → readVar n s = .ok (s.mem.getWord a, s)) ∧
      (16 ≤ n.toNat → s.len ≤ a + 1 → readVar n s = .error (.memory (.outOfBounds a))) ∧
      ∀ v t, readVar n s = .ok (v, t) ↔ varReadable n s = true ∧ v = varValue n s ∧ t = afterVar n s

/-- R153, R270: writing a variable, with its faults; the terms the claims use say when it can be written and the state
after. -/
def Obligations.WriteVariable : Prop :=
  ∀ (n : Byte) (v : Word) (s : State), s.mem.wf →
    let a := s.hdr.globBase.toNat + 2 * (n.toNat - 16)
    (n.toNat = 0 → s.stack.length < s.params.maxEvalStack → writeVar n v s = .ok { s with stack := v :: s.stack }) ∧
      (n.toNat = 0 → s.params.maxEvalStack ≤ s.stack.length → writeVar n v s = .error (.stack .evalOverflow)) ∧
      (1 ≤ n.toNat → n.toNat ≤ 15 → n.toNat ≤ s.frame.locals.length →
        writeVar n v s = .ok { s with frame := { s.frame with locals := s.frame.locals.set (n.toNat - 1) v } }) ∧
      (1 ≤ n.toNat → n.toNat ≤ 15 → s.frame.locals.length < n.toNat →
        writeVar n v s = .error (.stack (.badLocal n.toNat))) ∧
      (16 ≤ n.toNat → s.len ≤ a + 1 → writeVar n v s = .error (.memory (.outOfBounds a))) ∧
      (16 ≤ n.toNat → a + 1 < s.len → s.hdr.staticBase.toNat ≤ a + 1 →
        writeVar n v s = .error (.memory (.writeViolation a))) ∧
      (16 ≤ n.toNat → a + 1 < s.len → a + 1 < s.hdr.staticBase.toNat →
        ∃ t, writeVar n v s = .ok t ∧ t = { s with mem := t.mem } ∧ t.mem.getWord a = v ∧
          ∀ x, x ≠ a → x ≠ a + 1 → t.mem.get x = s.mem.get x) ∧
      ∀ t, writeVar n v s = .ok t ↔ varWritable n s = true ∧ t = withVar n v s

/-- R154, R155, R272: the in-place accesses read and replace the top of the stack without popping or pushing; any other
variable is read and written as usual. -/
def Obligations.InPlaceAccess : Prop :=
  ∀ (n : Byte) (v : Word) (s : State),
    (∀ w rest, n.toNat = 0 → s.stack = w :: rest → s.frame.stackBase < s.stack.length →
        readVarInPlace n s = .ok w ∧ writeVarInPlace n v s = .ok { s with stack := v :: rest }) ∧
      (n.toNat = 0 → s.stack.length ≤ s.frame.stackBase →
        readVarInPlace n s = .error (.stack .evalUnderflow) ∧
          writeVarInPlace n v s = .error (.stack .evalUnderflow)) ∧
      (n.toNat ≠ 0 → writeVarInPlace n v s = writeVar n v s ∧ (∀ w t, readVar n s = .ok (w, t) → readVarInPlace n s = .ok w) ∧
        ∀ k, readVar n s = .error k → readVarInPlace n s = .error k) ∧
      (∀ w, readVarInPlace n s = .ok w ↔ varReadable n s = true ∧ w = varValue n s) ∧
      ∀ t, writeVarInPlace n v s = .ok t ↔ inPlaceWritable n s = true ∧ t = withVarInPlace n v s

/-- R150, R96, R97, R98: constants are their value, a small one zero-extended; a variable operand is the variable's value;
operands are resolved left to right, so two operands that name variable 0 pop twice, the first taking the top; the first
fault ends the resolution. -/
def Obligations.OperandValues : Prop :=
  (∀ (v : Word) (s : State), resolve (.large v) s = .ok (v, s)) ∧
    (∀ (b : Byte) (s : State), ∃ v, resolve (.small b) s = .ok (v, s) ∧ v.toNat = b.toNat) ∧
    (∀ (n : Byte) (s : State), resolve (.var n) s = readVar n s) ∧
    (∀ (x y : Word) (rest : List Word) (s : State), s.stack = x :: y :: rest → s.frame.stackBase ≤ rest.length →
      resolveAll [.var 0, .var 0] s = .ok ([x, y], { s with stack := rest })) ∧
    (∀ (o : Operand) (os : List Operand) (s : State),
      (∀ k, resolve o s = .error k → resolveAll (o :: os) s = .error k) ∧
        (∀ v t k, resolve o s = .ok (v, t) → resolveAll os t = .error k → resolveAll (o :: os) s = .error k) ∧
        (∀ v t vs u, resolve o s = .ok (v, t) → resolveAll os t = .ok (vs, u) →
          resolveAll (o :: os) s = .ok (v :: vs, u))) ∧
    ∀ (os : List Operand) (s t : State) (vs : List Word),
      resolveAll os s = .ok (vs, t) ↔ opsReadable os s = true ∧ vs = opValues os s ∧ t = opsAfter os s

/-- R160, R159, R161, R101: offsets 0 and 1 return, any other offset jumps relative to the next instruction, a condition
that selects no branch goes on. -/
def Obligations.BranchRule : Prop :=
  ∀ (i : Instr) (br : Branch) (cond : Bool) (s : State),
    let k : Int := match br.offset with
      | .short k => k.toNat
      | .long k => k.toInt
    let next := s.pc + i.size
    (cond ≠ br.onTrue → branch i br cond s = .ok { s with pc := next }) ∧
      (cond = br.onTrue → k = 0 → branch i br cond s = returnValue 0 s) ∧
      (cond = br.onTrue → k = 1 → branch i br cond s = returnValue 1 s) ∧
      (cond = br.onTrue → k ≠ 0 → k ≠ 1 → ∀ target : Nat, (next : Int) + k - 2 = target →
        branch i br cond s = .ok { s with pc := target }) ∧
      (cond = br.onTrue → k ≠ 0 → k ≠ 1 → (next : Int) + k - 2 < 0 →
        branch i br cond s = .error (.memory (.outOfBounds (next + k - 2)))) ∧
      ∀ t, branch i br cond s = .ok t ↔ branchable i br cond s = true ∧ t = afterBranch i br cond s

/-- R277, R278, R279: a return removes the frame, cuts the stack back to its length at entry, stores the value in the
caller's frame and resumes there; from the root frame it halts. The last clause, over all states, also takes a frame without
return address as the root frame, which is the model's choice (log 9). -/
def Obligations.ReturnRule : Prop :=
  ∀ (v : Word) (s : State),
    (s.callers = [] → returnValue v s = .ok { s with status := .halted }) ∧
      (∀ c rest ra below own, s.callers = c :: rest → s.frame.returnPc = some ra → s.stack = own ++ below →
        below.length = s.frame.stackBase →
          (s.frame.storeVar = none →
            returnValue v s = .ok { s with frame := c, callers := rest, stack := below, pc := ra }) ∧
          (∀ n, s.frame.storeVar = some n →
            returnValue v s = writeVar n v { s with frame := c, callers := rest, stack := below, pc := ra })) ∧
      ∀ t, returnValue v s = .ok t ↔ returnable s = true ∧ t = afterReturn v s

/-! ## Arithmetic, logic and branches (44_arith_branch.md) -/

/-- R307 to R312: `or`, `and`, `not`, `add`, `sub`, `mul` complete when their operands can be read and the store variable
written, and store the result modulo 2^16. -/
def Obligations.LogicAndArithmetic : Prop :=
  ∀ (f : TwoOp) (a b : Operand) (st : Byte) (s : State),
    let x := opValue a s
    let y := opValue b (opAfter a s)
    let u := opsAfter [a, b] s
    (opsReadable [a, b] s = true → varWritable st u = true →
        exec (.or f a b st) s = .next { withVar st (x ||| y) u with pc := s.pc + (Instr.or f a b st).size } ∧
        exec (.and f a b st) s = .next { withVar st (x &&& y) u with pc := s.pc + (Instr.and f a b st).size } ∧
        exec (.add f a b st) s = .next { withVar st (x + y) u with pc := s.pc + (Instr.add f a b st).size } ∧
        exec (.sub f a b st) s = .next { withVar st (x - y) u with pc := s.pc + (Instr.sub f a b st).size } ∧
        exec (.mul f a b st) s = .next { withVar st (x * y) u with pc := s.pc + (Instr.mul f a b st).size }) ∧
      (opReadable a s = true → varWritable st (opAfter a s) = true →
        exec (.not a st) s = .next { withVar st (~~~x) (opAfter a s) with pc := s.pc + (Instr.not a st).size }) ∧
      (Instr.or f a b st).opbyte.toNat ∈ [0x08, 0x28, 0x48, 0x68, 0xC8] ∧
      (Instr.and f a b st).opbyte.toNat ∈ [0x09, 0x29, 0x49, 0x69, 0xC9] ∧
      (Instr.add f a b st).opbyte.toNat ∈ [0x14, 0x34, 0x54, 0x74, 0xD4] ∧
      (Instr.sub f a b st).opbyte.toNat ∈ [0x15, 0x35, 0x55, 0x75, 0xD5] ∧
      (Instr.mul f a b st).opbyte.toNat ∈ [0x16, 0x36, 0x56, 0x76, 0xD6] ∧
      (Instr.not a st).opbyte.toNat ∈ [0x8F, 0x9F, 0xAF]

/-- R301, R313, R314: `div` and `mod` truncate toward zero; a divisor of 0 faults before anything is stored. -/
def Obligations.DivideAndRemainder : Prop :=
  ∀ (f : TwoOp) (a b : Operand) (st : Byte) (s : State), opsReadable [a, b] s = true →
    let x := opValue a s
    let y := opValue b (opAfter a s)
    let u := opsAfter [a, b] s
    (y ≠ 0 → varWritable st u = true →
        exec (.div f a b st) s =
            .next { withVar st (BitVec.ofInt 16 (Int.tdiv x.toInt y.toInt)) u with pc := s.pc + (Instr.div f a b st).size } ∧
          exec (.mod f a b st) s =
            .next { withVar st (BitVec.ofInt 16 (Int.tmod x.toInt y.toInt)) u with pc := s.pc + (Instr.mod f a b st).size }) ∧
      (y = 0 →
        exec (.div f a b st) s =
            .next (takeFault (.arithmetic .divideByZero) (some (Instr.div f a b st).opbyte) s) ∧
          exec (.mod f a b st) s =
            .next (takeFault (.arithmetic .divideByZero) (some (Instr.mod f a b st).opbyte) s)) ∧
      (Instr.div f a b st).opbyte.toNat ∈ [0x17, 0x37, 0x57, 0x77, 0xD7] ∧
      (Instr.mod f a b st).opbyte.toNat ∈ [0x18, 0x38, 0x58, 0x78, 0xD8]

/-- R315 to R318, R151: `inc`, `dec`, `inc_chk`, `dec_chk` add or take 1 modulo 2^16 in place, the checks then branch on a
signed comparison with the limit; a reference above 255 faults. -/
def Obligations.IncrementAndDecrement : Prop :=
  ∀ (f : TwoOp) (r limit : Operand) (br : Branch) (s : State), opReadable r s = true →
    let n := loByte (opValue r s)
    let u := opAfter r s
    let w := opsAfter [r, limit] s
    let y := opValue limit u
    ((opValue r s).toNat ≤ 255 → varReadable n u = true → inPlaceWritable n u = true →
        exec (.inc r) s = .next { withVarInPlace n (varValue n u + 1) u with pc := s.pc + (Instr.inc r).size } ∧
          exec (.dec r) s = .next { withVarInPlace n (varValue n u - 1) u with pc := s.pc + (Instr.dec r).size }) ∧
      (255 < (opValue r s).toNat →
        exec (.inc r) s = .next (takeFault (.decode (.badVariableRef s.pc (Instr.inc r).opbyte)) (some (Instr.inc r).opbyte) s) ∧
          exec (.dec r) s =
            .next (takeFault (.decode (.badVariableRef s.pc (Instr.dec r).opbyte)) (some (Instr.dec r).opbyte) s)) ∧
      (opsReadable [r, limit] s = true → (opValue r s).toNat ≤ 255 → varReadable n w = true → inPlaceWritable n w = true →
        let up := varValue n w + 1
        let down := varValue n w - 1
        (branchable (.incChk f r limit br) br (decide (y.toInt < up.toInt)) (withVarInPlace n up w) = true →
          exec (.incChk f r limit br) s =
            .next (afterBranch (.incChk f r limit br) br (decide (y.toInt < up.toInt)) (withVarInPlace n up w))) ∧
        (branchable (.decChk f r limit br) br (decide (down.toInt < y.toInt)) (withVarInPlace n down w) = true →
          exec (.decChk f r limit br) s =
            .next (afterBranch (.decChk f r limit br) br (decide (down.toInt < y.toInt)) (withVarInPlace n down w)))) ∧
      (opsReadable [r, limit] s = true → 255 < (opValue r s).toNat →
        exec (.incChk f r limit br) s =
            .next (takeFault (.decode (.badVariableRef s.pc (Instr.incChk f r limit br).opbyte))
              (some (Instr.incChk f r limit br).opbyte) s) ∧
          exec (.decChk f r limit br) s =
            .next (takeFault (.decode (.badVariableRef s.pc (Instr.decChk f r limit br).opbyte))
              (some (Instr.decChk f r limit br).opbyte) s))

/-- R302 to R306: the conditions of `je`, `jl`, `jg`, `jz` and `test`; each completes when its operands can be read and its
branch can be made. -/
def Obligations.BranchConditions : Prop :=
  ∀ (f : TwoOp) (a b : Operand) (more : List Operand) (br : Branch) (s : State),
    let x := opValue a s
    let y := opValue b (opAfter a s)
    let u := opsAfter [a, b] s
    (∀ c, opsReadable (a :: b :: more) s = true → (c = true ↔ x ∈ opValues (b :: more) (opAfter a s)) →
        branchable (.je f a b more br) br c (opsAfter (a :: b :: more) s) = true →
          exec (.je f a b more br) s = .next (afterBranch (.je f a b more br) br c (opsAfter (a :: b :: more) s))) ∧
      (∀ c, opsReadable [a, b] s = true → (c = true ↔ x.toInt < y.toInt) → branchable (.jl f a b br) br c u = true →
        exec (.jl f a b br) s = .next (afterBranch (.jl f a b br) br c u)) ∧
      (∀ c, opsReadable [a, b] s = true → (c = true ↔ y.toInt < x.toInt) → branchable (.jg f a b br) br c u = true →
        exec (.jg f a b br) s = .next (afterBranch (.jg f a b br) br c u)) ∧
      (∀ c, opReadable a s = true → (c = true ↔ x = 0) → branchable (.jz a br) br c (opAfter a s) = true →
        exec (.jz a br) s = .next (afterBranch (.jz a br) br c (opAfter a s))) ∧
      (∀ c, opsReadable [a, b] s = true → (c = true ↔ ∀ k, k < 16 → y.getLsbD k = true → x.getLsbD k = true) →
        branchable (.test f a b br) br c u = true → exec (.test f a b br) s = .next (afterBranch (.test f a b br) br c u))

/-- R319, R103: `jump` adds its signed operand to the next address less 2; 0 and 1 are ordinary offsets; a negative target
faults. -/
def Obligations.JumpTarget : Prop :=
  ∀ (k : Operand) (s : State), opReadable k s = true →
    let target : Int := (s.pc + (Instr.jump k).size : Nat) + (opValue k s).toInt - 2
    (0 ≤ target → exec (.jump k) s = .next { opAfter k s with pc := target.toNat }) ∧
      (target < 0 →
        exec (.jump k) s = .next (takeFault (.memory (.outOfBounds target)) (some (Instr.jump k).opbyte) s)) ∧
      (Instr.jump k).opbyte.toNat ∈ [0x8C, 0x9C, 0xAC]

/-! ## Loads, stores and variable moves (45_memory_vars.md) -/

/-- R330, R331, R151: `store` writes and `load` reads the variable its operand's value names, in place. -/
def Obligations.VariableMoves : Prop :=
  ∀ (f : TwoOp) (r v : Operand) (st : Byte) (s : State),
    let n := loByte (opValue r s)
    let u := opAfter r s
    let w := opsAfter [r, v] s
    (opsReadable [r, v] s = true → (opValue r s).toNat ≤ 255 → inPlaceWritable n w = true →
        exec (.store f r v) s = .next { withVarInPlace n (opValue v u) w with pc := s.pc + (Instr.store f r v).size }) ∧
      (opsReadable [r, v] s = true → 255 < (opValue r s).toNat →
        exec (.store f r v) s =
          .next (takeFault (.decode (.badVariableRef s.pc (Instr.store f r v).opbyte)) (some (Instr.store f r v).opbyte) s)) ∧
      (opReadable r s = true → (opValue r s).toNat ≤ 255 → varReadable n u = true → varWritable st u = true →
        exec (.load r st) s = .next { withVar st (varValue n u) u with pc := s.pc + (Instr.load r st).size }) ∧
      (opReadable r s = true → 255 < (opValue r s).toNat →
        exec (.load r st) s =
          .next (takeFault (.decode (.badVariableRef s.pc (Instr.load r st).opbyte)) (some (Instr.load r st).opbyte) s))

/-- R332, R333, R62: `loadw` and `loadb` read at the base plus the index modulo 0x10000; past the image end they fault. -/
def Obligations.MemoryLoads : Prop :=
  ∀ (f : TwoOp) (a i : Operand) (st : Byte) (s : State), opsReadable [a, i] s = true →
    let x := opValue a s
    let y := opValue i (opAfter a s)
    let u := opsAfter [a, i] s
    let wordAt := (x.toNat + 2 * y.toNat) % 0x10000
    let byteAt := (x.toNat + y.toNat) % 0x10000
    (wordAt + 1 < s.len → varWritable st u = true →
        ∃ v, exec (.loadw f a i st) s = .next { withVar st v u with pc := s.pc + (Instr.loadw f a i st).size } ∧
          v.toNat = 256 * (s.mem.get wordAt).toNat + (s.mem.get (wordAt + 1)).toNat) ∧
      (s.len ≤ wordAt + 1 →
        exec (.loadw f a i st) s =
          .next (takeFault (.memory (.outOfBounds wordAt)) (some (Instr.loadw f a i st).opbyte) s)) ∧
      (byteAt < s.len → varWritable st u = true →
        ∃ v, exec (.loadb f a i st) s = .next { withVar st v u with pc := s.pc + (Instr.loadb f a i st).size } ∧
          v.toNat = (s.mem.get byteAt).toNat) ∧
      (s.len ≤ byteAt →
        exec (.loadb f a i st) s =
          .next (takeFault (.memory (.outOfBounds byteAt)) (some (Instr.loadb f a i st).opbyte) s))

/-- R334, R335, R62: `storew` and `storeb` write the word, or the low byte, at the base plus the index modulo 0x10000, and
no other byte; outside the image or in static memory they fault and write nothing. -/
def Obligations.MemoryStores : Prop :=
  ∀ (a i v : Operand) (s : State), s.mem.wf → opsReadable [a, i, v] s = true →
    let x := opValue a s
    let y := opValue i (opAfter a s)
    let z := opValue v (opAfter i (opAfter a s))
    let u := opsAfter [a, i, v] s
    let wordAt := arrayAddr 2 x y
    let byteAt := arrayAddr 1 x y
    wordAt = (x.toNat + 2 * y.toNat) % 0x10000 ∧ byteAt = (x.toNat + y.toNat) % 0x10000 ∧
      (wordAt + 1 < s.len → wordAt + 1 < s.hdr.staticBase.toNat →
        ∃ t, exec (.storew a i v) s = .next t ∧ t = { u with mem := t.mem, pc := s.pc + (Instr.storew a i v).size } ∧
          ∀ k, (t.mem.get k).toNat =
            if k = wordAt then z.toNat / 256 else if k = wordAt + 1 then z.toNat % 256 else (s.mem.get k).toNat) ∧
      (s.len ≤ wordAt + 1 →
        exec (.storew a i v) s =
          .next (takeFault (.memory (.outOfBounds wordAt)) (some (Instr.storew a i v).opbyte) s)) ∧
      (wordAt + 1 < s.len → s.hdr.staticBase.toNat ≤ wordAt + 1 →
        exec (.storew a i v) s =
          .next (takeFault (.memory (.writeViolation wordAt)) (some (Instr.storew a i v).opbyte) s)) ∧
      (byteAt < s.len → byteAt < s.hdr.staticBase.toNat →
        ∃ t, exec (.storeb a i v) s = .next t ∧ t = { u with mem := t.mem, pc := s.pc + (Instr.storeb a i v).size } ∧
          ∀ k, (t.mem.get k).toNat = if k = byteAt then z.toNat % 256 else (s.mem.get k).toNat) ∧
      (s.len ≤ byteAt →
        exec (.storeb a i v) s =
          .next (takeFault (.memory (.outOfBounds byteAt)) (some (Instr.storeb a i v).opbyte) s)) ∧
      (byteAt < s.len → s.hdr.staticBase.toNat ≤ byteAt →
        exec (.storeb a i v) s =
          .next (takeFault (.memory (.writeViolation byteAt)) (some (Instr.storeb a i v).opbyte) s))

/-! ## Calls, returns and the evaluation stack (43_calls_stack.md) -/

/-- R280, R273 to R276: `call` to packed address 0 stores 0 and goes on; to any other routine it pushes a frame whose
locals are the arguments over the header's defaults, and enters after the header; a bad header and a full call stack fault,
the header first. -/
def Obligations.CallInstruction : Prop :=
  ∀ (r : Operand) (args : List Operand) (st : Byte) (s : State), opsReadable (r :: args) s = true →
    let p := opValue r s
    let vs := opValues args (opAfter r s)
    let u := opsAfter (r :: args) s
    let ra := 2 * p.toNat
    let n := (s.mem.get ra).toNat
    let i := Instr.call r args st
    (p = 0 → varWritable st u = true → exec i s = .next { withVar st 0 u with pc := s.pc + i.size }) ∧
      (p ≠ 0 → ra < s.len → 15 < n →
        exec i s = .next (takeFault (.decode (.badRoutineHeader s.pc i.opbyte)) (some i.opbyte) s)) ∧
      (p ≠ 0 → ra + 2 * n < s.len → n ≤ 15 → s.params.maxCallDepth ≤ s.callers.length + 1 →
        exec i s = .next (takeFault (.stack .stackOverflow) (some i.opbyte) s)) ∧
      (p ≠ 0 → ra + 2 * n < s.len → n ≤ 15 → s.callers.length + 1 < s.params.maxCallDepth →
        ∃ locals : List Word,
          exec i s = .next { u with
            callers := s.frame :: s.callers
            frame := { returnPc := some (s.pc + i.size), storeVar := some st, locals := locals, argCount := vs.length, stackBase := u.stack.length }
            pc := ra + 1 + 2 * n } ∧
          locals.length = n ∧
            ∀ k, k < n → locals[k]? = if k < vs.length then vs[k]? else some (s.mem.getWord (ra + 1 + 2 * k)))

/-- R281 to R284: `ret`, `rtrue`, `rfalse` and `ret_popped` return their value; `ret_popped` pops first and faults on an
empty frame stack. -/
def Obligations.ReturnInstructions : Prop :=
  ∀ (v : Operand) (s : State),
    (opReadable v s = true → returnable (opAfter v s) = true →
        exec (.ret v) s = .next (afterReturn (opValue v s) (opAfter v s))) ∧
      (returnable s = true → exec .rtrue s = .next (afterReturn 1 s) ∧ exec .rfalse s = .next (afterReturn 0 s)) ∧
      (∀ x rest, s.stack = x :: rest → s.frame.stackBase ≤ rest.length → returnable { s with stack := rest } = true →
        exec .retPopped s = .next (afterReturn x { s with stack := rest })) ∧
      (s.stack.length ≤ s.frame.stackBase →
        exec .retPopped s = .next (takeFault (.stack .evalUnderflow) (some 0xB8) s))

/-- R285 to R287: `push`, `pull` and `pop`, with their stack faults. That `pull` checks its reference before it pops, so that
a reference above 255 faults whatever the stack holds, is the model's reading (log 21). -/
def Obligations.StackInstructions : Prop :=
  ∀ (o : Operand) (s : State), opReadable o s = true →
    let u := opAfter o s
    let n := loByte (opValue o s)
    (u.stack.length < s.params.maxEvalStack →
        exec (.push o) s = .next { u with stack := opValue o s :: u.stack, pc := s.pc + (Instr.push o).size }) ∧
      (s.params.maxEvalStack ≤ u.stack.length →
        exec (.push o) s = .next (takeFault (.stack .evalOverflow) (some 0xE8) s)) ∧
      (∀ x rest, (opValue o s).toNat ≤ 255 → u.stack = x :: rest → s.frame.stackBase ≤ rest.length →
        inPlaceWritable n { u with stack := rest } = true →
          exec (.pull o) s = .next { withVarInPlace n x { u with stack := rest } with pc := s.pc + (Instr.pull o).size }) ∧
      (255 < (opValue o s).toNat →
        exec (.pull o) s = .next (takeFault (.decode (.badVariableRef s.pc 0xE9)) (some 0xE9) s)) ∧
      ((opValue o s).toNat ≤ 255 → u.stack.length ≤ s.frame.stackBase →
        exec (.pull o) s = .next (takeFault (.stack .evalUnderflow) (some 0xE9) s)) ∧
      (∀ x rest, s.stack = x :: rest → s.frame.stackBase ≤ rest.length →
        exec .pop s = .next { s with stack := rest, pc := s.pc + 1 }) ∧
      (s.stack.length ≤ s.frame.stackBase → exec .pop s = .next (takeFault (.stack .evalUnderflow) (some 0xB9) s))

/-! ## Objects (42_objects.md) -/

/-- R228 to R230: every object instruction faults on an object number 0 or above 255, an attribute above 31 and a property
number 0 or above 31, the object first. The second object of `jin` may be 0 (R243), that of `insert_obj` may not (R252). -/
def Obligations.ObjectChecks : Prop :=
  ∀ (f : TwoOp) (o n v : Operand) (st : Byte) (br : Branch) (s : State),
    let x := (opValue o s).toNat
    let y := (opValue n (opAfter o s)).toNat
    let bad (k : ObjectFault) (i : Instr) : Prop := exec i s = .next (takeFault (.object k) (some i.opbyte) s)
    (opReadable o s = true → (x = 0 ∨ 255 < x) →
        bad (.badObject x) (.getParent o st) ∧ bad (.badObject x) (.getSibling o st br) ∧
          bad (.badObject x) (.getChild o st br) ∧ bad (.badObject x) (.removeObj o) ∧ bad (.badObject x) (.printObj o)) ∧
      (opsReadable [o, n] s = true → (x = 0 ∨ 255 < x) →
        bad (.badObject x) (.jin f o n br) ∧ bad (.badObject x) (.testAttr f o n br) ∧
          bad (.badObject x) (.setAttr f o n) ∧ bad (.badObject x) (.clearAttr f o n) ∧
          bad (.badObject x) (.insertObj f o n) ∧ bad (.badObject x) (.getProp f o n st) ∧
          bad (.badObject x) (.getPropAddr f o n st) ∧ bad (.badObject x) (.getNextProp f o n st)) ∧
      (opsReadable [o, n, v] s = true → (x = 0 ∨ 255 < x) → bad (.badObject x) (.putProp o n v)) ∧
      (opsReadable [o, n] s = true → 1 ≤ x → x ≤ 255 → 31 < y →
        bad (.badAttribute y) (.testAttr f o n br) ∧ bad (.badAttribute y) (.setAttr f o n) ∧
          bad (.badAttribute y) (.clearAttr f o n) ∧ bad (.badProperty y) (.getNextProp f o n st)) ∧
      (opsReadable [o, n] s = true → 1 ≤ x → x ≤ 255 → (y = 0 ∨ 31 < y) →
        bad (.badProperty y) (.getProp f o n st) ∧ bad (.badProperty y) (.getPropAddr f o n st)) ∧
      (opsReadable [o, n, v] s = true → 1 ≤ x → x ≤ 255 → (y = 0 ∨ 31 < y) → bad (.badProperty y) (.putProp o n v)) ∧
      (opsReadable [o, n] s = true → 1 ≤ x → x ≤ 255 → 255 < y → bad (.badObject y) (.jin f o n br)) ∧
      (opsReadable [o, n] s = true → 1 ≤ x → x ≤ 255 → (y = 0 ∨ 255 < y) → bad (.badObject y) (.insertObj f o n))

/-- R240 to R243, R221, R223: `get_parent`, `get_sibling`, `get_child` store the link byte, the last two then branch on it
being an object; `jin` branches on the parent being the second operand, which may be 0. -/
def Obligations.ObjectLinks : Prop :=
  ∀ (f : TwoOp) (o b : Operand) (st : Byte) (br : Branch) (s : State), opReadable o s = true →
    let x := (opValue o s).toNat
    let u := opAfter o s
    let entry := s.hdr.objBase.toNat + 62 + 9 * (x - 1)
    let link (k : Nat) : Word := (s.mem.get (entry + k)).setWidth 16
    let y := (opValue b u).toNat
    1 ≤ x → x ≤ 255 → entry + 6 < s.len →
      (varWritable st u = true →
        exec (.getParent o st) s = .next { withVar st (link 4) u with pc := s.pc + (Instr.getParent o st).size }) ∧
      (varWritable st u = true → ∀ c, (c = true ↔ link 5 ≠ 0) →
        branchable (.getSibling o st br) br c (withVar st (link 5) u) = true →
          exec (.getSibling o st br) s = .next (afterBranch (.getSibling o st br) br c (withVar st (link 5) u))) ∧
      (varWritable st u = true → ∀ c, (c = true ↔ link 6 ≠ 0) →
        branchable (.getChild o st br) br c (withVar st (link 6) u) = true →
          exec (.getChild o st br) s = .next (afterBranch (.getChild o st br) br c (withVar st (link 6) u))) ∧
      (opReadable b u = true → y ≤ 255 → ∀ c, (c = true ↔ (link 4).toNat = y) →
        branchable (.jin f o b br) br c (opAfter b u) = true →
          exec (.jin f o b br) s = .next (afterBranch (.jin f o b br) br c (opAfter b u)))

/-- R222, R244 to R246: attribute `n` is bit `7 - n mod 8` of byte `n / 8` of the entry; `test_attr` branches on it,
`set_attr` and `clear_attr` change that bit and nothing else. -/
def Obligations.Attributes : Prop :=
  ∀ (f : TwoOp) (o n : Operand) (br : Branch) (s : State), s.mem.wf → opsReadable [o, n] s = true →
    let x := (opValue o s).toNat
    let y := (opValue n (opAfter o s)).toNat
    let u := opsAfter [o, n] s
    let a := s.hdr.objBase.toNat + 62 + 9 * (x - 1) + y / 8
    1 ≤ x → x ≤ 255 → y ≤ 31 → a < s.len →
      (∀ c, (c = true ↔ (s.mem.get a).getLsbD (7 - y % 8) = true) → branchable (.testAttr f o n br) br c u = true →
        exec (.testAttr f o n br) s = .next (afterBranch (.testAttr f o n br) br c u)) ∧
      (a < s.hdr.staticBase.toNat →
        ∃ t, exec (.setAttr f o n) s = .next t ∧ t = { u with mem := t.mem, pc := s.pc + (Instr.setAttr f o n).size } ∧
          (∀ k, k ≠ a → t.mem.get k = s.mem.get k) ∧
          ∀ k, k < 8 → (t.mem.get a).getLsbD k = (decide (k = 7 - y % 8) || (s.mem.get a).getLsbD k)) ∧
      (a < s.hdr.staticBase.toNat →
        ∃ t, exec (.clearAttr f o n) s = .next t ∧ t = { u with mem := t.mem, pc := s.pc + (Instr.clearAttr f o n).size } ∧
          (∀ k, k ≠ a → t.mem.get k = s.mem.get k) ∧
          ∀ k, k < 8 → (t.mem.get a).getLsbD k = (!decide (k = 7 - y % 8) && (s.mem.get a).getLsbD k)) ∧
      (s.hdr.staticBase.toNat ≤ a →
        exec (.setAttr f o n) s =
            .next (takeFault (.memory (.writeViolation a)) (some (Instr.setAttr f o n).opbyte) s) ∧
          exec (.clearAttr f o n) s =
            .next (takeFault (.memory (.writeViolation a)) (some (Instr.clearAttr f o n).opbyte) s))

/-- R226, R224, R225: the property walk finds exactly what a search of the list along its size bytes finds. -/
def Obligations.PropertyWalk : Prop :=
  ∀ (s : State) (o p : Nat) (r : Option (Nat × Nat)), propTableReadable s o = true →
    (findProp o p s = .ok (r.map fun x => { addr := x.1, len := x.2 }) ↔ PropSearch s p (propStart s o) r)

/-- R247 to R250, R227: `get_prop`, `get_prop_addr`, `get_next_prop` and `get_prop_len` store what the property list gives.
`get_prop_addr` of an address above 0xFFFF leaves its low 16 bits in a global (R12); on the stack and in a local the value is
free (log 6): the instruction completes with some value. -/
def Obligations.PropertyReads : Prop :=
  ∀ (f : TwoOp) (o p : Operand) (st : Byte) (r : Option (Nat × Nat)) (s : State), opsReadable [o, p] s = true →
    let x := (opValue o s).toNat
    let y := (opValue p (opAfter o s)).toNat
    let u := opsAfter [o, p] s
    let stores (i : Instr) (v : Word) : Prop := exec i s = .next { withVar st v u with pc := s.pc + i.size }
    let default := s.hdr.objBase.toNat + 2 * (y - 1)
    (varWritable st u = true → 1 ≤ x → x ≤ 255 → 1 ≤ y → y ≤ 31 → propTableReadable s x = true →
      PropSearch s y (propStart s x) r →
        (r = none → default + 1 < s.len → stores (.getProp f o p st) (s.mem.getWord default)) ∧
        (∀ a, r = some (a, 1) → a < s.len → stores (.getProp f o p st) ((s.mem.get a).setWidth 16)) ∧
        (∀ a, r = some (a, 2) → a + 1 < s.len → stores (.getProp f o p st) (s.mem.getWord a)) ∧
        (∀ a k, r = some (a, k) → 3 ≤ k →
          exec (.getProp f o p st) s =
            .next (takeFault (.object (.propertyTooLong x y)) (some (Instr.getProp f o p st).opbyte) s)) ∧
        (r = none → stores (.getPropAddr f o p st) 0) ∧
        (∀ a k, r = some (a, k) → a < 0x10000 → stores (.getPropAddr f o p st) (BitVec.ofNat 16 a)) ∧
        (∀ a k, r = some (a, k) → 16 ≤ st.toNat → stores (.getPropAddr f o p st) (BitVec.ofNat 16 a)) ∧
        (∀ a k, r = some (a, k) → ∃ v, stores (.getPropAddr f o p st) v) ∧
        (∀ a k, r = some (a, k) → a + k < s.len →
          stores (.getNextProp f o p st) (BitVec.ofNat 16 ((s.mem.get (a + k)).toNat % 32))) ∧
        (r = none →
          exec (.getNextProp f o p st) s =
            .next (takeFault (.object (.missingProperty x y)) (some (Instr.getNextProp f o p st).opbyte) s))) ∧
      (varWritable st u = true → 1 ≤ x → x ≤ 255 → y = 0 → propTableReadable s x = true → propStart s x < s.len →
        stores (.getNextProp f o p st) (BitVec.ofNat 16 ((s.mem.get (propStart s x)).toNat % 32))) ∧
      (varWritable st (opAfter o s) = true → x = 0 →
        exec (.getPropLen o st) s = .next { withVar st 0 (opAfter o s) with pc := s.pc + (Instr.getPropLen o st).size }) ∧
      (varWritable st (opAfter o s) = true → 1 ≤ x → x - 1 < s.len →
        exec (.getPropLen o st) s =
          .next { withVar st (BitVec.ofNat 16 ((s.mem.get (x - 1)).toNat / 32 + 1)) (opAfter o s) with
            pc := s.pc + (Instr.getPropLen o st).size })

/-- R251: `put_prop` writes a 1-byte property's byte or a 2-byte property's word and no other byte; an absent or longer
property faults. -/
def Obligations.PropertyWrite : Prop :=
  ∀ (o p v : Operand) (r : Option (Nat × Nat)) (s : State), s.mem.wf → opsReadable [o, p, v] s = true →
    let x := (opValue o s).toNat
    let y := (opValue p (opAfter o s)).toNat
    let z := opValue v (opAfter p (opAfter o s))
    let u := opsAfter [o, p, v] s
    let i := Instr.putProp o p v
    1 ≤ x → x ≤ 255 → 1 ≤ y → y ≤ 31 → propTableReadable s x = true → PropSearch s y (propStart s x) r →
      (∀ a, r = some (a, 1) → a < s.len → a < s.hdr.staticBase.toNat →
        ∃ t, exec i s = .next t ∧ t = { u with mem := t.mem, pc := s.pc + i.size } ∧
          ∀ k, (t.mem.get k).toNat = if k = a then z.toNat % 256 else (s.mem.get k).toNat) ∧
      (∀ a, r = some (a, 2) → a + 1 < s.len → a + 1 < s.hdr.staticBase.toNat →
        ∃ t, exec i s = .next t ∧ t = { u with mem := t.mem, pc := s.pc + i.size } ∧
          ∀ k, (t.mem.get k).toNat =
            if k = a then z.toNat / 256 else if k = a + 1 then z.toNat % 256 else (s.mem.get k).toNat) ∧
      (∀ a k, r = some (a, k) → 3 ≤ k →
        exec i s = .next (takeFault (.object (.propertyTooLong x y)) (some i.opbyte) s)) ∧
      (r = none → exec i s = .next (takeFault (.object (.missingProperty x y)) (some i.opbyte) s))

/-- R253, R232: `remove_obj` takes an object out of its parent's chain: the object before it, or for a first child the
parent, gets its sibling; it keeps its children, and no byte but link bytes changes; on an object without parent it changes
nothing; an object that its parent's chain does not hold faults. -/
def Obligations.RemoveObject : Prop :=
  ∀ (o : Operand) (before : List Nat) (s : State), s.mem.wf → opReadable o s = true → objectsWritable s = true →
    let x := (opValue o s).toNat
    let u := opAfter o s
    let i := Instr.removeObj o
    let p := linkOf 4 x s
    1 ≤ x → x ≤ 255 →
      (p = 0 → exec i s = .next { u with pc := s.pc + i.size }) ∧
      (p ≠ 0 → chainBefore x before s = true →
        ∃ t, exec i s = .next t ∧ t = { u with mem := t.mem, pc := s.pc + i.size } ∧
          linkOf 4 x t = 0 ∧ linkOf 5 x t = 0 ∧
          (∀ k, 1 ≤ k → k ≤ 255 → k ≠ x → linkOf 4 k t = linkOf 4 k s) ∧
          (∀ k, 1 ≤ k → k ≤ 255 → k ≠ x →
            linkOf 5 k t = if before.getLast? = some k then linkOf 5 x s else linkOf 5 k s) ∧
          (∀ k, 1 ≤ k → k ≤ 255 → linkOf 6 k t = if k = p ∧ linkOf 6 p s = x then linkOf 5 x s else linkOf 6 k s) ∧
          ∀ a, (∀ k, 1 ≤ k → k ≤ 255 → a ≠ s.entryAddr k + 4 ∧ a ≠ s.entryAddr k + 5 ∧ a ≠ s.entryAddr k + 6) →
            t.mem.get a = s.mem.get a) ∧
      (¬ detachable x s → exec i s = .next (takeFault (.object (.corruptTree x)) (some i.opbyte) s))

/-- R252, R233, R232: `insert_obj` takes an object out of its old parent's chain, whose object before it gets its sibling,
and makes it the first child of its new parent; no other object's parent changes and no byte but link bytes; a destination
inside the object's subtree and an object that its parent's chain does not hold fault. -/
def Obligations.InsertObject : Prop :=
  ∀ (f : TwoOp) (o d : Operand) (xs before : List Nat) (s : State), s.mem.wf → opsReadable [o, d] s = true →
    objectsWritable s = true →
    let x := (opValue o s).toNat
    let y := (opValue d (opAfter o s)).toNat
    let u := opsAfter [o, d] s
    let i := Instr.insertObj f o d
    1 ≤ x → x ≤ 255 → 1 ≤ y → y ≤ 255 → xs.length ≤ 255 →
      (parentPath s 0 y xs = true → x ∉ xs → chainBefore x before s = true →
        ∃ t, exec i s = .next t ∧ t = { u with mem := t.mem, pc := s.pc + i.size } ∧
          linkOf 4 x t = y ∧ linkOf 6 y t = x ∧ (linkOf 4 x s ≠ x → linkOf 6 x t = linkOf 6 x s) ∧
          linkOf 5 x t = (if linkOf 4 x s = y ∧ linkOf 6 y s = x then linkOf 5 x s else linkOf 6 y s) ∧
          (∀ k, 1 ≤ k → k ≤ 255 → k ≠ x → linkOf 4 k t = linkOf 4 k s) ∧
          (∀ k, 1 ≤ k → k ≤ 255 → k ≠ x →
            linkOf 5 k t = if before.getLast? = some k then linkOf 5 x s else linkOf 5 k s) ∧
          (∀ k, 1 ≤ k → k ≤ 255 → k ≠ y →
            linkOf 6 k t = if k = linkOf 4 x s ∧ linkOf 6 k s = x then linkOf 5 x s else linkOf 6 k s) ∧
          ∀ a, (∀ k, 1 ≤ k → k ≤ 255 → a ≠ s.entryAddr k + 4 ∧ a ≠ s.entryAddr k + 5 ∧ a ≠ s.entryAddr k + 6) →
            t.mem.get a = s.mem.get a) ∧
      (parentPath s x y xs = true → exec i s = .next (takeFault (.object (.treeCycle x y)) (some i.opbyte) s)) ∧
      (parentPath s 0 y xs = true → x ∉ xs → ¬ detachable x s →
        exec i s = .next (takeFault (.object (.corruptTree x)) (some i.opbyte) s))

/-! ## Text (41_text.md) -/

/-- R180, R192: a Z-string is the words up to and including the first with its top bit set; one that runs off the image
faults at the first word that does not fit. R188: an abbreviation's text is that of the Z-string at twice its entry's word,
decoded without abbreviations; an entry or string outside the image faults with the index. R190, R181: a text is decoded from
alphabet A0 with its abbreviations expanded. -/
def Obligations.StringsAndAbbreviations : Prop :=
  (∀ (m : Memory) (len a : Nat) (ws : List Word),
    (m.stringAt len a = .ok ws ↔
        textEnds ws = true ∧ a + 2 * ws.length ≤ len ∧ ∀ k, k < ws.length → ws[k]? = some (m.getWord (a + 2 * k))) ∧
      (∀ n, (∀ k, k < n → a + 2 * k + 1 < len ∧ (m.getWord (a + 2 * k)).getLsbD 15 = false) → len ≤ a + 2 * n + 1 →
        m.stringAt len a = .error (.memory (.outOfBounds (a + 2 * n : Nat))))) ∧
  (∀ (s : State) (i : Nat),
    let entry := s.hdr.abbrBase.toNat + 2 * i
    let a := 2 * (s.mem.getWord entry).toNat
    ((s.len ≤ entry + 1 ∨ s.len ≤ a) → abbreviation s i = .error (.text (.abbrevOutOfRange i))) ∧
      (entry + 1 < s.len → a < s.len → ∀ ws, s.mem.stringAt s.len a = .ok ws →
        abbreviation s i =
          decodeChars none a .a0
            (ws.flatMap fun w => [w.extractLsb' 10 5, w.extractLsb' 5 5, w.extractLsb' 0 5])) ∧
      (entry + 1 < s.len → a < s.len → ∀ k, s.mem.stringAt s.len a = .error k → abbreviation s i = .error k)) ∧
  (∀ (s : State) (a : Nat),
    let text (ws : List Word) :=
      decodeChars (some (abbreviation s)) a .a0
        (ws.flatMap fun w => [w.extractLsb' 10 5, w.extractLsb' 5 5, w.extractLsb' 0 5])
    (∀ ws, decodeWords s a ws = text ws) ∧ (∀ ws, s.mem.stringAt s.len a = .ok ws → decodeZString s a = text ws) ∧
      ∀ k, s.mem.stringAt s.len a = .error k → decodeZString s a = .error k)

/-- R182 to R189: what each Z-character does in each alphabet, and the text faults. -/
def Obligations.TextRules : Prop :=
  ∀ (e : Option (Nat → Except FaultKind (List Zscii))) (start : Nat) (alpha : Alphabet) (zs : List ZChar),
    let code (c : Char) : Zscii := BitVec.ofNat 10 c.toNat
    decodeChars e start alpha [] = .ok [] ∧
      (∀ k, k < 26 →
        decodeChars e start .a0 (BitVec.ofNat 5 (6 + k) :: zs) =
            (decodeChars e start .a0 zs).map (("abcdefghijklmnopqrstuvwxyz".toList.map code).getD k 0 :: ·) ∧
          decodeChars e start .a1 (BitVec.ofNat 5 (6 + k) :: zs) =
            (decodeChars e start .a0 zs).map (("ABCDEFGHIJKLMNOPQRSTUVWXYZ".toList.map code).getD k 0 :: ·)) ∧
      (∀ k, k < 25 →
        decodeChars e start .a2 (BitVec.ofNat 5 (7 + k) :: zs) =
          (decodeChars e start .a0 zs).map (("\r0123456789.,!?_#'\"/\\-:()".toList.map code).getD k 0 :: ·)) ∧
      decodeChars e start alpha (0 :: zs) = (decodeChars e start .a0 zs).map (32 :: ·) ∧
      decodeChars e start alpha (4 :: zs) = decodeChars e start .a1 zs ∧
      decodeChars e start alpha (5 :: zs) = decodeChars e start .a2 zs ∧
      (∀ hi lo : ZChar, ∃ c, c.toNat = 32 * hi.toNat + lo.toNat ∧
        decodeChars e start .a2 (6 :: hi :: lo :: zs) = (decodeChars e start .a0 zs).map (c :: ·)) ∧
      (zs.length < 2 → decodeChars e start .a2 (6 :: zs) = .error (.text (.orphanedEscape start))) ∧
      (∀ z : ZChar, 1 ≤ z.toNat → z.toNat ≤ 3 →
        decodeChars none start alpha (z :: zs) = .error (.text (.nestedAbbreviation start)) ∧
        ∀ f : Nat → Except FaultKind (List Zscii),
          decodeChars (some f) start alpha [z] = .error (.text (.truncatedAbbreviation start)) ∧
          ∀ x : ZChar, ∀ cs ds, f (32 * (z.toNat - 1) + x.toNat) = .ok cs → decodeChars (some f) start .a0 zs = .ok ds →
            decodeChars (some f) start alpha (z :: x :: zs) = .ok (cs ++ ds))

/-- R190, R195: decoding the Z-characters a text encodes to gives the text back, for every ZSCII code. -/
def Obligations.TextRoundTrip : Prop :=
  ∀ (e : Option (Nat → Except FaultKind (List Zscii))) (start : Nat) (cs : List Zscii),
    decodeChars e start .a0 (cs.flatMap encodeChar) = .ok cs

/-- R204: the digits are those of the decimal numeral of the signed reading: a minus sign exactly when it is negative, then
digits without leading zeros whose value is its magnitude. -/
def Obligations.DecimalNumerals : Prop :=
  ∀ v : Word, ∃ digits : List Nat,
    decimalDigits v = (if v.toInt < 0 then [45] else []) ++ digits.map (fun d => BitVec.ofNat 10 (48 + d)) ∧
      (∀ d ∈ digits, d ≤ 9) ∧ digits ≠ [] ∧ (digits.head? = some 0 → digits = [0]) ∧
      digits.foldl (fun n d => 10 * n + d) 0 = v.toInt.natAbs

/-- R206 to R212, R254: the print instructions append their text's codes other than 0 to the output and go on; `print_ret`
also appends 13 and returns 1; a fault in the text is taken and prints nothing. -/
def Obligations.PrintInstructions : Prop :=
  ∀ (a : Operand) (text : List Word) (s : State),
    let x := opValue a s
    let u := opAfter a s
    let prints (i : Instr) (t : State) (cs : List Zscii) : Prop :=
      exec i s = .next { t with out := s.out ++ cs.filter (· ≠ 0), pc := s.pc + i.size }
    let stops (i : Instr) (k : FaultKind) : Prop := exec i s = .next (takeFault k (some i.opbyte) s)
    let name := propTableOf s x.toNat
    (∀ cs, decodeWords s (s.pc + 1) text = .ok cs →
        prints (.print text) s cs ∧
          (returnable { s with out := s.out ++ cs.filter (· ≠ 0) ++ [13] } = true →
            exec (.printRet text) s = .next (afterReturn 1 { s with out := s.out ++ cs.filter (· ≠ 0) ++ [13] }))) ∧
      (∀ k, decodeWords s (s.pc + 1) text = .error k → stops (.print text) k ∧ stops (.printRet text) k) ∧
      (opReadable a s = true →
        (∀ cs, decodeZString u x.toNat = .ok cs → prints (.printAddr a) u cs) ∧
        (∀ k, decodeZString u x.toNat = .error k → stops (.printAddr a) k) ∧
        (∀ cs, decodeZString u (2 * x.toNat) = .ok cs → prints (.printPaddr a) u cs) ∧
        (∀ k, decodeZString u (2 * x.toNat) = .error k → stops (.printPaddr a) k) ∧
        (1 ≤ x.toNat → x.toNat ≤ 255 → propTableReadable s x.toNat = true →
          (s.mem.get name = 0 → prints (.printObj a) u []) ∧
          (s.mem.get name ≠ 0 → ∀ cs, decodeZString u (name + 1) = .ok cs → prints (.printObj a) u cs) ∧
          (s.mem.get name ≠ 0 → ∀ k, decodeZString u (name + 1) = .error k → stops (.printObj a) k)) ∧
        (x.toNat ≤ 1023 → prints (.printChar a) u [BitVec.ofNat 10 x.toNat]) ∧
        (1023 < x.toNat → stops (.printChar a) (.text (.badCharacter x.toNat))) ∧
        prints (.printNum a) u (decimalDigits x)) ∧
      prints .newLine s [13]

/-! ## Input (46_io_system.md) -/

/-- R351: `sread` records the pending read and suspends; it reads and writes no memory and leaves pc. -/
def Obligations.ReadSuspends : Prop :=
  ∀ (a b : Operand) (s : State), opsReadable [a, b] s = true →
    exec (.sread a b) s =
      .next { opsAfter [a, b] s with
        status := .awaitingInput
          { textAddr := opValue a s, parseAddr := opValue b (opAfter a s), atPc := s.pc,
            next := s.pc + (Instr.sread a b).size } }

/-- R352: input is refused, changing nothing, outside a pending read and for a code outside 32..126; otherwise it is
accepted: the lower-cased line is stored and split, and a fault of either is recorded at the `sread`, changing nothing else.
R353: the text buffer takes as many codes as its capacity less one, then a 0. R355, R354, R356: byte 1 of the parse buffer is
the number of words kept, and each has its dictionary address, length and position in a 4-byte entry. Of an address above
0xFFFF the entry holds the low 16 bits, which is the model's reading of R12 (log 12). No other byte changes.
The read completes when the bytes it reads lie in the image, those it writes in dynamic memory, and no buffer overlaps the
dictionary's header and searched entries or the parse buffer's capacity. -/
def Obligations.ProvideInput : Prop :=
  let lower (line : List Nat) : List Byte := line.map fun c => BitVec.ofNat 8 (if 65 ≤ c ∧ c ≤ 90 then c + 32 else c)
  (∀ (line : List Nat) (s : State),
    ((∀ r, s.status ≠ .awaitingInput r) → provideInput line s = (.refused, s)) ∧
      ∀ r, s.status = .awaitingInput r →
        let faults (k : FaultKind) : Prop :=
          provideInput line s = (.accepted, { s with status := .faulted { kind := k, pc := r.atPc, opbyte := some 0xE4 } })
        let a := r.textAddr.toNat
        let p := r.parseAddr.toNat
        ((∃ c ∈ line, c < 32 ∨ 126 < c) → provideInput line s = (.refused, s)) ∧
          ((∀ c ∈ line, 32 ≤ c ∧ c ≤ 126) →
            (∀ k, storeText a (lower line) s = .error k → faults k) ∧
            (∀ kept u, storeText a (lower line) s = .ok (kept, u) →
              (∀ k, tokenize p kept u = .error k → faults k) ∧
              ∀ t, tokenize p kept u = .ok t →
                provideInput line s = (.accepted, { s with mem := t.mem, pc := r.next, status := .running })) ∧
            (s.mem.wf →
              let kept := (lower line).take ((s.mem.get a).toNat - 1)
              let textTop := a + 2 + kept.length
              let parseTop := p + 2 + 4 * (wordsKept p kept s).length
              textTop ≤ s.len → textTop ≤ s.hdr.staticBase.toNat → parseTop ≤ s.len → parseTop ≤ s.hdr.staticBase.toNat →
              dictTop s ≤ s.len → (textTop ≤ s.hdr.dictBase.toNat ∨ dictTop s ≤ a + 1) → (parseTop ≤ s.hdr.dictBase.toNat ∨ dictTop s ≤ p + 1) →
              (textTop ≤ p ∨ p ≤ a) →
                ∃ t, provideInput line s = (.accepted, t) ∧ t = { s with mem := t.mem, pc := r.next, status := .running } ∧
                  ∀ x, (x < a + 1 ∨ textTop ≤ x) → (x < p + 1 ∨ parseTop ≤ x) → t.mem.get x = s.mem.get x))) ∧
  (∀ (a : Nat) (cs : List Byte) (s : State), s.mem.wf →
    let kept := cs.take ((s.mem.get a).toNat - 1)
    a + 1 + kept.length < s.len → a + 1 + kept.length < s.hdr.staticBase.toNat →
      ∃ t, storeText a cs s = .ok (kept, t) ∧ t = { s with mem := t.mem } ∧
        (∀ k c, kept[k]? = some c → t.mem.get (a + 1 + k) = c) ∧ t.mem.get (a + 1 + kept.length) = 0 ∧
        ∀ x, (x < a + 1 ∨ a + 1 + kept.length < x) → t.mem.get x = s.mem.get x) ∧
  (∀ (p : Nat) (codes : List Byte) (s : State), s.mem.wf →
    let ws := wordsKept p codes s
    let parseTop := p + 2 + 4 * ws.length
    parseTop ≤ s.len → parseTop ≤ s.hdr.staticBase.toNat → dictTop s ≤ s.len → (parseTop ≤ s.hdr.dictBase.toNat ∨ dictTop s ≤ p + 1) →
      ∃ t, tokenize p codes s = .ok t ∧ t = { s with mem := t.mem } ∧ (t.mem.get (p + 1)).toNat = ws.length ∧
        (∀ k w, ws[k]? = some w →
          ∃ e, lookup s w.codes = .ok e ∧ (t.mem.getWord (p + 2 + 4 * k)).toNat = e % 0x10000 ∧
            (t.mem.get (p + 4 + 4 * k)).toNat = w.codes.length % 0x100 ∧
            (t.mem.get (p + 5 + 4 * k)).toNat = (w.start + 1) % 0x100) ∧
        ∀ x, (x < p + 1 ∨ parseTop ≤ x) → t.mem.get x = s.mem.get x)

/-- R354: the words of a line are its maximal runs without space or separator and its separators one by one, in order. -/
def Obligations.LineWords : Prop :=
  ∀ (seps cs : List Byte),
    let ts := tokens seps 0 [] cs
    ts.flatMap Token.codes = cs.filter (· ≠ 32) ∧
      ts.Pairwise (fun t w => t.start + t.codes.length ≤ w.start) ∧
      ∀ t ∈ ts, t.codes ≠ [] ∧ (cs.drop t.start).take t.codes.length = t.codes ∧
        ((∃ c ∈ seps, t.codes = [c]) ∨
          (∀ c ∈ t.codes, c ∉ seps) ∧
            ∀ c, cs[t.start + t.codes.length]? = some c → c = 32 ∨ c ∈ seps)

/-- R357, R356: a word's dictionary address is that of the first entry of the dictionary at `hdr.dictBase` whose four bytes
are the word's encoding, or 0. R195: the encoding is the first six of the word's Z-characters, padded with 5, in two words,
the second with its end bit set. -/
def Obligations.DictionaryLookup : Prop :=
  (∀ (s : State) (word : List Byte),
    let d := s.hdr.dictBase.toNat
    let n := (s.mem.get d).toNat
    let elen := (s.mem.get (d + n + 1)).toNat
    let count := (s.mem.getWord (d + n + 2)).toInt.natAbs
    let base := d + n + 4
    let entry (k : Nat) : List Byte := [0, 1, 2, 3].map fun j => s.mem.get (base + elen * k + j)
    let e := encodeWord (word.map (·.setWidth 10))
    base ≤ s.len →
      (∀ k, k < count → base + elen * k + 3 < s.len → entry k = e → (∀ j, j < k → entry j ≠ e) →
        lookup s word = .ok (base + elen * k)) ∧
      ((∀ k, k < count → base + elen * k + 3 < s.len ∧ entry k ≠ e) → lookup s word = .ok 0)) ∧
  (∀ cs : List Zscii,
    let a2 : List Zscii := "\r0123456789.,!?_#'\"/\\-:()".toList.map fun c => BitVec.ofNat 10 c.toNat
    let chars (c : Zscii) : List Nat :=
      let v := c.toNat
      if 97 ≤ v ∧ v ≤ 122 then [v - 91] else if 65 ≤ v ∧ v ≤ 90 then [4, v - 59] else if v = 32 then [0]
      else if c ∈ a2 then [5, 7 + a2.idxOf c] else [5, 6, v / 32, v % 32]
    let z (k : Nat) : Nat := (cs.flatMap chars ++ [5, 5, 5, 5, 5, 5]).getD k 0
    let w1 := 1024 * z 0 + 32 * z 1 + z 2
    let w2 := 0x8000 + 1024 * z 3 + 32 * z 4 + z 5
    (encodeWord cs).map BitVec.toNat = [w1 / 256, w1 % 256, w2 / 256, w2 % 256])

/-! ## Random numbers and the system instructions (46_io_system.md) -/

/-- R361, R360: `random` stores a number in `1..n` for a positive operand, and 0 after reseeding for a negative or zero one;
the number and the next generator state are functions of the generator state and the operand only. -/
def Obligations.RandomNumbers : Prop :=
  ∀ (a : Operand) (st : Byte) (s : State), opReadable a s = true → varWritable st (opAfter a s) = true →
    let n := (opValue a s).toInt
    let i := Instr.random a st
    (0 < n →
        ∃ v : Word, 1 ≤ v.toNat ∧ (v.toNat : Int) ≤ n ∧ v.toNat = (rngNext s.rng n.toNat).1 ∧
          exec i s = .next { withVar st v (opAfter a s) with rng := (rngNext s.rng n.toNat).2, pc := s.pc + i.size }) ∧
      (n < 0 →
        exec i s =
          .next { withVar st 0 (opAfter a s) with rng := Config.rngSeed s.rng (-n).toNat, pc := s.pc + i.size }) ∧
      (n = 0 →
        exec i s = .next { withVar st 0 (opAfter a s) with rng := Config.rngEntropy s.rng, pc := s.pc + i.size })

/-- R362, R363, R365, R366, R367: `save` and `restore` branch as failed, `verify` branches on the loaded image's checksum,
`quit` halts at itself and `nop` goes on. -/
def Obligations.SystemInstructions : Prop :=
  ∀ (br : Branch) (s : State),
    let n := min (2 * s.hdr.fileLen.toNat) s.len
    let sum := ((List.range n).map fun a => if 0x40 ≤ a then (s.rom.get a).toNat else 0).sum
    (branchable (.save br) br false s = true → exec (.save br) s = .next (afterBranch (.save br) br false s)) ∧
      (branchable (.restore br) br false s = true →
        exec (.restore br) s = .next (afterBranch (.restore br) br false s)) ∧
      (∀ c, (c = true ↔ sum % 0x10000 = s.hdr.checksum.toNat) → branchable (.verify br) br c s = true →
        exec (.verify br) s = .next (afterBranch (.verify br) br c s)) ∧
      exec .quit s = .next { s with status := .halted } ∧ exec .nop s = .next { s with pc := s.pc + 1 } ∧
      (Instr.save br).opbyte = 0xB5 ∧ (Instr.restore br).opbyte = 0xB6 ∧ (Instr.verify br).opbyte = 0xBD ∧
      Instr.quit.opbyte = 0xBA ∧ Instr.nop.opbyte = 0xB4

/-- R364: `restart` reloads memory from the loaded image, keeping the two low bits of the byte at 0x11, empties both stacks
and goes to the initial pc; status, generator and output are unchanged. -/
def Obligations.Restart : Prop :=
  ∀ s : State, s.rom.wf →
    ∃ t, exec .restart s = .next t ∧
      t = { s with
        mem := t.mem, stack := [], callers := [], pc := s.hdr.initialPc.toNat,
        frame := { returnPc := none, storeVar := none, locals := [], argCount := 0, stackBase := 0 } } ∧
      (∀ a, a ≠ 0x11 → t.mem.get a = s.rom.get a) ∧
      (t.mem.get 0x11).toNat = (s.rom.get 0x11).toNat / 4 * 4 + (s.mem.get 0x11).toNat % 4 ∧
      Instr.restart.opbyte = 0xB7

/-- R370 to R376: the non-goal instructions resolve their operands, then go on under the `nop` policy and fault
`Unimplemented` under the `fault` policy. -/
def Obligations.NonGoals : Prop :=
  ∀ (i : Instr) (s : State) (ops : List Operand),
    (i = .showStatus ∧ ops = [] ∧ i.opbyte = 0xBC ∨
      (∃ a, i = .splitWindow a ∧ ops = [a] ∧ i.opbyte = 0xEA) ∨ (∃ a, i = .setWindow a ∧ ops = [a] ∧ i.opbyte = 0xEB) ∨
      (∃ a, i = .outputStream a none ∧ ops = [a] ∧ i.opbyte = 0xF3) ∨
      (∃ a b, i = .outputStream a (some b) ∧ ops = [a, b] ∧ i.opbyte = 0xF3) ∨
      (∃ a, i = .inputStream a ∧ ops = [a] ∧ i.opbyte = 0xF4) ∨
      (∃ a more, i = .soundEffect a more ∧ ops = a :: more ∧ i.opbyte = 0xF5)) →
    opsReadable ops s = true →
      (s.params.nongoal = .nop → exec i s = .next { opsAfter ops s with pc := s.pc + i.size }) ∧
      (s.params.nongoal = .fault →
        exec i s = .next (takeFault (.decode (.unimplemented s.pc i.opbyte)) (some i.opbyte) s))

/-! ## The whole machine (10_state.md, 60_exceptions.md) -/

/-- R410, R411, R413, R278, R365, R351: an instruction either leaves the status, or faults, changing nothing else and
recording its own pc and opcode byte, or halts, which only `quit` and a return from the root frame do, or suspends, which
only `sread` does. A frame without return address counts as the root frame, which is the model's choice (log 9). -/
def Obligations.StatusChanges : Prop :=
  ∀ (i : Instr) (s : State), ∃ t, exec i s = .next t ∧
    (t.status = s.status ∨
      (∃ k, t = { s with status := .faulted { kind := k, pc := s.pc, opbyte := some i.opbyte } }) ∨
      (t.status = .halted ∧ t.pc = s.pc ∧
        (i = .quit ∨
          (s.callers = [] ∨ s.frame.returnPc = none) ∧
            (i.parts.op ∈ [.ret, .rtrue, .rfalse, .retPopped, .printRet] ∨
              ∃ br, i.parts.branch = some br ∧ (br.offset.value = 0 ∨ br.offset.value = 1)))) ∨
      ∃ r, t.status = .awaitingInput r ∧ i.parts.op = .sread ∧ t.pc = s.pc ∧ t.mem = s.mem)

/-- The invariant is kept by every step, from every state that has it. -/
def Obligations.StepKeepsInv : Prop := ∀ s t : State, Inv s → step s = .next t → Inv t

/-- R21, R22, R35, R37, R38: parameters, image length, loaded image and latched header never change; only `random` changes
the generator, only the print instructions the output, by appending codes other than 0; frames change only by calls,
returns, `restart` and the local the instruction names as destination. -/
def Obligations.FieldFrame : Prop :=
  ∀ (i : Instr) (s t : State), exec i s = .next t →
    let named (k : Nat) : Prop :=
      (∃ st, i.parts.store = some st ∧ st.toNat = k + 1) ∨
        i.parts.op ∈ [.store, .inc, .dec, .incChk, .decChk, .pull] ∧
          ∃ r rest, i.parts.ops = r :: rest ∧ (opValue r s).toNat = k + 1
    t.params = s.params ∧ t.len = s.len ∧ t.rom = s.rom ∧ t.hdr = s.hdr ∧
      (i.parts.op ≠ .random → t.rng = s.rng) ∧
      (i.parts.op ∉ [.print, .printRet, .printAddr, .printPaddr, .printObj, .printChar, .printNum, .newLine] →
        t.out = s.out) ∧
      (∃ cs, (∀ c ∈ cs, c ≠ 0) ∧ t.out = s.out ++ cs) ∧
      (i.parts.op ∉ [.call, .ret, .rtrue, .rfalse, .retPopped, .printRet, .restart] →
        (∀ br, i.parts.branch = some br → br.offset.value ≠ 0 ∧ br.offset.value ≠ 1) →
          t.callers = s.callers ∧ t.frame = { s.frame with locals := t.frame.locals } ∧
          t.frame.locals.length = s.frame.locals.length ∧
          ∀ k, ¬ named k → t.frame.locals[k]? = s.frame.locals[k]?)

/-- Every byte of memory is unchanged by every instruction but those that store to memory themselves (`storew`, `storeb`,
`set_attr`, `clear_attr`, `put_prop`, `insert_obj`, `remove_obj`) and `restart`, except the two bytes of a global variable
the instruction names: its store variable, the variable it updates in place, or the one its return stores into. -/
def Obligations.MemoryFrame : Prop :=
  ∀ (i : Instr) (s t : State) (a : Nat), s.mem.wf →
    i.parts.op ∉ [.storew, .storeb, .setAttr, .clearAttr, .putProp, .insertObj, .removeObj, .restart] →
    exec i s = .next t →
      (∀ n : Byte, 16 ≤ n.toNat → (a = s.globalAddr n ∨ a = s.globalAddr n + 1) →
        i.parts.store ≠ some n ∧
          (i.parts.op ∈ [.store, .inc, .dec, .incChk, .decChk, .pull] →
            ∀ r rest, i.parts.ops = r :: rest → (opValue r s).toNat ≠ n.toNat) ∧
          ((i.parts.op ∈ [.ret, .rtrue, .rfalse, .retPopped, .printRet] ∨
              ∃ br, i.parts.branch = some br ∧ (br.offset.value = 0 ∨ br.offset.value = 1)) →
            s.frame.storeVar ≠ some n)) →
        t.mem.get a = s.mem.get a

/-- R25, R271, R279: no instruction but `restart` changes the words below the current frame's base. -/
def Obligations.StackBelowBase : Prop :=
  ∀ (i : Instr) (s t : State), i.parts.op ≠ .restart → s.frame.stackBase ≤ s.stack.length → exec i s = .next t →
    t.stack.reverse.take s.frame.stackBase = s.stack.reverse.take s.frame.stackBase

/-- R415 to R418: `run(0)` and `run` of a machine that is not running execute nothing; `run(k+1)` of a running machine is a
step and then `run(k)`; `run` always returns, for the reason the state it leaves gives; and running `k` and then `m`
instructions is running `k + m`. -/
def Obligations.RunComposes : Prop :=
  (stopOf .running = .budgetExhausted ∧ (∀ r, stopOf (.awaitingInput r) = .awaitingInput) ∧ stopOf .halted = .halted ∧
    ∀ f, stopOf (.faulted f) = .fault f.kind) ∧
  ∀ (k m : Nat) (s : State),
    run 0 s = .next (stopOf s.status, s) ∧ (s.status ≠ .running → run k s = .next (stopOf s.status, s)) ∧
      (∀ t, s.status = .running → step s = .next t → run (k + 1) s = run k t) ∧
      ∃ t, run k s = .next (stopOf t.status, t) ∧ run (k + m) s = run m t

/-- R36, R423: a snapshot installed into any later machine of the same image gives back the state it was taken from, all
but the output. -/
def Obligations.SnapshotRestores : Prop :=
  ∀ s t : State, Inv s → Inv t → t.params = s.params → t.len = s.len → t.rom = s.rom →
    installSnapshot (takeSnapshot s) t = (.accepted, { s with out := t.out })
end

