-- ==== Sys2Proof/Laws/PerInstr.lean ====
section
/-! SUPPORT. One lemma per instruction: a well-formed instruction's parts build it back, and they have the store byte, the
branch data, the inline text and the operand count that its opcode's row gives (30_encoding.md R105 to R108, R111). -/

namespace Sys2Proof.Laws.Parts

open Sys2Proof

/-- What holds of the parts of a well-formed instruction. -/
def Statement (i : Instr) : Prop :=
  i.wellFormed = true →
    i.parts.build = some i ∧ opcodeMap i.parts.op.count i.parts.op.num = some i.parts.op ∧
      i.parts.op.admits i.parts.ops.length = true ∧ i.parts.store.isSome = i.parts.op.hasStore ∧
      i.parts.branch.isSome = i.parts.op.hasBranch ∧ (i.parts.op.hasText = false → i.parts.text = []) ∧
      (i.parts.op.hasText = true → textEnds i.parts.text = true)

theorem je (f : TwoOp) (a b : Operand) (more : List Operand) (br : Branch) : Statement (.je f a b more br) := by
  intro h
  simp only [Instr.wellFormed, Bool.and_eq_true, decide_eq_true_eq] at h
  refine ⟨?_, rfl, ?_, rfl, rfl, fun _ => rfl, fun h => by cases h⟩
  · cases f <;> rfl
  · simp [Instr.parts, Op.admits, Op.arity]; omega

theorem jl (f : TwoOp) (a b : Operand) (br : Branch) : Statement (.jl f a b br) := by
  intro _
  refine ⟨?_, rfl, rfl, rfl, rfl, fun _ => rfl, fun h => by cases h⟩
  cases f <;> rfl

theorem jg (f : TwoOp) (a b : Operand) (br : Branch) : Statement (.jg f a b br) := by
  intro _
  refine ⟨?_, rfl, rfl, rfl, rfl, fun _ => rfl, fun h => by cases h⟩
  cases f <;> rfl

theorem decChk (f : TwoOp) (n limit : Operand) (br : Branch) : Statement (.decChk f n limit br) := by
  intro _
  refine ⟨?_, rfl, rfl, rfl, rfl, fun _ => rfl, fun h => by cases h⟩
  cases f <;> rfl

theorem incChk (f : TwoOp) (n limit : Operand) (br : Branch) : Statement (.incChk f n limit br) := by
  intro _
  refine ⟨?_, rfl, rfl, rfl, rfl, fun _ => rfl, fun h => by cases h⟩
  cases f <;> rfl

theorem jin (f : TwoOp) (a b : Operand) (br : Branch) : Statement (.jin f a b br) := by
  intro _
  refine ⟨?_, rfl, rfl, rfl, rfl, fun _ => rfl, fun h => by cases h⟩
  cases f <;> rfl

theorem test (f : TwoOp) (bitmap flags : Operand) (br : Branch) : Statement (.test f bitmap flags br) := by
  intro _
  refine ⟨?_, rfl, rfl, rfl, rfl, fun _ => rfl, fun h => by cases h⟩
  cases f <;> rfl

theorem or (f : TwoOp) (a b : Operand) (st : Byte) : Statement (.or f a b st) := by
  intro _
  refine ⟨?_, rfl, rfl, rfl, rfl, fun _ => rfl, fun h => by cases h⟩
  cases f <;> rfl

theorem and (f : TwoOp) (a b : Operand) (st : Byte) : Statement (.and f a b st) := by
  intro _
  refine ⟨?_, rfl, rfl, rfl, rfl, fun _ => rfl, fun h => by cases h⟩
  cases f <;> rfl

theorem testAttr (f : TwoOp) (o n : Operand) (br : Branch) : Statement (.testAttr f o n br) := by
  intro _
  refine ⟨?_, rfl, rfl, rfl, rfl, fun _ => rfl, fun h => by cases h⟩
  cases f <;> rfl

theorem setAttr (f : TwoOp) (o n : Operand) : Statement (.setAttr f o n) := by
  intro _
  refine ⟨?_, rfl, rfl, rfl, rfl, fun _ => rfl, fun h => by cases h⟩
  cases f <;> rfl

theorem clearAttr (f : TwoOp) (o n : Operand) : Statement (.clearAttr f o n) := by
  intro _
  refine ⟨?_, rfl, rfl, rfl, rfl, fun _ => rfl, fun h => by cases h⟩
  cases f <;> rfl

theorem store (f : TwoOp) (n v : Operand) : Statement (.store f n v) := by
  intro _
  refine ⟨?_, rfl, rfl, rfl, rfl, fun _ => rfl, fun h => by cases h⟩
  cases f <;> rfl

theorem insertObj (f : TwoOp) (o d : Operand) : Statement (.insertObj f o d) := by
  intro _
  refine ⟨?_, rfl, rfl, rfl, rfl, fun _ => rfl, fun h => by cases h⟩
  cases f <;> rfl

theorem loadw (f : TwoOp) (array idx : Operand) (st : Byte) : Statement (.loadw f array idx st) := by
  intro _
  refine ⟨?_, rfl, rfl, rfl, rfl, fun _ => rfl, fun h => by cases h⟩
  cases f <;> rfl

theorem loadb (f : TwoOp) (array idx : Operand) (st : Byte) : Statement (.loadb f array idx st) := by
  intro _
  refine ⟨?_, rfl, rfl, rfl, rfl, fun _ => rfl, fun h => by cases h⟩
  cases f <;> rfl

theorem getProp (f : TwoOp) (o p : Operand) (st : Byte) : Statement (.getProp f o p st) := by
  intro _
  refine ⟨?_, rfl, rfl, rfl, rfl, fun _ => rfl, fun h => by cases h⟩
  cases f <;> rfl

theorem getPropAddr (f : TwoOp) (o p : Operand) (st : Byte) : Statement (.getPropAddr f o p st) := by
  intro _
  refine ⟨?_, rfl, rfl, rfl, rfl, fun _ => rfl, fun h => by cases h⟩
  cases f <;> rfl

theorem getNextProp (f : TwoOp) (o p : Operand) (st : Byte) : Statement (.getNextProp f o p st) := by
  intro _
  refine ⟨?_, rfl, rfl, rfl, rfl, fun _ => rfl, fun h => by cases h⟩
  cases f <;> rfl

theorem add (f : TwoOp) (a b : Operand) (st : Byte) : Statement (.add f a b st) := by
  intro _
  refine ⟨?_, rfl, rfl, rfl, rfl, fun _ => rfl, fun h => by cases h⟩
  cases f <;> rfl

theorem sub (f : TwoOp) (a b : Operand) (st : Byte) : Statement (.sub f a b st) := by
  intro _
  refine ⟨?_, rfl, rfl, rfl, rfl, fun _ => rfl, fun h => by cases h⟩
  cases f <;> rfl

theorem mul (f : TwoOp) (a b : Operand) (st : Byte) : Statement (.mul f a b st) := by
  intro _
  refine ⟨?_, rfl, rfl, rfl, rfl, fun _ => rfl, fun h => by cases h⟩
  cases f <;> rfl

theorem div (f : TwoOp) (a b : Operand) (st : Byte) : Statement (.div f a b st) := by
  intro _
  refine ⟨?_, rfl, rfl, rfl, rfl, fun _ => rfl, fun h => by cases h⟩
  cases f <;> rfl

theorem mod (f : TwoOp) (a b : Operand) (st : Byte) : Statement (.mod f a b st) := by
  intro _
  refine ⟨?_, rfl, rfl, rfl, rfl, fun _ => rfl, fun h => by cases h⟩
  cases f <;> rfl

theorem jz (a : Operand) (br : Branch) : Statement (.jz a br) :=
  fun _ => ⟨rfl, rfl, rfl, rfl, rfl, fun _ => rfl, fun h => by cases h⟩

theorem getSibling (o : Operand) (st : Byte) (br : Branch) : Statement (.getSibling o st br) :=
  fun _ => ⟨rfl, rfl, rfl, rfl, rfl, fun _ => rfl, fun h => by cases h⟩

theorem getChild (o : Operand) (st : Byte) (br : Branch) : Statement (.getChild o st br) :=
  fun _ => ⟨rfl, rfl, rfl, rfl, rfl, fun _ => rfl, fun h => by cases h⟩

theorem getParent (o : Operand) (st : Byte) : Statement (.getParent o st) :=
  fun _ => ⟨rfl, rfl, rfl, rfl, rfl, fun _ => rfl, fun h => by cases h⟩

theorem getPropLen (a : Operand) (st : Byte) : Statement (.getPropLen a st) :=
  fun _ => ⟨rfl, rfl, rfl, rfl, rfl, fun _ => rfl, fun h => by cases h⟩

theorem inc (n : Operand) : Statement (.inc n) :=
  fun _ => ⟨rfl, rfl, rfl, rfl, rfl, fun _ => rfl, fun h => by cases h⟩

theorem dec (n : Operand) : Statement (.dec n) :=
  fun _ => ⟨rfl, rfl, rfl, rfl, rfl, fun _ => rfl, fun h => by cases h⟩

theorem printAddr (a : Operand) : Statement (.printAddr a) :=
  fun _ => ⟨rfl, rfl, rfl, rfl, rfl, fun _ => rfl, fun h => by cases h⟩

theorem removeObj (o : Operand) : Statement (.removeObj o) :=
  fun _ => ⟨rfl, rfl, rfl, rfl, rfl, fun _ => rfl, fun h => by cases h⟩

theorem printObj (o : Operand) : Statement (.printObj o) :=
  fun _ => ⟨rfl, rfl, rfl, rfl, rfl, fun _ => rfl, fun h => by cases h⟩

theorem ret (v : Operand) : Statement (.ret v) :=
  fun _ => ⟨rfl, rfl, rfl, rfl, rfl, fun _ => rfl, fun h => by cases h⟩

theorem jump (k : Operand) : Statement (.jump k) :=
  fun _ => ⟨rfl, rfl, rfl, rfl, rfl, fun _ => rfl, fun h => by cases h⟩

theorem printPaddr (a : Operand) : Statement (.printPaddr a) :=
  fun _ => ⟨rfl, rfl, rfl, rfl, rfl, fun _ => rfl, fun h => by cases h⟩

theorem load (n : Operand) (st : Byte) : Statement (.load n st) :=
  fun _ => ⟨rfl, rfl, rfl, rfl, rfl, fun _ => rfl, fun h => by cases h⟩

theorem not (a : Operand) (st : Byte) : Statement (.not a st) :=
  fun _ => ⟨rfl, rfl, rfl, rfl, rfl, fun _ => rfl, fun h => by cases h⟩

theorem rtrue  : Statement (.rtrue) :=
  fun _ => ⟨rfl, rfl, rfl, rfl, rfl, fun _ => rfl, fun h => by cases h⟩

theorem rfalse  : Statement (.rfalse) :=
  fun _ => ⟨rfl, rfl, rfl, rfl, rfl, fun _ => rfl, fun h => by cases h⟩

theorem print (text : List Word) : Statement (.print text) :=
  fun h => ⟨rfl, rfl, rfl, rfl, rfl, (fun h => by cases h), fun _ => h⟩

theorem printRet (text : List Word) : Statement (.printRet text) :=
  fun h => ⟨rfl, rfl, rfl, rfl, rfl, (fun h => by cases h), fun _ => h⟩

theorem nop  : Statement (.nop) :=
  fun _ => ⟨rfl, rfl, rfl, rfl, rfl, fun _ => rfl, fun h => by cases h⟩

theorem save (br : Branch) : Statement (.save br) :=
  fun _ => ⟨rfl, rfl, rfl, rfl, rfl, fun _ => rfl, fun h => by cases h⟩

theorem restore (br : Branch) : Statement (.restore br) :=
  fun _ => ⟨rfl, rfl, rfl, rfl, rfl, fun _ => rfl, fun h => by cases h⟩

theorem restart  : Statement (.restart) :=
  fun _ => ⟨rfl, rfl, rfl, rfl, rfl, fun _ => rfl, fun h => by cases h⟩

theorem retPopped  : Statement (.retPopped) :=
  fun _ => ⟨rfl, rfl, rfl, rfl, rfl, fun _ => rfl, fun h => by cases h⟩

theorem pop  : Statement (.pop) :=
  fun _ => ⟨rfl, rfl, rfl, rfl, rfl, fun _ => rfl, fun h => by cases h⟩

theorem quit  : Statement (.quit) :=
  fun _ => ⟨rfl, rfl, rfl, rfl, rfl, fun _ => rfl, fun h => by cases h⟩

theorem newLine  : Statement (.newLine) :=
  fun _ => ⟨rfl, rfl, rfl, rfl, rfl, fun _ => rfl, fun h => by cases h⟩

theorem showStatus  : Statement (.showStatus) :=
  fun _ => ⟨rfl, rfl, rfl, rfl, rfl, fun _ => rfl, fun h => by cases h⟩

theorem verify (br : Branch) : Statement (.verify br) :=
  fun _ => ⟨rfl, rfl, rfl, rfl, rfl, fun _ => rfl, fun h => by cases h⟩

theorem call (routine : Operand) (args : List Operand) (st : Byte) : Statement (.call routine args st) := by
  intro h
  simp only [Instr.wellFormed, decide_eq_true_eq] at h
  refine ⟨rfl, rfl, ?_, rfl, rfl, fun _ => rfl, fun h => by cases h⟩
  simp [Instr.parts, Op.admits, Op.arity]; omega

theorem storew (array idx v : Operand) : Statement (.storew array idx v) :=
  fun _ => ⟨rfl, rfl, rfl, rfl, rfl, fun _ => rfl, fun h => by cases h⟩

theorem storeb (array idx v : Operand) : Statement (.storeb array idx v) :=
  fun _ => ⟨rfl, rfl, rfl, rfl, rfl, fun _ => rfl, fun h => by cases h⟩

theorem putProp (o p v : Operand) : Statement (.putProp o p v) :=
  fun _ => ⟨rfl, rfl, rfl, rfl, rfl, fun _ => rfl, fun h => by cases h⟩

theorem sread (text parse : Operand) : Statement (.sread text parse) :=
  fun _ => ⟨rfl, rfl, rfl, rfl, rfl, fun _ => rfl, fun h => by cases h⟩

theorem printChar (a : Operand) : Statement (.printChar a) :=
  fun _ => ⟨rfl, rfl, rfl, rfl, rfl, fun _ => rfl, fun h => by cases h⟩

theorem printNum (a : Operand) : Statement (.printNum a) :=
  fun _ => ⟨rfl, rfl, rfl, rfl, rfl, fun _ => rfl, fun h => by cases h⟩

theorem random (a : Operand) (st : Byte) : Statement (.random a st) :=
  fun _ => ⟨rfl, rfl, rfl, rfl, rfl, fun _ => rfl, fun h => by cases h⟩

theorem push (v : Operand) : Statement (.push v) :=
  fun _ => ⟨rfl, rfl, rfl, rfl, rfl, fun _ => rfl, fun h => by cases h⟩

theorem pull (n : Operand) : Statement (.pull n) :=
  fun _ => ⟨rfl, rfl, rfl, rfl, rfl, fun _ => rfl, fun h => by cases h⟩

theorem splitWindow (lines : Operand) : Statement (.splitWindow lines) :=
  fun _ => ⟨rfl, rfl, rfl, rfl, rfl, fun _ => rfl, fun h => by cases h⟩

theorem setWindow (window : Operand) : Statement (.setWindow window) :=
  fun _ => ⟨rfl, rfl, rfl, rfl, rfl, fun _ => rfl, fun h => by cases h⟩

theorem outputStream (stream : Operand) (table : Option Operand) : Statement (.outputStream stream table) := by
  intro _
  refine ⟨?_, rfl, ?_, rfl, rfl, fun _ => rfl, fun h => by cases h⟩ <;> cases table <;> rfl

theorem inputStream (stream : Operand) : Statement (.inputStream stream) :=
  fun _ => ⟨rfl, rfl, rfl, rfl, rfl, fun _ => rfl, fun h => by cases h⟩

theorem soundEffect (number : Operand) (more : List Operand) : Statement (.soundEffect number more) := by
  intro h
  simp only [Instr.wellFormed, decide_eq_true_eq] at h
  refine ⟨rfl, rfl, ?_, rfl, rfl, fun _ => rfl, fun h => by cases h⟩
  simp [Instr.parts, Op.admits, Op.arity]; omega

end Sys2Proof.Laws.Parts
end

