-- ==== Sys2Proof/Laws/State.lean ====
section
/-! SUPPORT. The fields of each state update, one lemma per field, so that no proof unfolds a record update. -/

namespace Sys2Proof.Machine

/-! ## Memory bytes and words -/

@[simp] theorem State.setByte_params (s : State) (a : Nat) (b : Byte) : (s.setByte a b).params = s.params := rfl
@[simp] theorem State.setByte_len (s : State) (a : Nat) (b : Byte) : (s.setByte a b).len = s.len := rfl
@[simp] theorem State.setByte_mem (s : State) (a : Nat) (b : Byte) : (s.setByte a b).mem = s.mem.set a b := rfl
@[simp] theorem State.setByte_rom (s : State) (a : Nat) (b : Byte) : (s.setByte a b).rom = s.rom := rfl
@[simp] theorem State.setByte_hdr (s : State) (a : Nat) (b : Byte) : (s.setByte a b).hdr = s.hdr := rfl
@[simp] theorem State.setByte_pc (s : State) (a : Nat) (b : Byte) : (s.setByte a b).pc = s.pc := rfl
@[simp] theorem State.setByte_stack (s : State) (a : Nat) (b : Byte) : (s.setByte a b).stack = s.stack := rfl
@[simp] theorem State.setByte_frame (s : State) (a : Nat) (b : Byte) : (s.setByte a b).frame = s.frame := rfl
@[simp] theorem State.setByte_callers (s : State) (a : Nat) (b : Byte) : (s.setByte a b).callers = s.callers := rfl
@[simp] theorem State.setByte_status (s : State) (a : Nat) (b : Byte) : (s.setByte a b).status = s.status := rfl
@[simp] theorem State.setByte_rng (s : State) (a : Nat) (b : Byte) : (s.setByte a b).rng = s.rng := rfl
@[simp] theorem State.setByte_out (s : State) (a : Nat) (b : Byte) : (s.setByte a b).out = s.out := rfl

@[simp] theorem State.setWord_params (s : State) (a : Nat) (v : Word) : (s.setWord a v).params = s.params := rfl
@[simp] theorem State.setWord_len (s : State) (a : Nat) (v : Word) : (s.setWord a v).len = s.len := rfl
@[simp] theorem State.setWord_mem (s : State) (a : Nat) (v : Word) : (s.setWord a v).mem = (s.mem.set a (hiByte v)).set (a + 1) (loByte v) := rfl
@[simp] theorem State.setWord_rom (s : State) (a : Nat) (v : Word) : (s.setWord a v).rom = s.rom := rfl
@[simp] theorem State.setWord_hdr (s : State) (a : Nat) (v : Word) : (s.setWord a v).hdr = s.hdr := rfl
@[simp] theorem State.setWord_pc (s : State) (a : Nat) (v : Word) : (s.setWord a v).pc = s.pc := rfl
@[simp] theorem State.setWord_stack (s : State) (a : Nat) (v : Word) : (s.setWord a v).stack = s.stack := rfl
@[simp] theorem State.setWord_frame (s : State) (a : Nat) (v : Word) : (s.setWord a v).frame = s.frame := rfl
@[simp] theorem State.setWord_callers (s : State) (a : Nat) (v : Word) : (s.setWord a v).callers = s.callers := rfl
@[simp] theorem State.setWord_status (s : State) (a : Nat) (v : Word) : (s.setWord a v).status = s.status := rfl
@[simp] theorem State.setWord_rng (s : State) (a : Nat) (v : Word) : (s.setWord a v).rng = s.rng := rfl
@[simp] theorem State.setWord_out (s : State) (a : Nat) (v : Word) : (s.setWord a v).out = s.out := rfl

/-! ## Locals, frames, output, pc and status -/

@[simp] theorem State.setLocal_params (s : State) (n : Byte) (v : Word) : (s.setLocal n v).params = s.params := rfl
@[simp] theorem State.setLocal_len (s : State) (n : Byte) (v : Word) : (s.setLocal n v).len = s.len := rfl
@[simp] theorem State.setLocal_mem (s : State) (n : Byte) (v : Word) : (s.setLocal n v).mem = s.mem := rfl
@[simp] theorem State.setLocal_rom (s : State) (n : Byte) (v : Word) : (s.setLocal n v).rom = s.rom := rfl
@[simp] theorem State.setLocal_hdr (s : State) (n : Byte) (v : Word) : (s.setLocal n v).hdr = s.hdr := rfl
@[simp] theorem State.setLocal_pc (s : State) (n : Byte) (v : Word) : (s.setLocal n v).pc = s.pc := rfl
@[simp] theorem State.setLocal_stack (s : State) (n : Byte) (v : Word) : (s.setLocal n v).stack = s.stack := rfl
@[simp] theorem State.setLocal_frame (s : State) (n : Byte) (v : Word) : (s.setLocal n v).frame = { s.frame with locals := s.frame.locals.set (n.toNat - 1) v } := rfl
@[simp] theorem State.setLocal_callers (s : State) (n : Byte) (v : Word) : (s.setLocal n v).callers = s.callers := rfl
@[simp] theorem State.setLocal_status (s : State) (n : Byte) (v : Word) : (s.setLocal n v).status = s.status := rfl
@[simp] theorem State.setLocal_rng (s : State) (n : Byte) (v : Word) : (s.setLocal n v).rng = s.rng := rfl
@[simp] theorem State.setLocal_out (s : State) (n : Byte) (v : Word) : (s.setLocal n v).out = s.out := rfl

@[simp] theorem State.popFrame_params (s : State) (c : Frame) (r : List Frame) (ra : Nat) : (s.popFrame c r ra).params = s.params := rfl
@[simp] theorem State.popFrame_len (s : State) (c : Frame) (r : List Frame) (ra : Nat) : (s.popFrame c r ra).len = s.len := rfl
@[simp] theorem State.popFrame_mem (s : State) (c : Frame) (r : List Frame) (ra : Nat) : (s.popFrame c r ra).mem = s.mem := rfl
@[simp] theorem State.popFrame_rom (s : State) (c : Frame) (r : List Frame) (ra : Nat) : (s.popFrame c r ra).rom = s.rom := rfl
@[simp] theorem State.popFrame_hdr (s : State) (c : Frame) (r : List Frame) (ra : Nat) : (s.popFrame c r ra).hdr = s.hdr := rfl
@[simp] theorem State.popFrame_pc (s : State) (c : Frame) (r : List Frame) (ra : Nat) : (s.popFrame c r ra).pc = ra := rfl
@[simp] theorem State.popFrame_stack (s : State) (c : Frame) (r : List Frame) (ra : Nat) : (s.popFrame c r ra).stack = s.stack.drop (s.stack.length - s.frame.stackBase) := rfl
@[simp] theorem State.popFrame_frame (s : State) (c : Frame) (r : List Frame) (ra : Nat) : (s.popFrame c r ra).frame = c := rfl
@[simp] theorem State.popFrame_callers (s : State) (c : Frame) (r : List Frame) (ra : Nat) : (s.popFrame c r ra).callers = r := rfl
@[simp] theorem State.popFrame_status (s : State) (c : Frame) (r : List Frame) (ra : Nat) : (s.popFrame c r ra).status = s.status := rfl
@[simp] theorem State.popFrame_rng (s : State) (c : Frame) (r : List Frame) (ra : Nat) : (s.popFrame c r ra).rng = s.rng := rfl
@[simp] theorem State.popFrame_out (s : State) (c : Frame) (r : List Frame) (ra : Nat) : (s.popFrame c r ra).out = s.out := rfl

@[simp] theorem advance_params (i : Instr) (s : State) : (advance i s).params = s.params := rfl
@[simp] theorem advance_len (i : Instr) (s : State) : (advance i s).len = s.len := rfl
@[simp] theorem advance_mem (i : Instr) (s : State) : (advance i s).mem = s.mem := rfl
@[simp] theorem advance_rom (i : Instr) (s : State) : (advance i s).rom = s.rom := rfl
@[simp] theorem advance_hdr (i : Instr) (s : State) : (advance i s).hdr = s.hdr := rfl
@[simp] theorem advance_pc (i : Instr) (s : State) : (advance i s).pc = s.pc + i.size := rfl
@[simp] theorem advance_stack (i : Instr) (s : State) : (advance i s).stack = s.stack := rfl
@[simp] theorem advance_frame (i : Instr) (s : State) : (advance i s).frame = s.frame := rfl
@[simp] theorem advance_callers (i : Instr) (s : State) : (advance i s).callers = s.callers := rfl
@[simp] theorem advance_status (i : Instr) (s : State) : (advance i s).status = s.status := rfl
@[simp] theorem advance_rng (i : Instr) (s : State) : (advance i s).rng = s.rng := rfl
@[simp] theorem advance_out (i : Instr) (s : State) : (advance i s).out = s.out := rfl

@[simp] theorem takeFault_params (k : FaultKind) (op : Option Byte) (s : State) : (takeFault k op s).params = s.params := rfl
@[simp] theorem takeFault_len (k : FaultKind) (op : Option Byte) (s : State) : (takeFault k op s).len = s.len := rfl
@[simp] theorem takeFault_mem (k : FaultKind) (op : Option Byte) (s : State) : (takeFault k op s).mem = s.mem := rfl
@[simp] theorem takeFault_rom (k : FaultKind) (op : Option Byte) (s : State) : (takeFault k op s).rom = s.rom := rfl
@[simp] theorem takeFault_hdr (k : FaultKind) (op : Option Byte) (s : State) : (takeFault k op s).hdr = s.hdr := rfl
@[simp] theorem takeFault_pc (k : FaultKind) (op : Option Byte) (s : State) : (takeFault k op s).pc = s.pc := rfl
@[simp] theorem takeFault_stack (k : FaultKind) (op : Option Byte) (s : State) : (takeFault k op s).stack = s.stack := rfl
@[simp] theorem takeFault_frame (k : FaultKind) (op : Option Byte) (s : State) : (takeFault k op s).frame = s.frame := rfl
@[simp] theorem takeFault_callers (k : FaultKind) (op : Option Byte) (s : State) : (takeFault k op s).callers = s.callers := rfl
@[simp] theorem takeFault_status (k : FaultKind) (op : Option Byte) (s : State) : (takeFault k op s).status = .faulted { kind := k, pc := s.pc, opbyte := op } := rfl
@[simp] theorem takeFault_rng (k : FaultKind) (op : Option Byte) (s : State) : (takeFault k op s).rng = s.rng := rfl
@[simp] theorem takeFault_out (k : FaultKind) (op : Option Byte) (s : State) : (takeFault k op s).out = s.out := rfl

@[simp] theorem emit_params (c : Zscii) (s : State) : (emit c s).params = s.params := by unfold emit; split <;> rfl
@[simp] theorem emit_len (c : Zscii) (s : State) : (emit c s).len = s.len := by unfold emit; split <;> rfl
@[simp] theorem emit_mem (c : Zscii) (s : State) : (emit c s).mem = s.mem := by unfold emit; split <;> rfl
@[simp] theorem emit_rom (c : Zscii) (s : State) : (emit c s).rom = s.rom := by unfold emit; split <;> rfl
@[simp] theorem emit_hdr (c : Zscii) (s : State) : (emit c s).hdr = s.hdr := by unfold emit; split <;> rfl
@[simp] theorem emit_pc (c : Zscii) (s : State) : (emit c s).pc = s.pc := by unfold emit; split <;> rfl
@[simp] theorem emit_stack (c : Zscii) (s : State) : (emit c s).stack = s.stack := by unfold emit; split <;> rfl
@[simp] theorem emit_frame (c : Zscii) (s : State) : (emit c s).frame = s.frame := by unfold emit; split <;> rfl
@[simp] theorem emit_callers (c : Zscii) (s : State) : (emit c s).callers = s.callers := by unfold emit; split <;> rfl
@[simp] theorem emit_status (c : Zscii) (s : State) : (emit c s).status = s.status := by unfold emit; split <;> rfl
@[simp] theorem emit_rng (c : Zscii) (s : State) : (emit c s).rng = s.rng := by unfold emit; split <;> rfl
@[simp] theorem emit_out (c : Zscii) (s : State) : (emit c s).out = if c = 0 then s.out else s.out ++ [c] := by unfold emit; split <;> rfl

/-! ## Printing a list of codes -/

@[simp] theorem emitAll_nil (s : State) : emitAll [] s = s := rfl
@[simp] theorem emitAll_cons (c : Zscii) (cs : List Zscii) (s : State) : emitAll (c :: cs) s = emitAll cs (emit c s) := rfl

/-- Printing appends the codes other than 0 and changes nothing else. -/
theorem emitAll_eq (cs : List Zscii) (s : State) : emitAll cs s = { s with out := s.out ++ cs.filter (· ≠ 0) } := by
  induction cs generalizing s with
  | nil => simp
  | cons c cs ih =>
    rw [emitAll_cons, ih]
    unfold emit
    by_cases h : c = 0
    · subst h; simp
    · rw [if_neg h, List.filter_cons_of_pos (by simpa using h)]; simp

@[simp] theorem emitAll_params (cs : List Zscii) (s : State) : (emitAll cs s).params = s.params := by rw [emitAll_eq]
@[simp] theorem emitAll_len (cs : List Zscii) (s : State) : (emitAll cs s).len = s.len := by rw [emitAll_eq]
@[simp] theorem emitAll_mem (cs : List Zscii) (s : State) : (emitAll cs s).mem = s.mem := by rw [emitAll_eq]
@[simp] theorem emitAll_rom (cs : List Zscii) (s : State) : (emitAll cs s).rom = s.rom := by rw [emitAll_eq]
@[simp] theorem emitAll_hdr (cs : List Zscii) (s : State) : (emitAll cs s).hdr = s.hdr := by rw [emitAll_eq]
@[simp] theorem emitAll_pc (cs : List Zscii) (s : State) : (emitAll cs s).pc = s.pc := by rw [emitAll_eq]
@[simp] theorem emitAll_stack (cs : List Zscii) (s : State) : (emitAll cs s).stack = s.stack := by rw [emitAll_eq]
@[simp] theorem emitAll_frame (cs : List Zscii) (s : State) : (emitAll cs s).frame = s.frame := by rw [emitAll_eq]
@[simp] theorem emitAll_callers (cs : List Zscii) (s : State) : (emitAll cs s).callers = s.callers := by rw [emitAll_eq]
@[simp] theorem emitAll_status (cs : List Zscii) (s : State) : (emitAll cs s).status = s.status := by rw [emitAll_eq]
@[simp] theorem emitAll_rng (cs : List Zscii) (s : State) : (emitAll cs s).rng = s.rng := by rw [emitAll_eq]
@[simp] theorem emitAll_out (cs : List Zscii) (s : State) : (emitAll cs s).out = s.out ++ cs.filter (· ≠ 0) := by rw [emitAll_eq]

/-! ## Variables -/

@[simp] theorem withVar_params (n : Byte) (v : Word) (s : State) : (withVar n v s).params = s.params := by
  unfold withVar; split
  · rfl
  · split <;> rfl
@[simp] theorem withVar_len (n : Byte) (v : Word) (s : State) : (withVar n v s).len = s.len := by
  unfold withVar; split
  · rfl
  · split <;> rfl
@[simp] theorem withVar_rom (n : Byte) (v : Word) (s : State) : (withVar n v s).rom = s.rom := by
  unfold withVar; split
  · rfl
  · split <;> rfl
@[simp] theorem withVar_hdr (n : Byte) (v : Word) (s : State) : (withVar n v s).hdr = s.hdr := by
  unfold withVar; split
  · rfl
  · split <;> rfl
@[simp] theorem withVar_pc (n : Byte) (v : Word) (s : State) : (withVar n v s).pc = s.pc := by
  unfold withVar; split
  · rfl
  · split <;> rfl
@[simp] theorem withVar_callers (n : Byte) (v : Word) (s : State) : (withVar n v s).callers = s.callers := by
  unfold withVar; split
  · rfl
  · split <;> rfl
@[simp] theorem withVar_status (n : Byte) (v : Word) (s : State) : (withVar n v s).status = s.status := by
  unfold withVar; split
  · rfl
  · split <;> rfl
@[simp] theorem withVar_rng (n : Byte) (v : Word) (s : State) : (withVar n v s).rng = s.rng := by
  unfold withVar; split
  · rfl
  · split <;> rfl
@[simp] theorem withVar_out (n : Byte) (v : Word) (s : State) : (withVar n v s).out = s.out := by
  unfold withVar; split
  · rfl
  · split <;> rfl

@[simp] theorem withVarInPlace_params (n : Byte) (v : Word) (s : State) : (withVarInPlace n v s).params = s.params := by
  unfold withVarInPlace; split <;> simp
@[simp] theorem withVarInPlace_len (n : Byte) (v : Word) (s : State) : (withVarInPlace n v s).len = s.len := by
  unfold withVarInPlace; split <;> simp
@[simp] theorem withVarInPlace_rom (n : Byte) (v : Word) (s : State) : (withVarInPlace n v s).rom = s.rom := by
  unfold withVarInPlace; split <;> simp
@[simp] theorem withVarInPlace_hdr (n : Byte) (v : Word) (s : State) : (withVarInPlace n v s).hdr = s.hdr := by
  unfold withVarInPlace; split <;> simp
@[simp] theorem withVarInPlace_pc (n : Byte) (v : Word) (s : State) : (withVarInPlace n v s).pc = s.pc := by
  unfold withVarInPlace; split <;> simp
@[simp] theorem withVarInPlace_callers (n : Byte) (v : Word) (s : State) : (withVarInPlace n v s).callers = s.callers := by
  unfold withVarInPlace; split <;> simp
@[simp] theorem withVarInPlace_status (n : Byte) (v : Word) (s : State) : (withVarInPlace n v s).status = s.status := by
  unfold withVarInPlace; split <;> simp
@[simp] theorem withVarInPlace_rng (n : Byte) (v : Word) (s : State) : (withVarInPlace n v s).rng = s.rng := by
  unfold withVarInPlace; split <;> simp
@[simp] theorem withVarInPlace_out (n : Byte) (v : Word) (s : State) : (withVarInPlace n v s).out = s.out := by
  unfold withVarInPlace; split <;> simp

@[simp] theorem afterVar_params (n : Byte) (s : State) : (afterVar n s).params = s.params := by unfold afterVar; split <;> rfl
@[simp] theorem afterVar_len (n : Byte) (s : State) : (afterVar n s).len = s.len := by unfold afterVar; split <;> rfl
@[simp] theorem afterVar_mem (n : Byte) (s : State) : (afterVar n s).mem = s.mem := by unfold afterVar; split <;> rfl
@[simp] theorem afterVar_rom (n : Byte) (s : State) : (afterVar n s).rom = s.rom := by unfold afterVar; split <;> rfl
@[simp] theorem afterVar_hdr (n : Byte) (s : State) : (afterVar n s).hdr = s.hdr := by unfold afterVar; split <;> rfl
@[simp] theorem afterVar_pc (n : Byte) (s : State) : (afterVar n s).pc = s.pc := by unfold afterVar; split <;> rfl
@[simp] theorem afterVar_frame (n : Byte) (s : State) : (afterVar n s).frame = s.frame := by unfold afterVar; split <;> rfl
@[simp] theorem afterVar_callers (n : Byte) (s : State) : (afterVar n s).callers = s.callers := by unfold afterVar; split <;> rfl
@[simp] theorem afterVar_status (n : Byte) (s : State) : (afterVar n s).status = s.status := by unfold afterVar; split <;> rfl
@[simp] theorem afterVar_rng (n : Byte) (s : State) : (afterVar n s).rng = s.rng := by unfold afterVar; split <;> rfl
@[simp] theorem afterVar_out (n : Byte) (s : State) : (afterVar n s).out = s.out := by unfold afterVar; split <;> rfl

@[simp] theorem opAfter_params (o : Operand) (s : State) : (opAfter o s).params = s.params := by cases o <;> simp [opAfter]
@[simp] theorem opAfter_len (o : Operand) (s : State) : (opAfter o s).len = s.len := by cases o <;> simp [opAfter]
@[simp] theorem opAfter_mem (o : Operand) (s : State) : (opAfter o s).mem = s.mem := by cases o <;> simp [opAfter]
@[simp] theorem opAfter_rom (o : Operand) (s : State) : (opAfter o s).rom = s.rom := by cases o <;> simp [opAfter]
@[simp] theorem opAfter_hdr (o : Operand) (s : State) : (opAfter o s).hdr = s.hdr := by cases o <;> simp [opAfter]
@[simp] theorem opAfter_pc (o : Operand) (s : State) : (opAfter o s).pc = s.pc := by cases o <;> simp [opAfter]
@[simp] theorem opAfter_frame (o : Operand) (s : State) : (opAfter o s).frame = s.frame := by cases o <;> simp [opAfter]
@[simp] theorem opAfter_callers (o : Operand) (s : State) : (opAfter o s).callers = s.callers := by cases o <;> simp [opAfter]
@[simp] theorem opAfter_status (o : Operand) (s : State) : (opAfter o s).status = s.status := by cases o <;> simp [opAfter]
@[simp] theorem opAfter_rng (o : Operand) (s : State) : (opAfter o s).rng = s.rng := by cases o <;> simp [opAfter]
@[simp] theorem opAfter_out (o : Operand) (s : State) : (opAfter o s).out = s.out := by cases o <;> simp [opAfter]

@[simp] theorem opsAfter_params (os : List Operand) (s : State) : (opsAfter os s).params = s.params := by
  induction os generalizing s with
  | nil => rfl
  | cons o os ih => simp [opsAfter, ih]
@[simp] theorem opsAfter_len (os : List Operand) (s : State) : (opsAfter os s).len = s.len := by
  induction os generalizing s with
  | nil => rfl
  | cons o os ih => simp [opsAfter, ih]
@[simp] theorem opsAfter_mem (os : List Operand) (s : State) : (opsAfter os s).mem = s.mem := by
  induction os generalizing s with
  | nil => rfl
  | cons o os ih => simp [opsAfter, ih]
@[simp] theorem opsAfter_rom (os : List Operand) (s : State) : (opsAfter os s).rom = s.rom := by
  induction os generalizing s with
  | nil => rfl
  | cons o os ih => simp [opsAfter, ih]
@[simp] theorem opsAfter_hdr (os : List Operand) (s : State) : (opsAfter os s).hdr = s.hdr := by
  induction os generalizing s with
  | nil => rfl
  | cons o os ih => simp [opsAfter, ih]
@[simp] theorem opsAfter_pc (os : List Operand) (s : State) : (opsAfter os s).pc = s.pc := by
  induction os generalizing s with
  | nil => rfl
  | cons o os ih => simp [opsAfter, ih]
@[simp] theorem opsAfter_frame (os : List Operand) (s : State) : (opsAfter os s).frame = s.frame := by
  induction os generalizing s with
  | nil => rfl
  | cons o os ih => simp [opsAfter, ih]
@[simp] theorem opsAfter_callers (os : List Operand) (s : State) : (opsAfter os s).callers = s.callers := by
  induction os generalizing s with
  | nil => rfl
  | cons o os ih => simp [opsAfter, ih]
@[simp] theorem opsAfter_status (os : List Operand) (s : State) : (opsAfter os s).status = s.status := by
  induction os generalizing s with
  | nil => rfl
  | cons o os ih => simp [opsAfter, ih]
@[simp] theorem opsAfter_rng (os : List Operand) (s : State) : (opsAfter os s).rng = s.rng := by
  induction os generalizing s with
  | nil => rfl
  | cons o os ih => simp [opsAfter, ih]
@[simp] theorem opsAfter_out (os : List Operand) (s : State) : (opsAfter os s).out = s.out := by
  induction os generalizing s with
  | nil => rfl
  | cons o os ih => simp [opsAfter, ih]

end Sys2Proof.Machine
end

