-- ==== Sys2Proof/Laws/Memory.lean ====
section
/-! SUPPORT. The laws of memory as data: reads after writes, the canonical form, and equality of canonical memories. -/

namespace Sys2Proof.Machine

/-! ## The canonical form -/

theorem Memory.wf_nil : Memory.wf [] := ⟨List.Pairwise.nil, by simp⟩

theorem Memory.wf_tail {c : Host.Cell} {m : Memory} (h : Memory.wf (c :: m)) : Memory.wf m :=
  ⟨(List.pairwise_cons.mp h.1).2, fun d hd => h.2 d (List.mem_cons_of_mem _ hd)⟩

theorem Memory.wf_cons {k : Nat} {b : Byte} {m : Memory} (hm : Memory.wf m) (hk : ∀ d ∈ m, k < d.1)
    (hb : b ≠ Memory.unlisted k) : Memory.wf ((k, b) :: m) :=
  ⟨List.pairwise_cons.mpr ⟨hk, hm.1⟩, by
    rintro d hd
    rcases List.mem_cons.mp hd with rfl | hd
    · exact hb
    · exact hm.2 d hd⟩

theorem Memory.lt_of_wf {c : Host.Cell} {m : Memory} (h : Memory.wf (c :: m)) : ∀ d ∈ m, c.1 < d.1 :=
  (List.pairwise_cons.mp h.1).1

/-- An address below every listed one reads as unlisted. -/
theorem Memory.get_below {m : Memory} {a : Nat} (h : ∀ d ∈ m, a < d.1) : m.get a = Memory.unlisted a := by
  induction m with
  | nil => rfl
  | cons c m ih =>
    obtain ⟨k, b⟩ := c
    have hk := h (k, b) (by simp)
    simp only [Memory.get]
    rw [if_neg (by simp only at hk; omega)]
    exact ih fun d hd => h d (List.mem_cons_of_mem _ hd)

/-- Every cell of `m.set a b` is a cell of `m` or the one set. -/
theorem Memory.mem_set {m : Memory} {a : Nat} {b : Byte} {d : Host.Cell} (h : d ∈ m.set a b) : d = (a, b) ∨ d ∈ m := by
  induction m with
  | nil =>
    unfold Memory.set at h
    split at h
    · cases h
    · exact .inl (by simpa using h)
  | cons c m ih =>
    obtain ⟨k, c⟩ := c
    unfold Memory.set at h
    split at h
    · split at h
      · exact .inr h
      · rcases List.mem_cons.mp h with h | h
        · exact .inl h
        · exact .inr h
    · split at h
      · split at h
        · exact .inr (List.mem_cons_of_mem _ h)
        · rcases List.mem_cons.mp h with h | h
          · exact .inl h
          · exact .inr (List.mem_cons_of_mem _ h)
      · rcases List.mem_cons.mp h with h | h
        · exact .inr (h ▸ List.mem_cons_self)
        · rcases ih h with h | h
          · exact .inl h
          · exact .inr (List.mem_cons_of_mem _ h)

/-- A write keeps the canonical form. -/
theorem Memory.wf_set {m : Memory} (a : Nat) (b : Byte) (h : m.wf) : (m.set a b).wf := by
  induction m with
  | nil =>
    unfold Memory.set
    split
    · exact Memory.wf_nil
    · exact Memory.wf_cons Memory.wf_nil (by simp) ‹_›
  | cons c m ih =>
    obtain ⟨k, c⟩ := c
    unfold Memory.set
    have hlt := Memory.lt_of_wf h
    simp only at hlt
    split
    · split
      · exact h
      · refine Memory.wf_cons h ?_ ‹_›
        rintro d hd
        rcases List.mem_cons.mp hd with rfl | hd
        · assumption
        · exact lt_trans ‹_› (hlt d hd)
    · split
      · rename_i _ hak
        subst hak
        split
        · exact Memory.wf_tail h
        · exact Memory.wf_cons (Memory.wf_tail h) hlt ‹_›
      · refine Memory.wf_cons (ih (Memory.wf_tail h)) ?_ (h.2 (k, c) (by simp))
        intro d hd
        rcases Memory.mem_set hd with rfl | hd
        · simp only; omega
        · exact hlt d hd

/-- Read after write: the byte written at its address, the old byte everywhere else. -/
theorem Memory.get_set {m : Memory} (a : Nat) (b : Byte) (x : Nat) (h : m.wf) :
    (m.set a b).get x = if x = a then b else m.get x := by
  induction m with
  | nil =>
    unfold Memory.set
    by_cases hx : x = a
    · subst hx
      split <;> simp_all [Memory.get]
    · split <;> simp [Memory.get, hx]
  | cons c m ih =>
    obtain ⟨k, c⟩ := c
    have hlt := Memory.lt_of_wf h
    simp only at hlt
    unfold Memory.set
    by_cases hak : a < k
    · rw [if_pos hak]
      by_cases hx : x = a
      · subst hx
        split
        · rename_i hb
          rw [if_pos rfl, hb]
          refine Memory.get_below ?_
          rintro d hd
          rcases List.mem_cons.mp hd with rfl | hd
          · exact hak
          · exact lt_trans hak (hlt d hd)
        · simp [Memory.get]
      · rw [if_neg hx]
        split
        · rfl
        · simp [Memory.get, hx]
    · rw [if_neg hak]
      by_cases hk : a = k
      · subst hk
        rw [if_pos rfl]
        by_cases hx : x = a
        · subst hx
          rw [if_pos rfl]
          split
          · rename_i hb
            rw [hb]; exact Memory.get_below hlt
          · simp [Memory.get]
        · rw [if_neg hx]
          split <;> simp [Memory.get, hx]
      · rw [if_neg hk]
        simp only [Memory.get, ih (Memory.wf_tail h)]
        by_cases hx : x = k
        · subst hx; rw [if_pos rfl, if_pos rfl, if_neg (Ne.symm hk)]
        · rw [if_neg hx, if_neg hx]

@[simp] theorem Memory.get_set_same {m : Memory} (a : Nat) (b : Byte) (h : m.wf) : (m.set a b).get a = b := by
  rw [Memory.get_set a b a h, if_pos rfl]

theorem Memory.get_set_ne {m : Memory} {a x : Nat} (b : Byte) (h : m.wf) (hx : x ≠ a) : (m.set a b).get x = m.get x := by
  rw [Memory.get_set a b x h, if_neg hx]

/-- A listed byte is not the unlisted one. -/
theorem Memory.get_head {k : Nat} {b : Byte} {m : Memory} (h : Memory.wf ((k, b) :: m)) :
    Memory.get ((k, b) :: m) k = b ∧ b ≠ Memory.unlisted k :=
  ⟨by simp [Memory.get], h.2 (k, b) (by simp)⟩

/-- Canonical memories with the same bytes are equal. -/
theorem Memory.ext_of_wf {m n : Memory} (hm : m.wf) (hn : n.wf) (h : ∀ a, m.get a = n.get a) : m = n := by
  induction m generalizing n with
  | nil =>
    cases n with
    | nil => rfl
    | cons d n =>
      obtain ⟨k, b⟩ := d
      have := Memory.get_head hn
      have hk := h k
      rw [this.1] at hk
      exact absurd hk.symm this.2
  | cons c m ih =>
    obtain ⟨k, b⟩ := c
    have hc := Memory.get_head hm
    cases n with
    | nil =>
      have hk := h k
      rw [hc.1] at hk
      exact absurd hk hc.2
    | cons d n =>
      obtain ⟨l, e⟩ := d
      have hd := Memory.get_head hn
      have hlm := Memory.lt_of_wf hm
      have hln := Memory.lt_of_wf hn
      simp only at hlm hln
      have hkl : k = l := by
        rcases lt_trichotomy k l with hlt | heq | hgt
        · have hk := h k
          rw [hc.1, Memory.get_below (m := (l, e) :: n)] at hk
          · exact absurd hk hc.2
          · rintro d hd
            rcases List.mem_cons.mp hd with rfl | hd
            · exact hlt
            · exact lt_trans hlt (hln d hd)
        · exact heq
        · have hl := h l
          rw [hd.1, Memory.get_below (m := (k, b) :: m)] at hl
          · exact absurd hl.symm hd.2
          · rintro d hd
            rcases List.mem_cons.mp hd with rfl | hd
            · exact hgt
            · exact lt_trans hgt (hlm d hd)
      subst hkl
      have hbe : b = e := by rw [← hc.1, h k, hd.1]
      subst hbe
      refine congrArg _ (ih (Memory.wf_tail hm) (Memory.wf_tail hn) fun a => ?_)
      by_cases ha : a = k
      · subst ha
        rw [Memory.get_below hlm, Memory.get_below hln]
      · have := h a
        simpa [Memory.get, ha] using this

/-! ## Runs of bytes -/

theorem Memory.wf_place {m : Memory} (a : Nat) (bs : List Byte) (h : m.wf) : (m.place a bs).wf := by
  induction bs generalizing m a with
  | nil => exact h
  | cons b bs ih => exact ih _ (Memory.wf_set a b h)

/-- The placed bytes at their addresses, the old byte everywhere else. -/
theorem Memory.get_place {m : Memory} (a : Nat) (bs : List Byte) (x : Nat) (h : m.wf) :
    (m.place a bs).get x = if a ≤ x ∧ x < a + bs.length then bs.getD (x - a) 0 else m.get x := by
  induction bs generalizing m a with
  | nil => simp [Memory.place]
  | cons b bs ih =>
    simp only [Memory.place]
    rw [ih (a + 1) (Memory.wf_set a b h), Memory.get_set a b x h]
    simp only [List.length_cons]
    by_cases hx : x = a
    · subst hx
      rw [if_neg (by omega), if_pos rfl, if_pos (by omega)]
      simp
    · by_cases hin : a + 1 ≤ x ∧ x < a + 1 + bs.length
      · rw [if_pos hin, if_pos (by omega)]
        obtain ⟨k, hk⟩ : ∃ k, x - a = k + 1 := ⟨x - a - 1, by omega⟩
        rw [hk, show x - (a + 1) = k by omega]
        simp
      · rw [if_neg hin, if_neg hx, if_neg (by omega)]

theorem Memory.ofBytes_ge (a : Nat) (bs : List Byte) : ∀ d ∈ Memory.ofBytes a bs, a ≤ d.1 ∧ d.1 < a + bs.length := by
  induction bs generalizing a with
  | nil => simp [Memory.ofBytes]
  | cons b bs ih =>
    intro d hd
    unfold Memory.ofBytes at hd
    simp only [List.length_cons]
    split at hd
    · have := ih (a + 1) d hd; omega
    · rcases List.mem_cons.mp hd with rfl | hd
      · simp only; omega
      · have := ih (a + 1) d hd; omega

theorem Memory.wf_ofBytes (a : Nat) (bs : List Byte) : (Memory.ofBytes a bs).wf := by
  induction bs generalizing a with
  | nil => exact Memory.wf_nil
  | cons b bs ih =>
    unfold Memory.ofBytes
    split
    · exact ih _
    · exact Memory.wf_cons (ih _) (fun d hd => by have := Memory.ofBytes_ge (a + 1) bs d hd; omega) ‹_›

/-- The memory of a list of bytes holds exactly these bytes. -/
theorem Memory.get_ofBytes (a : Nat) (bs : List Byte) (x : Nat) :
    (Memory.ofBytes a bs).get x =
      if a ≤ x ∧ x < a + bs.length then bs.getD (x - a) 0 else Memory.unlisted x := by
  induction bs generalizing a with
  | nil => simp [Memory.ofBytes, Memory.get]
  | cons b bs ih =>
    unfold Memory.ofBytes
    simp only [List.length_cons]
    by_cases hx : x = a
    · subst hx
      split
      · rename_i hb
        rw [ih, if_neg (by omega), if_pos (by omega), ← hb]; simp
      · simp [Memory.get]
    · have hrec : (Memory.ofBytes (a + 1) bs).get x =
          if a ≤ x ∧ x < a + (bs.length + 1) then (b :: bs).getD (x - a) 0 else Memory.unlisted x := by
        rw [ih]
        by_cases hin : a + 1 ≤ x ∧ x < a + 1 + bs.length
        · rw [if_pos hin, if_pos (by omega)]
          obtain ⟨k, hk⟩ : ∃ k, x - a = k + 1 := ⟨x - a - 1, by omega⟩
          rw [hk, show x - (a + 1) = k by omega]
          simp
        · rw [if_neg hin, if_neg (by omega)]
      split
      · exact hrec
      · simp only [Memory.get, if_neg hx]; exact hrec

/-! ## Words -/

@[simp] theorem wordOf_hi_lo (v : Word) : wordOf (hiByte v) (loByte v) = v := by
  unfold wordOf hiByte loByte
  ext k hk
  simp only [BitVec.getElem_append, BitVec.getElem_extractLsb']
  split
  · simp
    rw [BitVec.getLsbD_eq_getElem]
  · simp
    rw [show 8 + (k - 8) = k by omega, BitVec.getLsbD_eq_getElem]

@[simp] theorem hiByte_wordOf (h l : Byte) : hiByte (wordOf h l) = h := by
  unfold wordOf hiByte
  ext k hk
  have := BitVec.getLsbD_append (x := h) (y := l) (i := 8 + k)
  simp_all

@[simp] theorem loByte_wordOf (h l : Byte) : loByte (wordOf h l) = l := by
  unfold wordOf loByte
  ext k hk
  have := BitVec.getLsbD_append (x := h) (y := l) (i := k)
  simp_all

/-- The bytes after a word is written (20_memory.md R66, R68). -/
theorem hiByte_toNat (v : Word) : (hiByte v).toNat = v.toNat / 256 := by
  simp only [hiByte, BitVec.extractLsb'_toNat, Nat.shiftRight_eq_div_pow]
  have := v.isLt
  omega

theorem loByte_toNat (v : Word) : (loByte v).toNat = v.toNat % 256 := by simp [loByte]

/-- The big-endian word (R68). -/
theorem Memory.getWord_toNat (m : Memory) (a : Nat) :
    (m.getWord a).toNat = 256 * (m.get a).toNat + (m.get (a + 1)).toNat := by
  unfold Memory.getWord wordOf
  rw [BitVec.toNat_append, ← Nat.shiftLeft_add_eq_or_of_lt (m.get (a + 1)).isLt, Nat.shiftLeft_eq]
  omega

/-- The bytes after a word is set. -/
theorem Memory.get_set_word {m : Memory} (a : Nat) (v : Word) (x : Nat) (h : m.wf) :
    (((m.set a (hiByte v)).set (a + 1) (loByte v)).get x).toNat =
      if x = a then v.toNat / 256 else if x = a + 1 then v.toNat % 256 else (m.get x).toNat := by
  rw [Memory.get_set _ _ _ (Memory.wf_set _ _ h), Memory.get_set _ _ _ h]
  by_cases h1 : x = a
  · subst h1
    rw [if_neg (by omega), if_pos rfl, if_pos rfl, hiByte_toNat]
  · by_cases h2 : x = a + 1
    · rw [if_pos h2, if_neg h1, if_pos h2, loByte_toNat]
    · rw [if_neg h2, if_neg h1, if_neg h1, if_neg h2]

theorem State.get_setWord {s : State} (a : Nat) (v : Word) (x : Nat) (h : s.mem.wf) :
    (s.setWord a v).mem.get x = if x = a then hiByte v else if x = a + 1 then loByte v else s.mem.get x := by
  simp only [State.setWord_mem]
  rw [Memory.get_set _ _ _ (Memory.wf_set _ _ h), Memory.get_set _ _ _ h]
  by_cases hx : x = a
  · subst hx; rw [if_neg (by omega), if_pos rfl, if_pos rfl]
  · rw [if_neg hx, if_neg hx]

/-- A word read where a word was just written is that word. -/
theorem State.getWord_setWord {s : State} (a : Nat) (v : Word) (h : s.mem.wf) : (s.setWord a v).mem.getWord a = v := by
  unfold Memory.getWord
  rw [State.get_setWord a v a h, State.get_setWord a v (a + 1) h]
  simp

theorem State.wf_setWord {s : State} (a : Nat) (v : Word) (h : s.mem.wf) : (s.setWord a v).mem.wf :=
  Memory.wf_set _ _ (Memory.wf_set _ _ h)

/-- The reset state's memory is canonical. -/
theorem State.reset_wf : State.reset.mem.wf := Memory.wf_nil

end Sys2Proof.Machine
end

