-- ==== Sys2Proof/Laws/Ops.lean ====
section
/-! SUPPORT. What each shared operation can do: when it answers a state, and which. Meanings are proved about through
these lemmas, not by unfolding the operations. -/

namespace Sys2Proof.Machine

/-! ## Sequencing -/

@[simp] theorem ok_bind {α β : Type} (a : α) (f : α → Except FaultKind β) : (Except.ok a >>= f) = f a := rfl

@[simp] theorem error_bind {α β : Type} (e : FaultKind) (f : α → Except FaultKind β) :
    ((Except.error e : Except FaultKind α) >>= f) = .error e := rfl

/-- Two operations in sequence complete when both do. -/
theorem bind_ok_iff {α β : Type} {x : Except FaultKind α} {f : α → Except FaultKind β} {b : β} :
    (x >>= f) = .ok b ↔ ∃ a, x = .ok a ∧ f a = .ok b := by
  cases x <;> simp

theorem map_ok_iff {α β : Type} {x : Except FaultKind α} {f : α → β} {b : β} :
    x.map f = .ok b ↔ ∃ a, x = .ok a ∧ f a = b := by
  cases x <;> simp [Except.map]

/-! ## Memory -/

theorem readByte_ok_iff {a : Nat} {s : State} {b : Byte} : readByte a s = .ok b ↔ a < s.len ∧ b = s.mem.get a := by
  unfold readByte Memory.byteAt
  split <;> simp_all [eq_comm]

theorem readWord_ok_iff {a : Nat} {s : State} {v : Word} : readWord a s = .ok v ↔ a + 1 < s.len ∧ v = s.mem.getWord a := by
  unfold readWord Memory.wordAt
  split <;> simp_all [eq_comm]

theorem writeByte_ok_iff {a : Nat} {b : Byte} {s t : State} :
    writeByte a b s = .ok t ↔ a < s.len ∧ a < s.hdr.staticBase.toNat ∧ t = s.setByte a b := by
  unfold writeByte
  split
  · split <;> simp_all [eq_comm]
  · simp_all

theorem writeWord_ok_iff {a : Nat} {v : Word} {s t : State} :
    writeWord a v s = .ok t ↔ a + 1 < s.len ∧ a + 1 < s.hdr.staticBase.toNat ∧ t = s.setWord a v := by
  unfold writeWord
  split
  · split <;> simp_all [eq_comm]
  · simp_all

theorem readByte_ok {a : Nat} {s : State} (h : a < s.len) : readByte a s = .ok (s.mem.get a) :=
  readByte_ok_iff.mpr ⟨h, rfl⟩

theorem readWord_ok {a : Nat} {s : State} (h : a + 1 < s.len) : readWord a s = .ok (s.mem.getWord a) :=
  readWord_ok_iff.mpr ⟨h, rfl⟩

theorem readByte_error {a : Nat} {s : State} (h : s.len ≤ a) : readByte a s = .error (.memory (.outOfBounds a)) := by
  unfold readByte Memory.byteAt
  rw [if_neg (by omega)]

theorem readWord_error {a : Nat} {s : State} (h : s.len ≤ a + 1) : readWord a s = .error (.memory (.outOfBounds a)) := by
  unfold readWord Memory.wordAt
  rw [if_neg (by omega)]

theorem writeByte_out {a : Nat} {b : Byte} {s : State} (h : s.len ≤ a) :
    writeByte a b s = .error (.memory (.outOfBounds a)) := by
  unfold writeByte
  rw [if_neg (by omega)]

theorem writeByte_static {a : Nat} {b : Byte} {s : State} (h : a < s.len) (hs : s.hdr.staticBase.toNat ≤ a) :
    writeByte a b s = .error (.memory (.writeViolation a)) := by
  unfold writeByte
  rw [if_pos h, if_neg (by omega)]

theorem writeWord_out {a : Nat} {v : Word} {s : State} (h : s.len ≤ a + 1) :
    writeWord a v s = .error (.memory (.outOfBounds a)) := by
  unfold writeWord
  rw [if_neg (by omega)]

theorem writeWord_static {a : Nat} {v : Word} {s : State} (h : a + 1 < s.len) (hs : s.hdr.staticBase.toNat ≤ a + 1) :
    writeWord a v s = .error (.memory (.writeViolation a)) := by
  unfold writeWord
  rw [if_pos h, if_neg (by omega)]

/-! ## Stack -/

theorem topOf_ok {s : State} (h : hasTop s = true) : topOf s = .ok (s.stack.headD 0, s.stack.tail) := by
  unfold hasTop at h
  unfold topOf
  cases hs : s.stack with
  | nil => simp [hs] at h
  | cons v rest =>
    simp only [hs, List.length_cons, decide_eq_true_eq] at h
    simp only [List.headD_cons, List.tail_cons]
    rw [if_pos (by omega)]

theorem topOf_error {s : State} (h : hasTop s = false) : topOf s = .error (.stack .evalUnderflow) := by
  unfold hasTop at h
  unfold topOf
  cases hs : s.stack with
  | nil => rfl
  | cons v rest =>
    simp only [hs, List.length_cons, decide_eq_false_iff_not] at h
    simp only
    rw [if_neg (by omega)]

theorem pop_eq (s : State) :
    pop s = if hasTop s then .ok (s.stack.headD 0, { s with stack := s.stack.tail }) else .error (.stack .evalUnderflow) := by
  unfold pop
  cases h : hasTop s
  · rw [topOf_error h]; rfl
  · rw [topOf_ok h]; rfl

theorem peek_eq (s : State) : peek s = if hasTop s then .ok (s.stack.headD 0) else .error (.stack .evalUnderflow) := by
  unfold peek
  cases h : hasTop s
  · rw [topOf_error h]; rfl
  · rw [topOf_ok h]; rfl

theorem replaceTop_eq (v : Word) (s : State) :
    replaceTop v s = if hasTop s then .ok { s with stack := v :: s.stack.tail } else .error (.stack .evalUnderflow) := by
  unfold replaceTop
  cases h : hasTop s
  · rw [topOf_error h]; rfl
  · rw [topOf_ok h]; rfl

theorem push_eq (v : Word) (s : State) :
    push v s =
      if s.stack.length < s.params.maxEvalStack then .ok { s with stack := v :: s.stack }
      else .error (.stack .evalOverflow) := by
  unfold push
  by_cases h : s.stack.length < s.params.maxEvalStack
  · rw [if_pos h, if_neg (by omega)]
  · rw [if_neg h, if_pos (by omega)]

/-! ## Variables -/

/-- The fault of a variable that cannot be read or written in place (R152, R154, R155). -/
def varFault (n : Byte) (s : State) : FaultKind :=
  if n.toNat = 0 then .stack .evalUnderflow
  else if n.toNat ≤ 15 then .stack (.badLocal n.toNat)
  else .memory (.outOfBounds (s.globalAddr n))

theorem readVar_eq (n : Byte) (s : State) :
    readVar n s = if varReadable n s then .ok (varValue n s, afterVar n s) else .error (varFault n s) := by
  unfold readVar varReadable varValue afterVar varFault
  by_cases h0 : n.toNat = 0
  · simp only [h0, if_true, pop_eq]
  · simp only [h0, if_false]
    by_cases h15 : n.toNat ≤ 15
    · simp only [h15, if_true]
      by_cases hl : n.toNat ≤ s.frame.locals.length
      · have : n.toNat - 1 < s.frame.locals.length := by omega
        simp [hl, List.getD, List.getElem?_eq_getElem this]
      · have : s.frame.locals.length ≤ n.toNat - 1 := by omega
        simp [hl, List.getElem?_eq_none this]
    · simp only [h15, if_false]
      unfold readWord Memory.wordAt
      by_cases hg : s.globalAddr n + 1 < s.len
      · simp [hg, Except.map]
      · simp [hg, Except.map]

theorem readVar_ok_iff {n : Byte} {s t : State} {v : Word} :
    readVar n s = .ok (v, t) ↔ varReadable n s = true ∧ v = varValue n s ∧ t = afterVar n s := by
  rw [readVar_eq]
  cases varReadable n s <;> simp [eq_comm]

theorem writeVar_ok {n : Byte} {v : Word} {s : State} (h : varWritable n s = true) :
    writeVar n v s = .ok (withVar n v s) := by
  unfold varWritable at h
  unfold writeVar withVar
  by_cases h0 : n.toNat = 0
  · simp only [h0, if_true, decide_eq_true_eq, push_eq] at *
    rw [if_pos h]
  · simp only [h0, if_false] at *
    by_cases h15 : n.toNat ≤ 15
    · simp only [h15, if_true, decide_eq_true_eq] at *
      rw [if_pos h]
    · simp only [h15, if_false, Bool.and_eq_true, decide_eq_true_eq] at *
      exact writeWord_ok_iff.mpr ⟨h.1, h.2, rfl⟩

theorem writeVar_error {n : Byte} {v : Word} {s : State} (h : varWritable n s = false) : ∃ k, writeVar n v s = .error k := by
  unfold varWritable at h
  unfold writeVar
  by_cases h0 : n.toNat = 0
  · simp only [h0, if_true, decide_eq_false_iff_not, push_eq] at *
    rw [if_neg h]; exact ⟨_, rfl⟩
  · simp only [h0, if_false] at *
    by_cases h15 : n.toNat ≤ 15
    · simp only [h15, if_true, decide_eq_false_iff_not] at *
      rw [if_neg h]; exact ⟨_, rfl⟩
    · simp only [h15, if_false, Bool.and_eq_false_iff, decide_eq_false_iff_not] at *
      unfold writeWord
      by_cases hl : s.globalAddr n + 1 < s.len
      · have : ¬ s.globalAddr n + 1 < s.hdr.staticBase.toNat := by tauto
        rw [if_pos hl, if_neg this]; exact ⟨_, rfl⟩
      · rw [if_neg hl]; exact ⟨_, rfl⟩

theorem writeVar_ok_iff {n : Byte} {v : Word} {s t : State} :
    writeVar n v s = .ok t ↔ varWritable n s = true ∧ t = withVar n v s := by
  cases h : varWritable n s
  · obtain ⟨k, hk⟩ := writeVar_error (v := v) h
    simp [hk]
  · rw [writeVar_ok h]; simp [eq_comm]

theorem readVarInPlace_eq (n : Byte) (s : State) :
    readVarInPlace n s = if varReadable n s then .ok (varValue n s) else .error (varFault n s) := by
  unfold readVarInPlace
  by_cases h0 : n.toNat = 0
  · simp [h0, peek_eq, varReadable, varValue, varFault]
  · rw [if_neg h0, readVar_eq]
    split <;> rfl

theorem readVarInPlace_ok_iff {n : Byte} {s : State} {v : Word} :
    readVarInPlace n s = .ok v ↔ varReadable n s = true ∧ v = varValue n s := by
  rw [readVarInPlace_eq]
  cases varReadable n s <;> simp [eq_comm]

theorem writeVarInPlace_ok_iff {n : Byte} {v : Word} {s t : State} :
    writeVarInPlace n v s = .ok t ↔ inPlaceWritable n s = true ∧ t = withVarInPlace n v s := by
  unfold writeVarInPlace inPlaceWritable withVarInPlace
  by_cases h0 : n.toNat = 0
  · simp only [h0, if_true, replaceTop_eq]
    cases hasTop s <;> simp [eq_comm]
  · simp only [h0, if_false, writeVar_ok_iff]

theorem varRef_ok_iff {op : Byte} {r : Word} {s : State} {n : Byte} :
    varRef op r s = .ok n ↔ r.toNat ≤ 255 ∧ n = loByte r := by
  unfold varRef
  split <;> simp_all [eq_comm]

/-- A variable updated in place: the reference is a variable number, the variable can be read and written, and the new
value is `f` of the old one (44_arith_branch.md R315 to R318). -/
theorem updateVar_ok_iff {op : Byte} {r : Word} {f : Word → Word} {s t : State} {v : Word} :
    updateVar op r f s = .ok (v, t) ↔
      r.toNat ≤ 255 ∧ varReadable (loByte r) s = true ∧ inPlaceWritable (loByte r) s = true ∧
        v = f (varValue (loByte r) s) ∧ t = withVarInPlace (loByte r) v s := by
  unfold updateVar
  constructor
  · intro h
    cases h1 : varRef op r s with
    | error e => rw [h1] at h; cases h
    | ok n =>
      rw [h1] at h
      obtain ⟨hr, rfl⟩ := varRef_ok_iff.mp h1
      cases h2 : readVarInPlace (loByte r) s with
      | error e => simp only [bind, Except.bind, h2] at h; cases h
      | ok w =>
        obtain ⟨hv, rfl⟩ := readVarInPlace_ok_iff.mp h2
        simp only [bind, Except.bind, h2] at h
        cases h3 : writeVarInPlace (loByte r) (f (varValue (loByte r) s)) s with
        | error e => rw [h3] at h; cases h
        | ok u =>
          obtain ⟨hw, rfl⟩ := writeVarInPlace_ok_iff.mp h3
          rw [h3] at h
          cases h
          exact ⟨hr, hv, hw, rfl, rfl⟩
  · rintro ⟨hr, hv, hw, rfl, rfl⟩
    simp only [bind, Except.bind, varRef_ok_iff.mpr ⟨hr, rfl⟩, readVarInPlace_ok_iff.mpr ⟨hv, rfl⟩,
      writeVarInPlace_ok_iff.mpr ⟨hw, rfl⟩]

theorem updateVar_bad {op : Byte} {r : Word} {f : Word → Word} {s : State} (h : 255 < r.toNat) :
    updateVar op r f s = .error (.decode (.badVariableRef s.pc op)) := by
  unfold updateVar varRef
  rw [if_neg (by omega)]
  rfl

/-- A variable write changes no part of the frame but its locals. -/
theorem withVar_frame (n : Byte) (v : Word) (s : State) :
    (withVar n v s).frame = { s.frame with locals := (withVar n v s).frame.locals } := by
  unfold withVar
  split
  · rfl
  · split <;> rfl

theorem withVar_locals_length (n : Byte) (v : Word) (s : State) :
    (withVar n v s).frame.locals.length = s.frame.locals.length := by
  unfold withVar
  split
  · rfl
  · split
    · simp [State.setLocal]
    · rfl

theorem withVar_locals_ne {n : Byte} (v : Word) (s : State) {k : Nat} (h : n.toNat ≠ k + 1) :
    (withVar n v s).frame.locals[k]? = s.frame.locals[k]? := by
  unfold withVar
  split
  · rfl
  · split
    · simp only [State.setLocal]
      rw [List.getElem?_set_ne (by omega)]
    · rfl

theorem withVarInPlace_frame (n : Byte) (v : Word) (s : State) :
    (withVarInPlace n v s).frame = { s.frame with locals := (withVarInPlace n v s).frame.locals } := by
  unfold withVarInPlace
  split
  · rfl
  · exact withVar_frame n v s

theorem withVarInPlace_locals_length (n : Byte) (v : Word) (s : State) :
    (withVarInPlace n v s).frame.locals.length = s.frame.locals.length := by
  unfold withVarInPlace
  split
  · rfl
  · exact withVar_locals_length n v s

theorem withVarInPlace_locals_ne {n : Byte} (v : Word) (s : State) {k : Nat} (h : n.toNat ≠ k + 1) :
    (withVarInPlace n v s).frame.locals[k]? = s.frame.locals[k]? := by
  unfold withVarInPlace
  split
  · rfl
  · exact withVar_locals_ne v s h

/-- A variable write changes no byte but those of the global it names. -/
theorem withVar_get {n : Byte} (v : Word) {s : State} {a : Nat} (hw : s.mem.wf)
    (h : 16 ≤ n.toNat → a ≠ s.globalAddr n ∧ a ≠ s.globalAddr n + 1) :
    (withVar n v s).mem.get a = s.mem.get a ∧ (withVar n v s).mem.wf := by
  unfold withVar
  split
  · exact ⟨rfl, hw⟩
  · split
    · exact ⟨rfl, hw⟩
    · obtain ⟨h1, h2⟩ := h (by omega)
      refine ⟨?_, State.wf_setWord _ _ hw⟩
      rw [State.setWord_mem, Memory.get_set_ne _ (Memory.wf_set _ _ hw) h2, Memory.get_set_ne _ hw h1]

/-! ## Operands -/

theorem resolve_ok_iff {o : Operand} {s t : State} {v : Word} :
    resolve o s = .ok (v, t) ↔ opReadable o s = true ∧ v = opValue o s ∧ t = opAfter o s := by
  cases o with
  | large w => simp [resolve, opReadable, opValue, opAfter, eq_comm]
  | small b => simp [resolve, opReadable, opValue, opAfter, zextWord, eq_comm]
  | var n => simp only [resolve, opReadable, opValue, opAfter, readVar_ok_iff]

theorem resolve_ok {o : Operand} {s : State} (h : opReadable o s = true) : resolve o s = .ok (opValue o s, opAfter o s) :=
  resolve_ok_iff.mpr ⟨h, rfl, rfl⟩

theorem resolveAll_ok_iff {os : List Operand} {s t : State} {vs : List Word} :
    resolveAll os s = .ok (vs, t) ↔ opsReadable os s = true ∧ vs = opValues os s ∧ t = opsAfter os s := by
  induction os generalizing s t vs with
  | nil => simp [resolveAll, opsReadable, opValues, opsAfter, eq_comm]
  | cons o os ih =>
    unfold resolveAll opsReadable opValues opsAfter
    constructor
    · intro h
      cases h1 : resolve o s with
      | error e => rw [h1] at h; cases h
      | ok p =>
        obtain ⟨v, u⟩ := p
        obtain ⟨hr, rfl, rfl⟩ := resolve_ok_iff.mp h1
        rw [h1] at h
        cases h2 : resolveAll os (opAfter o s) with
        | error e => simp only [bind, Except.bind, h2] at h; cases h
        | ok q =>
          obtain ⟨ws, w⟩ := q
          obtain ⟨hq, rfl, rfl⟩ := ih.mp h2
          simp only [bind, Except.bind, h2] at h
          cases h
          exact ⟨by simp [hr, hq], rfl, rfl⟩
    · rintro ⟨hr, rfl, rfl⟩
      rw [Bool.and_eq_true] at hr
      simp only [bind, Except.bind, resolve_ok hr.1, ih.mpr ⟨hr.2, rfl, rfl⟩]

theorem resolveAll_ok {os : List Operand} {s : State} (h : opsReadable os s = true) :
    resolveAll os s = .ok (opValues os s, opsAfter os s) := resolveAll_ok_iff.mpr ⟨h, rfl, rfl⟩

/-! ## Control transfer -/

theorem jumpTo_ok_iff {target : Int} {s t : State} : jumpTo target s = .ok t ↔ 0 ≤ target ∧ t = { s with pc := target.toNat } := by
  unfold jumpTo
  split
  · simp; omega
  · simp [eq_comm]; omega

theorem returnValue_ok_iff {v : Word} {s t : State} :
    returnValue v s = .ok t ↔ returnable s = true ∧ t = afterReturn v s := by
  unfold returnValue returnable afterReturn
  rcases hc : s.callers with _ | ⟨c, rest⟩
  · simp [eq_comm]
  · rcases hr : s.frame.returnPc with _ | ra
    · simp [eq_comm]
    · rcases hs : s.frame.storeVar with _ | n
      · simp [eq_comm]
      · simp [writeVar_ok_iff]

theorem returnValue_ok {v : Word} {s : State} (h : returnable s = true) : returnValue v s = .ok (afterReturn v s) :=
  returnValue_ok_iff.mpr ⟨h, rfl⟩

/-- A return halts, or goes to the caller, storing or not (R277, R278). -/
theorem afterReturn_cases (v : Word) (s : State) :
    (s.callers = [] ∨ s.frame.returnPc = none) ∧ afterReturn v s = { s with status := .halted } ∨
      ∃ c rest ra, s.callers = c :: rest ∧ s.frame.returnPc = some ra ∧
        (s.frame.storeVar = none ∧ afterReturn v s = s.popFrame c rest ra ∨
          ∃ n, s.frame.storeVar = some n ∧ afterReturn v s = withVar n v (s.popFrame c rest ra)) := by
  unfold afterReturn
  rcases hc : s.callers with _ | ⟨c, rest⟩
  · left
    rw [← hc]
    simp [hc]
  · rcases hr : s.frame.returnPc with _ | ra
    · left
      simp
    · right
      refine ⟨c, rest, ra, rfl, rfl, ?_⟩
      rcases hs : s.frame.storeVar with _ | n <;> simp

theorem branch_ok_iff {i : Instr} {br : Branch} {cond : Bool} {s t : State} :
    branch i br cond s = .ok t ↔ branchable i br cond s = true ∧ t = afterBranch i br cond s := by
  unfold branch branchable afterBranch
  by_cases hc : cond = br.onTrue
  · simp only [hc, if_true]
    by_cases h0 : br.offset.value = 0
    · simp [h0, returnValue_ok_iff]
    · by_cases h1 : br.offset.value = 1
      · simp [h1, returnValue_ok_iff]
      · simp [h0, h1, jumpTo_ok_iff, branchTarget]
  · simp [hc, eq_comm]

theorem branch_ok {i : Instr} {br : Branch} {cond : Bool} {s : State} (h : branchable i br cond s = true) :
    branch i br cond s = .ok (afterBranch i br cond s) := branch_ok_iff.mpr ⟨h, rfl⟩

/-! ## Storing a result -/

theorem storeNext_ok_iff {i : Instr} {st : Byte} {v : Word} {s t : State} :
    storeNext i st v s = .ok t ↔ varWritable st s = true ∧ t = advance i (withVar st v s) := by
  unfold storeNext
  cases h : varWritable st s
  · obtain ⟨k, hk⟩ := writeVar_error (v := v) h
    simp [hk, Except.map]
  · simp [writeVar_ok h, Except.map, eq_comm]

theorem storeNext_ok {i : Instr} {st : Byte} {v : Word} {s : State} (h : varWritable st s = true) :
    storeNext i st v s = .ok (advance i (withVar st v s)) := storeNext_ok_iff.mpr ⟨h, rfl⟩

theorem storeBranch_ok_iff {i : Instr} {st : Byte} {v : Word} {br : Branch} {cond : Bool} {s t : State} :
    storeBranch i st v br cond s = .ok t ↔
      varWritable st s = true ∧ branchable i br cond (withVar st v s) = true ∧
        t = afterBranch i br cond (withVar st v s) := by
  unfold storeBranch
  cases h : varWritable st s
  · obtain ⟨k, hk⟩ := writeVar_error (v := v) h
    simp [hk, bind, Except.bind]
  · simp [writeVar_ok h, bind, Except.bind, branch_ok_iff]

/-! ## Ending an instruction -/

theorem finish_next (op : Byte) (s t : State) (r : Except FaultKind State) :
    finish op s r = .next t ↔ r = .ok t ∨ ∃ k, r = .error k ∧ t = takeFault k (some op) s := by
  unfold finish
  cases r <;> simp [eq_comm]

/-- Every meaning ends with a next state: a fault is taken by the machine. -/
theorem finish_total (op : Byte) (s : State) (r : Except FaultKind State) : ∃ t, finish op s r = .next t := by
  cases r <;> exact ⟨_, rfl⟩

theorem with0_eq (i : Instr) (s : State) (body : State → Except FaultKind State) :
    with0 i s body = finish i.opbyte s (body s) := rfl

theorem with1_ok {i : Instr} {a : Operand} {s : State} (body : Word → State → Except FaultKind State)
    (h : opReadable a s = true) : with1 i a s body = finish i.opbyte s (body (opValue a s) (opAfter a s)) := by
  unfold with1
  simp only [bind, Except.bind, resolve_ok h]

theorem with2_ok {i : Instr} {a b : Operand} {s : State} (body : Word → Word → State → Except FaultKind State)
    (h : opsReadable [a, b] s = true) :
    with2 i a b s body =
      finish i.opbyte s (body (opValue a s) (opValue b (opAfter a s)) (opsAfter [a, b] s)) := by
  simp only [opsReadable, Bool.and_true, Bool.and_eq_true] at h
  unfold with2
  simp only [bind, Except.bind, resolve_ok h.1, resolve_ok h.2, opsAfter]

theorem with3_ok {i : Instr} {a b c : Operand} {s : State} (body : Word → Word → Word → State → Except FaultKind State)
    (h : opsReadable [a, b, c] s = true) :
    with3 i a b c s body =
      finish i.opbyte s
        (body (opValue a s) (opValue b (opAfter a s)) (opValue c (opAfter b (opAfter a s)))
          (opsAfter [a, b, c] s)) := by
  simp only [opsReadable, Bool.and_true, Bool.and_eq_true] at h
  unfold with3
  simp only [bind, Except.bind, resolve_ok h.1, resolve_ok h.2.1, resolve_ok h.2.2, opsAfter]

theorem withMore_ok {i : Instr} {a : Operand} {more : List Operand} {s : State}
    (body : Word → List Word → State → Except FaultKind State) (h : opsReadable (a :: more) s = true) :
    withMore i a more s body =
      finish i.opbyte s (body (opValue a s) (opValues more (opAfter a s)) (opsAfter (a :: more) s)) := by
  simp only [opsReadable, Bool.and_eq_true] at h
  unfold withMore
  simp only [bind, Except.bind, resolve_ok h.1, resolveAll_ok h.2, opsAfter]

end Sys2Proof.Machine
end

