-- ==== Sys2Proof/Laws/Text.lean ====
section
/-! SUPPORT. The text engine: what one Z-character does, what the walk along a string gives, decimal digits. -/

namespace Sys2Proof.Machine

/-! ## Decoding (41_text.md R190) -/

@[simp] theorem decodeChars_nil (e : Option (Nat → Except FaultKind (List Zscii))) (start : Nat) (alpha : Alphabet) :
    decodeChars e start alpha [] = .ok [] := by
  rw [decodeChars.eq_def]

/-- One turn of the loop. -/
theorem decodeChars_cons (e : Option (Nat → Except FaultKind (List Zscii))) (start : Nat) (alpha : Alphabet) (z : ZChar)
    (zs : List ZChar) :
    decodeChars e start alpha (z :: zs) =
      if alpha = .a2 ∧ z = 6 then
        match zs with
        | hi :: lo :: rest => (decodeChars e start .a0 rest).map ((hi ++ lo) :: ·)
        | _ => .error (.text (.orphanedEscape start))
      else if z = 0 then (decodeChars e start .a0 zs).map (32 :: ·)
      else if z.toNat ≤ 3 then
        match e with
        | none => .error (.text (.nestedAbbreviation start))
        | some f =>
          match zs with
          | [] => .error (.text (.truncatedAbbreviation start))
          | x :: rest => do
            let cs ← f (abbrevIndex z x)
            let ds ← decodeChars e start .a0 rest
            .ok (cs ++ ds)
      else if z = 4 then decodeChars e start .a1 zs
      else if z = 5 then decodeChars e start .a2 zs
      else (decodeChars e start .a0 zs).map (alphabetCode alpha z :: ·) := by
  (conv => lhs; rw [decodeChars.eq_def]) <;> rfl

theorem decodeChars_space (e : Option (Nat → Except FaultKind (List Zscii))) (start : Nat) (alpha : Alphabet)
    (zs : List ZChar) : decodeChars e start alpha (0 :: zs) = (decodeChars e start .a0 zs).map (32 :: ·) := by
  rw [decodeChars_cons, if_neg (by simp), if_pos rfl]

theorem decodeChars_shift1 (e : Option (Nat → Except FaultKind (List Zscii))) (start : Nat) (alpha : Alphabet)
    (zs : List ZChar) : decodeChars e start alpha (4 :: zs) = decodeChars e start .a1 zs := by
  rw [decodeChars_cons, if_neg (by simp), if_neg (by decide), if_neg (by decide), if_pos rfl]

theorem decodeChars_shift2 (e : Option (Nat → Except FaultKind (List Zscii))) (start : Nat) (alpha : Alphabet)
    (zs : List ZChar) : decodeChars e start alpha (5 :: zs) = decodeChars e start .a2 zs := by
  rw [decodeChars_cons, if_neg (by simp), if_neg (by decide), if_neg (by decide), if_neg (by decide), if_pos rfl]

theorem decodeChars_escape (e : Option (Nat → Except FaultKind (List Zscii))) (start : Nat) (hi lo : ZChar)
    (zs : List ZChar) :
    decodeChars e start .a2 (6 :: hi :: lo :: zs) = (decodeChars e start .a0 zs).map ((hi ++ lo) :: ·) := by
  rw [decodeChars_cons, if_pos ⟨rfl, rfl⟩]

/-- A Z-character that is a code of the current alphabet. -/
theorem decodeChars_code (e : Option (Nat → Except FaultKind (List Zscii))) (start : Nat) {alpha : Alphabet} {z : ZChar}
    (zs : List ZChar) (h : 6 ≤ z.toNat) (h2 : alpha = .a2 → z ≠ 6) :
    decodeChars e start alpha (z :: zs) = (decodeChars e start .a0 zs).map (alphabetCode alpha z :: ·) := by
  rw [decodeChars_cons, if_neg (fun h' => h2 h'.1 h'.2), if_neg (by rintro rfl; simp at h), if_neg (by omega),
    if_neg (by rintro rfl; simp at h), if_neg (by rintro rfl; simp at h)]

/-- The two halves of a code, as the escape spells it (R186). -/
theorem append_halves (c : Zscii) : c.extractLsb' 5 5 ++ c.extractLsb' 0 5 = c := by
  apply BitVec.eq_of_getLsbD_eq
  intro k hk
  rw [BitVec.getLsbD_append]
  split
  · simp [*]
  · rename_i h
    have : k - 5 < 5 := by omega
    simp [this, show 5 + (k - 5) = k by omega]

/-- Appending a Z-character is one base-32 digit more (R180, R186). -/
theorem append_zchar_toNat {n : Nat} (hi : BitVec n) (lo : ZChar) : (hi ++ lo).toNat = 32 * hi.toNat + lo.toNat := by
  rw [BitVec.toNat_append, ← Nat.shiftLeft_add_eq_or_of_lt lo.isLt, Nat.shiftLeft_eq]
  omega

theorem escape_toNat (hi lo : ZChar) : (hi ++ lo).toNat = 32 * hi.toNat + lo.toNat := append_zchar_toNat hi lo

theorem packChars_toNat (last : Bool) (a b c : ZChar) :
    (packChars last a b c).toNat = (if last then 0x8000 else 0) + 1024 * a.toNat + 32 * b.toNat + c.toNat := by
  unfold packChars
  rw [append_zchar_toNat, append_zchar_toNat, append_zchar_toNat]
  cases last <;> simp <;> omega

/-- Decoding what one code encodes to gives the code back (R195). -/
theorem decodeChars_encodeChar (e : Option (Nat → Except FaultKind (List Zscii))) (start : Nat) (c : Zscii)
    (zs : List ZChar) :
    decodeChars e start .a0 (encodeChar c ++ zs) = (decodeChars e start .a0 zs).map (c :: ·) := by
  unfold encodeChar
  split
  · have hc : ∀ c : Zscii, 97 ≤ c.toNat ∧ c.toNat ≤ 122 →
        6 ≤ (BitVec.ofNat 5 (c.toNat - 91)).toNat ∧ alphabetCode .a0 (BitVec.ofNat 5 (c.toNat - 91)) = c := by decide
    rename_i h
    rw [List.singleton_append, decodeChars_code _ _ _ (hc c h).1 (by simp), (hc c h).2]
  · split
    · have hc : ∀ c : Zscii, 65 ≤ c.toNat ∧ c.toNat ≤ 90 →
          6 ≤ (BitVec.ofNat 5 (c.toNat - 59)).toNat ∧ alphabetCode .a1 (BitVec.ofNat 5 (c.toNat - 59)) = c := by decide
      rename_i h
      rw [List.cons_append, decodeChars_shift1, List.singleton_append, decodeChars_code _ _ _ (hc c h).1 (by simp),
        (hc c h).2]
    · split
      · rename_i h
        subst h
        rw [List.singleton_append, decodeChars_space]
      · split
        · have hc : ∀ c : Zscii,
              (a2Char c).all (fun z => decide (6 ≤ z.toNat ∧ z ≠ 6 ∧ alphabetCode .a2 z = c)) = true := by decide
          rename_i z h
          have hz' := hc c
          rw [h] at hz'
          obtain ⟨h6, hz, hd⟩ := of_decide_eq_true hz'
          rw [List.cons_append, decodeChars_shift2, List.singleton_append, decodeChars_code _ _ _ h6 (fun _ => hz), hd]
        · rw [List.cons_append, decodeChars_shift2, List.cons_append, List.cons_append, List.singleton_append,
            decodeChars_escape, append_halves]

/-! ## Strings (R180, R192) -/

/-- The walk ends at the first word with bit 15 set, if the image reaches that far. -/
theorem Memory.stringFrom_ok_iff (m : Memory) (len : Nat) {fuel a : Nat} {acc ws : List Word} (hf : len < fuel + a) :
    m.stringFrom len fuel a acc = .ok ws ↔
      ∃ vs, ws = acc.reverse ++ vs ∧ textEnds vs = true ∧ a + 2 * vs.length ≤ len ∧
        ∀ k, k < vs.length → vs[k]? = some (m.getWord (a + 2 * k)) := by
  induction fuel generalizing a acc with
  | zero =>
    constructor
    · intro h
      cases h
    · rintro ⟨vs, -, hv, hl, -⟩
      cases vs with
      | nil => simp [textEnds] at hv
      | cons => simp only [List.length_cons] at hl; omega
  | succ fuel ih =>
    unfold Memory.stringFrom Memory.wordAt
    by_cases hl : a + 1 < len
    · simp only [if_pos hl]
      by_cases hb : (m.getWord a).getLsbD 15 = true
      · rw [if_pos hb]
        constructor
        · intro h
          cases h
          refine ⟨[m.getWord a], by simp, by simpa [textEnds] using hb, by simp; omega, fun k hk => ?_⟩
          simp only [List.length_singleton, Nat.lt_one_iff] at hk
          subst hk
          simp
        · rintro ⟨vs, rfl, hv, -, hk⟩
          match vs, hv with
          | [w], _ =>
            have := hk 0 (by simp)
            simp only [List.getElem?_cons_zero, Nat.mul_zero, Nat.add_zero, Option.some.injEq] at this
            subst this
            simp
          | w :: w' :: vs, hv =>
            have := hk 0 (by simp)
            simp only [List.getElem?_cons_zero, Nat.mul_zero, Nat.add_zero, Option.some.injEq] at this
            subst this
            rw [textEnds, hb] at hv
            · simp at hv
            · simp
      · rw [if_neg hb, ih (by omega)]
        constructor
        · rintro ⟨vs, rfl, hv, hl', hk⟩
          refine ⟨m.getWord a :: vs, by simp, ?_, by simp; omega, fun k hk' => ?_⟩
          · cases vs with
            | nil => simp [textEnds] at hv
            | cons w vs =>
              rw [textEnds, hv, Bool.not_eq_true _ |>.mp hb]
              · rfl
              · simp
          · cases k with
            | zero => simp
            | succ k =>
              rw [List.getElem?_cons_succ, hk k (by simpa using hk')]
              congr 2
              omega
        · rintro ⟨vs, rfl, hv, hl', hk⟩
          match vs, hv with
          | [w], hv =>
            have := hk 0 (by simp)
            simp only [List.getElem?_cons_zero, Nat.mul_zero, Nat.add_zero, Option.some.injEq] at this
            subst this
            exact absurd hv hb
          | w :: w' :: vs, hv =>
            have := hk 0 (by simp)
            simp only [List.getElem?_cons_zero, Nat.mul_zero, Nat.add_zero, Option.some.injEq] at this
            subst this
            refine ⟨w' :: vs, by simp, ?_, by simp only [List.length_cons] at *; omega, fun k hk' => ?_⟩
            · rw [textEnds, Bool.and_eq_true] at hv
              · exact hv.2
              · simp
            · have := hk (k + 1) (by simpa using hk')
              rw [List.getElem?_cons_succ] at this
              rw [this]
              congr 2
              omega
    · simp only [if_neg hl]
      constructor
      · intro h
        cases h
      · rintro ⟨vs, -, hv, hl', -⟩
        cases vs with
        | nil => simp [textEnds] at hv
        | cons => simp only [List.length_cons] at hl'; omega

theorem Memory.stringAt_ok_iff {m : Memory} {len a : Nat} {ws : List Word} :
    m.stringAt len a = .ok ws ↔
      textEnds ws = true ∧ a + 2 * ws.length ≤ len ∧ ∀ k, k < ws.length → ws[k]? = some (m.getWord (a + 2 * k)) := by
  unfold Memory.stringAt
  rw [Memory.stringFrom_ok_iff _ _ (by omega)]
  simp

/-- A walk that meets no end bit faults at the first word that does not fit (R192). -/
theorem Memory.stringFrom_error (m : Memory) (len : Nat) {n fuel a : Nat} {acc : List Word} (hf : len < fuel + a)
    (hk : ∀ k, k < n → a + 2 * k + 1 < len ∧ (m.getWord (a + 2 * k)).getLsbD 15 = false) (hl : len ≤ a + 2 * n + 1) :
    m.stringFrom len fuel a acc = .error (.memory (.outOfBounds (a + 2 * n : Nat))) := by
  induction n generalizing fuel a acc with
  | zero =>
    cases fuel with
    | zero => rfl
    | succ fuel =>
      unfold Memory.stringFrom Memory.wordAt
      rw [if_neg (by omega)]
      rfl
  | succ n ih =>
    have h0 := hk 0 (by omega)
    cases fuel with
    | zero => omega
    | succ fuel =>
      unfold Memory.stringFrom Memory.wordAt
      rw [if_pos (by omega)]
      simp only
      rw [if_neg (by simpa using h0.2), ih (by omega) (fun k hk' => ?_) (by omega)]
      · congr 3
        omega
      · rw [show a + 2 + 2 * k = a + 2 * (k + 1) by omega]
        exact hk (k + 1) (by omega)

/-! ## Decimal digits (R204) -/

theorem decimalOf_spec (fuel : Nat) {n : Nat} (h : n < 10 ^ (fuel + 1)) :
    ∃ ds : List Nat, decimalOf fuel n = ds.map digitCode ∧ (∀ d ∈ ds, d ≤ 9) ∧ ds ≠ [] ∧ (ds.head? = some 0 → ds = [0]) ∧
      ds.foldl (fun n d => 10 * n + d) 0 = n := by
  induction fuel generalizing n with
  | zero => exact ⟨[n], rfl, by simp; omega, by simp, by simp, by simp⟩
  | succ fuel ih =>
    unfold decimalOf
    by_cases hn : n < 10
    · rw [if_pos hn]
      exact ⟨[n], rfl, by simp; omega, by simp, by simp, by simp⟩
    · rw [if_neg hn]
      obtain ⟨ds, h1, h2, h3, h4, h5⟩ := ih (n := n / 10) (by rw [pow_succ] at h; omega)
      refine ⟨ds ++ [n % 10], by simp [h1], ?_, by simp, ?_, ?_⟩
      · intro d hd
        rcases List.mem_append.mp hd with hd | hd
        · exact h2 d hd
        · simp only [List.mem_singleton] at hd
          omega
      · intro h0
        rw [List.head?_append_of_ne_nil _ h3] at h0
        have := h4 h0
        subst this
        simp at h5
        omega
      · rw [List.foldl_append, h5]
        simp only [List.foldl_cons, List.foldl_nil]
        omega

end Sys2Proof.Machine
end

