-- ==== Sys2Proof/Laws/Decode.lean ====
section
/-! SUPPORT. The decoder part by part: when each reader answers, and that the bytes it read are those the encoder writes. -/

namespace Sys2Proof

open Sys2Proof.Machine

/-! ## Bytes in place -/

/-- The bytes `bs` stand in `m` from address `p` on. -/
def holds (m : Memory) (p : Nat) (bs : List Byte) : Prop := ∀ k, k < bs.length → m.get (p + k) = bs.getD k 0

@[simp] theorem holds_nil (m : Memory) (p : Nat) : holds m p [] := by
  intro k hk
  simp at hk

theorem holds_cons {m : Memory} {p : Nat} {b : Byte} {bs : List Byte} :
    holds m p (b :: bs) ↔ m.get p = b ∧ holds m (p + 1) bs := by
  constructor
  · intro h
    refine ⟨by simpa using h 0 (by simp), fun k hk => ?_⟩
    have := h (k + 1) (by simpa using hk)
    rw [show p + (k + 1) = p + 1 + k by omega] at this
    simpa using this
  · rintro ⟨h0, h⟩ k hk
    cases k with
    | zero => simpa using h0
    | succ k =>
      have := h k (by simpa using hk)
      rw [show p + 1 + k = p + (k + 1) by omega] at this
      simpa using this

theorem holds_append {m : Memory} {p : Nat} {xs ys : List Byte} :
    holds m p (xs ++ ys) ↔ holds m p xs ∧ holds m (p + xs.length) ys := by
  induction xs generalizing p with
  | nil => simp
  | cons x xs ih =>
    rw [List.cons_append, holds_cons, holds_cons, ih, and_assoc, List.length_cons,
      show p + 1 + xs.length = p + (xs.length + 1) by omega]

theorem holds_word {m : Memory} {p : Nat} {w : Word} : holds m p [hiByte w, loByte w] ↔ m.getWord p = w := by
  rw [holds_cons, holds_cons]
  constructor
  · rintro ⟨h1, h2, -⟩
    rw [Memory.getWord, h1, h2, wordOf_hi_lo]
  · rintro rfl
    exact ⟨by rw [Memory.getWord, hiByte_wordOf], by rw [Memory.getWord, loByte_wordOf], by simp⟩

/-! ## Lengths (R104) -/

theorem Operand.bytes_length (o : Operand) : o.bytes.length = o.size := by cases o <;> rfl

theorem Branch.bytes_length (br : Branch) : br.bytes.length = br.size := by
  unfold Branch.bytes Branch.size
  cases br.offset <;> rfl

theorem operands_length (ops : List Operand) : (ops.flatMap Operand.bytes).length = (ops.map Operand.size).sum := by
  induction ops with
  | nil => rfl
  | cons o os ih => simp [Operand.bytes_length, ih]

theorem text_length (text : List Word) : (text.flatMap fun w => [hiByte w, loByte w]).length = 2 * text.length := by
  induction text with
  | nil => rfl
  | cons w ws ih => simp only [List.flatMap_cons, List.length_append, ih, List.length_cons, List.length_nil]; omega

theorem Decoded.bytes_length (d : Decoded) : d.bytes.length = d.size := by
  unfold Decoded.bytes Decoded.size
  simp only [List.length_cons, List.length_append, operands_length, text_length]
  have h1 : ((d.branch.map Branch.bytes).getD []).length = (d.branch.map Branch.size).getD 0 := by
    cases d.branch with
    | none => rfl
    | some br => exact br.bytes_length
  rw [h1]
  split <;> simp only [List.length_cons, List.length_nil] <;> omega

/-- An instruction's size is the length of its encoding. -/
theorem encode_length (i : Instr) : (encode i).length = i.size := i.parts.bytes_length

theorem Instr.size_pos (i : Instr) : 0 < i.size := by
  unfold Instr.size Decoded.size
  omega

/-! ## The readers -/

theorem readOperands_ok_iff {m : Memory} {len : Nat} {ts : List OpType} {p : Nat} {ops : List Operand} {q : Nat}
    (hp : p ≤ len) :
    readOperands m len ts p = .ok (ops, q) ↔
      ops.map Operand.type = ts ∧ q = p + (ops.map Operand.size).sum ∧ q ≤ len ∧ holds m p (ops.flatMap Operand.bytes) := by
  induction ts generalizing p ops q with
  | nil =>
    simp only [readOperands, Except.ok.injEq, Prod.mk.injEq, List.map_eq_nil_iff]
    constructor
    · rintro ⟨rfl, rfl⟩
      simpa using hp
    · rintro ⟨rfl, rfl, -⟩
      simp
  | cons t ts ih =>
    constructor
    · intro h
      cases t with
      | large =>
        obtain ⟨v, hv, h⟩ := bind_ok_iff.mp h
        obtain ⟨⟨os, r⟩, hr, h⟩ := bind_ok_iff.mp h
        cases h
        unfold Memory.wordAt at hv
        split at hv
        · cases hv
          obtain ⟨rfl, rfl, hl, hh⟩ := (ih (by omega)).mp hr
          refine ⟨rfl, by simp [Operand.size]; omega, hl, ?_⟩
          rw [List.flatMap_cons, holds_append]
          exact ⟨holds_word.mpr rfl, hh⟩
        · cases hv
      | small =>
        obtain ⟨v, hv, h⟩ := bind_ok_iff.mp h
        obtain ⟨⟨os, r⟩, hr, h⟩ := bind_ok_iff.mp h
        cases h
        unfold Memory.byteAt at hv
        split at hv
        · cases hv
          obtain ⟨rfl, rfl, hl, hh⟩ := (ih (by omega)).mp hr
          refine ⟨rfl, by simp [Operand.size]; omega, hl, ?_⟩
          rw [List.flatMap_cons, holds_append]
          exact ⟨holds_cons.mpr ⟨rfl, by simp⟩, hh⟩
        · cases hv
      | var =>
        obtain ⟨v, hv, h⟩ := bind_ok_iff.mp h
        obtain ⟨⟨os, r⟩, hr, h⟩ := bind_ok_iff.mp h
        cases h
        unfold Memory.byteAt at hv
        split at hv
        · cases hv
          obtain ⟨rfl, rfl, hl, hh⟩ := (ih (by omega)).mp hr
          refine ⟨rfl, by simp [Operand.size]; omega, hl, ?_⟩
          rw [List.flatMap_cons, holds_append]
          exact ⟨holds_cons.mpr ⟨rfl, by simp⟩, hh⟩
        · cases hv
    · rintro ⟨ht, rfl, hl, hh⟩
      cases ops with
      | nil => cases ht
      | cons o os =>
        rw [List.map_cons, List.cons.injEq] at ht
        obtain ⟨rfl, ht⟩ := ht
        rw [List.flatMap_cons, holds_append] at hh
        simp only [List.map_cons, List.sum_cons] at hl ⊢
        cases o with
        | large v =>
          simp only [Operand.size] at hl ⊢
          have hv : m.getWord p = v := holds_word.mp hh.1
          simp only [readOperands, Operand.type, Memory.wordAt, if_pos (show p + 1 < len by omega), hv, ok_bind]
          rw [(ih (p := p + 2) (by omega)).mpr ⟨ht, rfl, by omega, hh.2⟩, ok_bind]
          simp only [Except.ok.injEq, Prod.mk.injEq, true_and]
          omega
        | small v =>
          simp only [Operand.size] at hl ⊢
          have hv : m.get p = v := (holds_cons.mp hh.1).1
          simp only [readOperands, Operand.type, Memory.byteAt, if_pos (show p < len by omega), hv, ok_bind]
          rw [(ih (p := p + 1) (by omega)).mpr ⟨ht, rfl, by omega, hh.2⟩, ok_bind]
          simp only [Except.ok.injEq, Prod.mk.injEq, true_and]
          omega
        | var v =>
          simp only [Operand.size] at hl ⊢
          have hv : m.get p = v := (holds_cons.mp hh.1).1
          simp only [readOperands, Operand.type, Memory.byteAt, if_pos (show p < len by omega), hv, ok_bind]
          rw [(ih (p := p + 1) (by omega)).mpr ⟨ht, rfl, by omega, hh.2⟩, ok_bind]
          simp only [Except.ok.injEq, Prod.mk.injEq, true_and]
          omega

theorem holds_text {m : Memory} {p : Nat} {ws : List Word} :
    holds m p (ws.flatMap fun w => [hiByte w, loByte w]) ↔
      ∀ k, k < ws.length → ws[k]? = some (m.getWord (p + 2 * k)) := by
  induction ws generalizing p with
  | nil => simp
  | cons w ws ih =>
    rw [List.flatMap_cons, holds_append, holds_word, ih]
    constructor
    · rintro ⟨rfl, h⟩ k hk
      cases k with
      | zero => simp
      | succ k =>
        rw [List.getElem?_cons_succ, h k (by simpa using hk)]
        congr 2
        simp only [List.length_cons, List.length_nil]
        omega
    · intro h
      refine ⟨by simpa using (h 0 (by simp)).symm, fun k hk => ?_⟩
      have := h (k + 1) (by simpa using hk)
      rw [List.getElem?_cons_succ] at this
      rw [this]
      congr 2
      simp only [List.length_cons, List.length_nil]
      omega

theorem readText_ok_iff {m : Memory} {len : Nat} {has : Bool} {p : Nat} {ws : List Word} {q : Nat} (hp : p ≤ len) :
    readText m len has p = .ok (ws, q) ↔
      (has = false → ws = []) ∧ (has = true → textEnds ws = true) ∧ q = p + 2 * ws.length ∧ q ≤ len ∧
        holds m p (ws.flatMap fun w => [hiByte w, loByte w]) := by
  unfold readText
  cases has with
  | false =>
    simp only [Bool.false_eq_true, if_false, Except.ok.injEq, Prod.mk.injEq, true_implies, false_implies, true_and]
    constructor
    · rintro ⟨rfl, rfl⟩
      simpa using hp
    · rintro ⟨rfl, rfl, -⟩
      simp
  | true =>
    simp only [if_true, Bool.true_eq_false, false_implies, true_implies, true_and, bind_ok_iff, Memory.stringAt_ok_iff,
      Except.ok.injEq, Prod.mk.injEq, holds_text]
    constructor
    · rintro ⟨vs, ⟨h1, h2, h3⟩, rfl, rfl⟩
      exact ⟨h1, rfl, h2, h3⟩
    · rintro ⟨h1, rfl, h2, h3⟩
      exact ⟨ws, ⟨h1, h2, h3⟩, rfl, rfl⟩

theorem readStore_ok_iff {m : Memory} {len : Nat} {has : Bool} {p : Nat} {st : Option Byte} {q : Nat} (hp : p ≤ len) :
    readStore m len has p = .ok (st, q) ↔
      st.isSome = has ∧ q = p + st.toList.length ∧ q ≤ len ∧ holds m p st.toList := by
  unfold readStore
  cases has with
  | false =>
    simp only [Bool.false_eq_true, if_false, Except.ok.injEq, Prod.mk.injEq]
    constructor
    · rintro ⟨rfl, rfl⟩
      simpa using hp
    · rintro ⟨h, rfl, -⟩
      cases st with
      | none => simp
      | some b => cases h
  | true =>
    simp only [if_true, bind_ok_iff, Memory.byteAt, Except.ok.injEq, Prod.mk.injEq]
    constructor
    · rintro ⟨b, hb, rfl, rfl⟩
      split at hb
      · cases hb
        exact ⟨by simp, rfl, by omega, holds_cons.mpr ⟨rfl, by simp⟩⟩
      · cases hb
    · rintro ⟨h, rfl, hl, hh⟩
      cases st with
      | none => cases h
      | some b =>
        simp only [Option.toList_some, List.length_singleton] at hl hh ⊢
        exact ⟨b, by rw [if_pos (by omega), (holds_cons.mp hh).1], by simp⟩

/-- Branch data and its first byte (R100). -/
theorem branchByte_short (b : Byte) (h : b.getLsbD 6 = true) :
    BitVec.ofBool (b.getLsbD 7) ++ (1 : BitVec 1) ++ b.extractLsb' 0 6 = b := by
  revert b
  decide

theorem branchByte_long (b : Byte) (h : b.getLsbD 6 = false) :
    BitVec.ofBool (b.getLsbD 7) ++ (0 : BitVec 1) ++ b.extractLsb' 0 6 = b := by
  revert b
  decide

theorem branchByte_bits (t : Bool) (c : BitVec 1) (k : BitVec 6) :
    (BitVec.ofBool t ++ c ++ k).getLsbD 7 = t ∧ (BitVec.ofBool t ++ c ++ k).getLsbD 6 = c.getLsbD 0 ∧
      (BitVec.ofBool t ++ c ++ k).extractLsb' 0 6 = k := by
  revert t c k
  decide

theorem split14 (a : BitVec 6) (b : Byte) : (a ++ b).extractLsb' 8 6 = a ∧ (a ++ b).extractLsb' 0 8 = b := by
  constructor
  · apply BitVec.eq_of_getLsbD_eq
    intro k hk
    simp only [BitVec.getLsbD_extractLsb', hk, decide_true, Bool.true_and, BitVec.getLsbD_append]
    rw [if_neg (by omega)]
    congr 1
    omega
  · apply BitVec.eq_of_getLsbD_eq
    intro k hk
    simp only [BitVec.getLsbD_extractLsb', hk, decide_true, Bool.true_and, BitVec.getLsbD_append, Nat.zero_add, if_true]

theorem join14 (k : BitVec 14) : k.extractLsb' 8 6 ++ k.extractLsb' 0 8 = k := by
  apply BitVec.eq_of_getLsbD_eq
  intro j hj
  rw [BitVec.getLsbD_append]
  split
  · simp [*]
  · rename_i h
    have : j - 8 < 6 := by omega
    simp [this, show 8 + (j - 8) = j by omega]

theorem readBranch_ok_iff {m : Memory} {len : Nat} {has : Bool} {p : Nat} {br : Option Branch} {q : Nat} (hp : p ≤ len) :
    readBranch m len has p = .ok (br, q) ↔
      br.isSome = has ∧ q = p + (br.map Branch.size).getD 0 ∧ q ≤ len ∧ holds m p ((br.map Branch.bytes).getD []) := by
  unfold readBranch
  cases has with
  | false =>
    simp only [Bool.false_eq_true, if_false, Except.ok.injEq, Prod.mk.injEq]
    constructor
    · rintro ⟨rfl, rfl⟩
      simpa using hp
    · rintro ⟨h, rfl, -⟩
      cases br with
      | none => simp
      | some b => cases h
  | true =>
    rw [if_pos rfl]
    constructor
    · intro h
      obtain ⟨b1, h1, h⟩ := bind_ok_iff.mp h
      unfold Memory.byteAt at h1
      split at h1
      · cases h1
        by_cases h6 : (m.get p).getLsbD 6 = true
        · rw [if_pos h6] at h
          cases h
          refine ⟨rfl, rfl, by omega, holds_cons.mpr ⟨?_, by simp⟩⟩
          exact (branchByte_short _ h6).symm
        · rw [if_neg h6] at h
          obtain ⟨b2, h2, h⟩ := bind_ok_iff.mp h
          unfold Memory.byteAt at h2
          split at h2
          · cases h2
            cases h
            refine ⟨rfl, rfl, by omega, holds_cons.mpr ⟨?_, holds_cons.mpr ⟨?_, by simp⟩⟩⟩
            · simp only [(split14 _ _).1]
              exact (branchByte_long _ (by simpa using h6)).symm
            · simp only [(split14 _ _).2]
          · cases h2
      · cases h1
    · rintro ⟨h, rfl, hl, hh⟩
      match br, h with
      | some ⟨t, .short k⟩, _ =>
        simp only [Option.map_some, Option.getD_some, Branch.size, Branch.bytes] at hl hh ⊢
        have h0 := (holds_cons.mp hh).1
        have hb := branchByte_bits t 1 k
        rw [Memory.byteAt, if_pos (by omega), ok_bind, h0, hb.1, hb.2.1, hb.2.2]
        rfl
      | some ⟨t, .long k⟩, _ =>
        simp only [Option.map_some, Option.getD_some, Branch.size, Branch.bytes] at hl hh ⊢
        obtain ⟨h0, h1⟩ := holds_cons.mp hh
        have h1 := (holds_cons.mp h1).1
        have hb := branchByte_bits t 0 (k.extractLsb' 8 6)
        rw [Memory.byteAt, if_pos (by omega), ok_bind, h0, hb.1, hb.2.1, hb.2.2, if_neg (by decide), Memory.byteAt,
          if_pos (by omega), ok_bind, h1, join14]

/-! ## The opcode byte and the type byte -/

/-- The parts of an instruction that some bytes encode: form, operand count and presence of the other parts as the row
says (R91 to R94, R105 to R108). -/
structure Decoded.fits (d : Decoded) : Prop where
  form :
    (d.form = .long ∧ d.op.count = .op2 ∧ ∃ a b, d.ops = [a, b] ∧ a.fitsLong = true ∧ b.fitsLong = true) ∨
      (d.form = .short ∧ (d.op.count = .op0 ∧ d.ops = [] ∨ d.op.count = .op1 ∧ ∃ a, d.ops = [a])) ∨
      (d.form = .variable ∧ (d.op.count = .op2 ∨ d.op.count = .var))
  admits : d.op.admits d.ops.length = true
  store : d.store.isSome = d.op.hasStore
  branch : d.branch.isSome = d.op.hasBranch
  noText : d.op.hasText = false → d.text = []
  text : d.op.hasText = true → textEnds d.text = true

theorem Op.admits_le (o : Op) {n : Nat} (h : o.admits n = true) : n ≤ 4 := by
  have h4 : o.arity.2 ≤ 4 := by cases o <;> decide
  rw [Op.admits, Bool.and_eq_true, decide_eq_true_eq, decide_eq_true_eq] at h
  omega

/-- The opcode byte of a row in each form. -/
theorem classify_long (o : Op) (v w : Bool) (h : o.count = .op2) :
    classify (BitVec.ofNat 8 ((if v then 0x40 else 0) + (if w then 0x20 else 0) + o.num)) = (.long, .op2, o.num) ∧
      (BitVec.ofNat 8 ((if v then 0x40 else 0) + (if w then 0x20 else 0) + o.num)).getLsbD 6 = v ∧
      (BitVec.ofNat 8 ((if v then 0x40 else 0) + (if w then 0x20 else 0) + o.num)).getLsbD 5 = w := by
  cases o <;> first | (cases h; done) | (cases v <;> cases w <;> decide)

theorem classify_one (o : Op) (t : OpType) (h : o.count = .op1) :
    classify (BitVec.ofNat 8 (0x80 + 16 * t.code.toNat + o.num)) = (.short, .op1, o.num) ∧
      typeOf ((BitVec.ofNat 8 (0x80 + 16 * t.code.toNat + o.num)).extractLsb' 4 2) = some t := by
  cases o <;> first | (cases h; done) | (cases t <;> decide)

theorem classify_none (o : Op) (h : o.count = .op0) :
    classify (BitVec.ofNat 8 (0xB0 + o.num)) = (.short, .op0, o.num) ∧
      typeOf ((BitVec.ofNat 8 (0xB0 + o.num)).extractLsb' 4 2) = none := by
  cases o <;> first | (cases h; done) | decide

theorem classify_variable (o : Op) (h : o.count = .op2 ∨ o.count = .var) :
    classify (BitVec.ofNat 8 ((if o.count = .op2 then 0xC0 else 0xE0) + o.num)) = (.variable, o.count, o.num) := by
  cases o <;> first | (rcases h with h | h <;> cases h; done) | decide

theorem opcodeMap_row (o : Op) : opcodeMap o.count o.num = some o := by cases o <;> rfl

/-- A byte whose class names a row is that row's opcode byte (R110, R141, R142). -/
theorem classify_row (b : Byte) :
    ∀ o ∈ opcodeMap (classify b).2.1 (classify b).2.2,
      o.count = (classify b).2.1 ∧ o.num = (classify b).2.2 ∧
        ((classify b).1 = .long →
          o.count = .op2 ∧
            b = BitVec.ofNat 8 ((if b.getLsbD 6 then 0x40 else 0) + (if b.getLsbD 5 then 0x20 else 0) + o.num)) ∧
        ((classify b).1 = .short →
          o.count = .op0 ∧ typeOf (b.extractLsb' 4 2) = none ∧ b = BitVec.ofNat 8 (0xB0 + o.num) ∨
            o.count = .op1 ∧
              ∀ t ∈ typeOf (b.extractLsb' 4 2), b = BitVec.ofNat 8 (0x80 + 16 * t.code.toNat + o.num)) ∧
        ((classify b).1 = .variable →
          (o.count = .op2 ∨ o.count = .var) ∧ b = BitVec.ofNat 8 ((if o.count = .op2 then 0xC0 else 0xE0) + o.num)) := by
  revert b
  decide

/-- The type byte of a list of types, the rest omitted. -/
def typeByteOf (ts : List OpType) : Byte :=
  let code (k : Nat) : BitVec 2 := ((ts[k]?).map OpType.code).getD 3
  code 0 ++ code 1 ++ code 2 ++ code 3

theorem typeByte_eq (ops : List Operand) : typeByte ops = typeByteOf (ops.map Operand.type) := by
  unfold typeByte typeByteOf
  simp [List.getElem?_map, Function.comp_def]

theorem typeOf_code (t : OpType) : typeOf t.code = some t := by cases t <;> rfl

theorem typeList_typeByteOf (pol : AfterOmit) (ts : List OpType) (h : ts.length ≤ 4) :
    typeList pol (typeFields (typeByteOf ts)) = some ts := by
  match ts, h with
  | [], _ => cases pol <;> decide
  | [a], _ => cases a <;> cases pol <;> decide
  | [a, b], _ => cases a <;> cases b <;> cases pol <;> decide
  | [a, b, c], _ => cases a <;> cases b <;> cases c <;> cases pol <;> decide
  | [a, b, c, d], _ => cases a <;> cases b <;> cases c <;> cases d <;> cases pol <;> decide
  | _ :: _ :: _ :: _ :: _ :: us, h => simp only [List.length_cons] at h; omega

theorem typeList_length (pol : AfterOmit) (cs : List (BitVec 2)) (ts : List OpType) (h : typeList pol cs = some ts) :
    ts.length ≤ cs.length := by
  induction cs generalizing ts with
  | nil => cases h; simp
  | cons c cs ih =>
    unfold typeList at h
    split at h
    · cases hc : typeList pol cs with
      | none => rw [hc] at h; cases h
      | some us =>
        rw [hc] at h
        cases h
        have := ih us hc
        simp only [List.length_cons]
        omega
    · split at h
      · cases h
      · cases h
        simp

/-- Under the strict policy the type byte is determined by the types (R112). -/
theorem typeByteOf_typeList (tb : Byte) (ts : List OpType) (h : typeList .fault (typeFields tb) = some ts) :
    typeByteOf ts = tb := by
  have key : ∀ tb : Byte, ((typeList .fault (typeFields tb)).map typeByteOf).getD tb = tb := by decide
  have := key tb
  rw [h] at this
  simpa using this

/-! ## The parts -/

/-- The types the opcode byte and the type byte give, and where the operands start (R143). -/
theorem operandTypes_ok {d : Decoded} (hd : d.fits) (pol : AfterOmit) {m : Memory} {len pc : Nat}
    (h0 : m.get pc = d.opbyte)
    (h1 : d.form = .variable → typeList pol (typeFields (m.get (pc + 1))) = some (d.ops.map Operand.type))
    (hl : d.form = .variable → pc + 1 < len) :
    classify (m.get pc) = (d.form, d.op.count, d.op.num) ∧
      operandTypes pol m len pc (m.get pc) d.form d.op.count =
        .ok (d.ops.map Operand.type, pc + 1 + if d.form = .variable then 1 else 0) := by
  obtain ⟨op, form, ops, text, store, branch⟩ := d
  rcases hd.form with ⟨hf, hc, a, b, ho, ha, hb⟩ | ⟨hf, hc⟩ | ⟨hf, hc⟩
  · simp only at hf hc ho
    subst hf ho
    have hbyte : Decoded.opbyte ⟨op, .long, [a, b], text, store, branch⟩ =
        BitVec.ofNat 8 ((if decide (a.type = .var) then 0x40 else 0) + (if decide (b.type = .var) then 0x20 else 0) + op.num) := by
      simp [Decoded.opbyte]
    obtain ⟨c1, c2, c3⟩ := classify_long op (decide (a.type = .var)) (decide (b.type = .var)) hc
    rw [h0, hbyte]
    refine ⟨by rw [c1, hc], ?_⟩
    simp only [operandTypes, c2, c3]
    cases a <;> cases b <;> first | (cases ha; done) | (cases hb; done) | rfl
  · simp only at hf hc
    subst hf
    rcases hc with ⟨hc, ho⟩ | ⟨hc, a, ho⟩
    · subst ho
      have c := classify_none op hc
      rw [h0]
      refine ⟨by simp only [Decoded.opbyte, c.1, hc], ?_⟩
      simp only [operandTypes, Decoded.opbyte, c.2]
      rfl
    · subst ho
      have c := classify_one op a.type hc
      rw [h0]
      refine ⟨by simp only [Decoded.opbyte, c.1, hc], ?_⟩
      simp only [operandTypes, Decoded.opbyte, c.2]
      rfl
  · simp only at hf hc
    subst hf
    have c := classify_variable op hc
    simp only [true_implies] at h1 hl
    have hbyte : Decoded.opbyte ⟨op, .variable, ops, text, store, branch⟩ =
        BitVec.ofNat 8 ((if op.count = .op2 then 0xC0 else 0xE0) + op.num) := by
      simp [Decoded.opbyte]
    rw [h0, hbyte]
    refine ⟨c, ?_⟩
    simp only [operandTypes, Memory.byteAt, if_pos hl, ok_bind, h1]
    rfl

/-- The bytes after the opcode byte and the type byte. -/
def Decoded.tail (d : Decoded) : List Byte :=
  d.ops.flatMap Operand.bytes ++ d.text.flatMap (fun w => [hiByte w, loByte w]) ++ d.store.toList ++
    (d.branch.map Branch.bytes).getD []

/-- The number of type bytes. -/
def Form.typeBytes (f : Form) : Nat := if f = .variable then 1 else 0

theorem holds_tail {m : Memory} {p : Nat} {d : Decoded} :
    holds m p d.tail ↔
      holds m p (d.ops.flatMap Operand.bytes) ∧
        holds m (p + (d.ops.map Operand.size).sum) (d.text.flatMap fun w => [hiByte w, loByte w]) ∧
          holds m (p + (d.ops.map Operand.size).sum + 2 * d.text.length) d.store.toList ∧
            holds m (p + (d.ops.map Operand.size).sum + 2 * d.text.length + d.store.toList.length)
              ((d.branch.map Branch.bytes).getD []) := by
  rw [Decoded.tail, List.append_assoc, List.append_assoc, holds_append, holds_append, holds_append, operands_length,
    text_length]

theorem holds_bytes {m : Memory} {pc : Nat} {d : Decoded} :
    holds m pc d.bytes ↔
      m.get pc = d.opbyte ∧ (d.form = .variable → m.get (pc + 1) = typeByte d.ops) ∧
        holds m (pc + 1 + d.form.typeBytes) d.tail := by
  have : d.bytes = d.opbyte :: ((if d.form = .variable then [typeByte d.ops] else []) ++ d.tail) := by
    simp [Decoded.bytes, Decoded.tail]
  rw [this, holds_cons, holds_append]
  by_cases hf : d.form = .variable
  · simp only [hf, if_true, true_implies, Form.typeBytes, List.length_singleton]
    rw [holds_cons]
    simp
  · simp only [hf, if_false, false_implies, Form.typeBytes, List.length_nil, holds_nil]

/-- Parts that fit a row are read back from their bytes, whatever fields the type byte's policy lets pass. -/
theorem decodeParts_of_holds {d : Decoded} (hd : d.fits) {pol : AfterOmit} {m : Memory} {len pc : Nat}
    (hl : pc + d.size ≤ len) (h0 : m.get pc = d.opbyte)
    (ht : d.form = .variable → typeList pol (typeFields (m.get (pc + 1))) = some (d.ops.map Operand.type))
    (hh : holds m (pc + 1 + d.form.typeBytes) d.tail) : decodeParts pol m len pc = .ok (d, pc + d.size) := by
  have hsize := hl
  rw [Decoded.size] at hsize
  obtain ⟨ho, hx, hs, hb⟩ := holds_tail.mp hh
  obtain ⟨hc, hty⟩ := operandTypes_ok hd pol (len := len) h0 ht (fun hf => by rw [if_pos hf] at hsize; omega)
  unfold Form.typeBytes at ho hx hs hb
  unfold decodeParts
  rw [Memory.byteAt, if_pos (by omega), ok_bind, hc]
  simp only [opcodeMap_row]
  rw [hty, ok_bind]
  simp only
  rw [if_pos (by simpa using hd.admits), (readOperands_ok_iff (by omega)).mpr ⟨rfl, rfl, by omega, ho⟩, ok_bind]
  simp only
  rw [(readText_ok_iff (by omega)).mpr ⟨hd.noText, hd.text, rfl, by omega, hx⟩, ok_bind]
  simp only
  rw [(readStore_ok_iff (by omega)).mpr ⟨hd.store, rfl, by omega, hs⟩, ok_bind]
  simp only
  rw [(readBranch_ok_iff (by omega)).mpr ⟨hd.branch, rfl, by omega, hb⟩, ok_bind]
  simp only [Except.ok.injEq, Prod.mk.injEq, true_and, Decoded.size]
  omega

/-- What the parts that are read fit, and where their bytes stand (R90, R149). Under the `ignore` policy the type byte may
differ from the encoder's in the fields that are ignored. -/
theorem decodeParts_ok {pol : AfterOmit} {m : Memory} {len pc next : Nat} {d : Decoded}
    (h : decodeParts pol m len pc = .ok (d, next)) :
    d.fits ∧ next = pc + d.size ∧ next ≤ len ∧ m.get pc = d.opbyte ∧
      (d.form = .variable → typeList pol (typeFields (m.get (pc + 1))) = some (d.ops.map Operand.type)) ∧
        holds m (pc + 1 + d.form.typeBytes) d.tail := by
  unfold decodeParts at h
  obtain ⟨b, hb, h⟩ := bind_ok_iff.mp h
  unfold Memory.byteAt at hb
  split at hb
  swap
  · cases hb
  cases hb
  rename_i hpc
  rcases hcl : classify (m.get pc) with ⟨form, count, num⟩
  rw [hcl] at h
  simp only at h
  split at h
  · cases h
  rename_i op hop
  obtain ⟨⟨ts, p0⟩, hty, h⟩ := bind_ok_iff.mp h
  simp only at h
  split at h
  swap
  · cases h
  rename_i hadm
  obtain ⟨⟨ops, p1⟩, ho, h⟩ := bind_ok_iff.mp h
  obtain ⟨⟨text, p2⟩, hx, h⟩ := bind_ok_iff.mp h
  obtain ⟨⟨st, p3⟩, hs, h⟩ := bind_ok_iff.mp h
  obtain ⟨⟨br, p4⟩, hbr, h⟩ := bind_ok_iff.mp h
  cases h
  have row := classify_row (m.get pc) op (by rw [hcl]; exact hop)
  rw [hcl] at row
  simp only at row
  obtain ⟨rc, rn, rl, rs, rv⟩ := row
  -- the start of the operands, the opcode byte and the type byte
  have key : p0 = pc + 1 + (if form = .variable then 1 else 0) ∧ p0 ≤ len ∧
      (ops.map Operand.type = ts →
        Decoded.opbyte ⟨op, form, ops, text, st, br⟩ = m.get pc ∧
          ((form = .long ∧ op.count = .op2 ∧ ∃ a b, ops = [a, b] ∧ a.fitsLong = true ∧ b.fitsLong = true) ∨
            (form = .short ∧ (op.count = .op0 ∧ ops = [] ∨ op.count = .op1 ∧ ∃ a, ops = [a])) ∨
            (form = .variable ∧ (op.count = .op2 ∨ op.count = .var)))) ∧
      (form = .variable → typeList pol (typeFields (m.get (pc + 1))) = some ts) := by
    rcases form with _ | _ | _
    · simp only [operandTypes, Except.ok.injEq, Prod.mk.injEq] at hty
      obtain ⟨rfl, rfl⟩ := hty
      refine ⟨by simp, by omega, fun ht => ?_, by simp⟩
      obtain ⟨r1, r2⟩ := rl rfl
      rcases ops with _ | ⟨a, _ | ⟨b, _ | ⟨c, os⟩⟩⟩ <;>
        simp only [List.map_nil, List.map_cons, List.cons.injEq, and_true, reduceCtorEq, and_false] at ht
      obtain ⟨ha, hb⟩ := ht
      constructor
      · conv => rhs; rw [r2]
        simp only [Decoded.opbyte, ha, hb]
        cases (m.get pc).getLsbD 6 <;> cases (m.get pc).getLsbD 5 <;> rfl
      · refine .inl ⟨rfl, r1, a, b, rfl, ?_, ?_⟩
        · cases a <;> first | rfl | (simp only [Operand.type] at ha; split at ha <;> cases ha)
        · cases b <;> first | rfl | (simp only [Operand.type] at hb; split at hb <;> cases hb)
    · simp only [operandTypes, Except.ok.injEq, Prod.mk.injEq] at hty
      obtain ⟨rfl, rfl⟩ := hty
      refine ⟨by simp, by omega, fun ht => ?_, by simp⟩
      rcases rs rfl with ⟨r1, r2, r3⟩ | ⟨r1, r2⟩
      · rw [r2] at ht
        simp only [Option.toList_none, List.map_eq_nil_iff] at ht
        subst ht
        exact ⟨r3.symm, .inr (.inl ⟨rfl, .inl ⟨r1, rfl⟩⟩)⟩
      · cases hto : typeOf ((m.get pc).extractLsb' 4 2) with
        | none =>
          rw [hto] at hadm
          have : op.arity.1 = 1 := by cases op <;> first | (cases r1; done) | rfl
          simp [Op.admits, this] at hadm
        | some t =>
          rw [hto] at ht
          rcases ops with _ | ⟨a, _ | ⟨b, os⟩⟩ <;>
            simp only [Option.toList_some, List.map_nil, List.map_cons, List.cons.injEq, and_true, reduceCtorEq,
              and_false] at ht
          subst ht
          exact ⟨(r2 _ hto).symm, .inr (.inl ⟨rfl, .inr ⟨r1, a, rfl⟩⟩)⟩
    · obtain ⟨tb, htb, hty⟩ := bind_ok_iff.mp hty
      unfold Memory.byteAt at htb
      split at htb
      swap
      · cases htb
      cases htb
      split at hty
      · rename_i us hus
        cases hty
        obtain ⟨r1, r2⟩ := rv rfl
        refine ⟨by simp, by omega, fun _ => ⟨?_, .inr (.inr ⟨rfl, r1⟩)⟩, fun _ => hus⟩
        conv => rhs; rw [r2]
        simp [Decoded.opbyte]
      · cases hty
  obtain ⟨hp0, hp0l, hform, htl⟩ := key
  obtain ⟨ho1, rfl, ho3, ho4⟩ := (readOperands_ok_iff hp0l).mp ho
  obtain ⟨hx1, hx2, rfl, hx3, hx4⟩ := (readText_ok_iff ho3).mp hx
  obtain ⟨hs1, rfl, hs3, hs4⟩ := (readStore_ok_iff hx3).mp hs
  obtain ⟨hb1, rfl, hb3, hb4⟩ := (readBranch_ok_iff hs3).mp hbr
  obtain ⟨hbyte, hfm⟩ := hform ho1
  subst ho1
  refine ⟨⟨hfm, by simpa using hadm, hs1, hb1, hx1, hx2⟩, ?_, hb3, hbyte.symm, htl, ?_⟩
  · simp only [Decoded.size, hp0]
    omega
  · rw [holds_tail]
    rw [hp0] at ho4 hx4 hs4 hb4
    exact ⟨ho4, hx4, hs4, hb4⟩

/-! ## Building the instruction -/

/-- What the parts of every instruction are (PerInstr.lean). -/
theorem Instr.parts_statement (i : Instr) : Laws.Parts.Statement i :=
  match i with
  | .je f a b more br => Laws.Parts.je f a b more br
  | .jl f a b br => Laws.Parts.jl f a b br
  | .jg f a b br => Laws.Parts.jg f a b br
  | .decChk f n limit br => Laws.Parts.decChk f n limit br
  | .incChk f n limit br => Laws.Parts.incChk f n limit br
  | .jin f a b br => Laws.Parts.jin f a b br
  | .test f bitmap flags br => Laws.Parts.test f bitmap flags br
  | .or f a b st => Laws.Parts.or f a b st
  | .and f a b st => Laws.Parts.and f a b st
  | .testAttr f o n br => Laws.Parts.testAttr f o n br
  | .setAttr f o n => Laws.Parts.setAttr f o n
  | .clearAttr f o n => Laws.Parts.clearAttr f o n
  | .store f n v => Laws.Parts.store f n v
  | .insertObj f o d => Laws.Parts.insertObj f o d
  | .loadw f array idx st => Laws.Parts.loadw f array idx st
  | .loadb f array idx st => Laws.Parts.loadb f array idx st
  | .getProp f o p st => Laws.Parts.getProp f o p st
  | .getPropAddr f o p st => Laws.Parts.getPropAddr f o p st
  | .getNextProp f o p st => Laws.Parts.getNextProp f o p st
  | .add f a b st => Laws.Parts.add f a b st
  | .sub f a b st => Laws.Parts.sub f a b st
  | .mul f a b st => Laws.Parts.mul f a b st
  | .div f a b st => Laws.Parts.div f a b st
  | .mod f a b st => Laws.Parts.mod f a b st
  | .jz a br => Laws.Parts.jz a br
  | .getSibling o st br => Laws.Parts.getSibling o st br
  | .getChild o st br => Laws.Parts.getChild o st br
  | .getParent o st => Laws.Parts.getParent o st
  | .getPropLen a st => Laws.Parts.getPropLen a st
  | .inc n => Laws.Parts.inc n
  | .dec n => Laws.Parts.dec n
  | .printAddr a => Laws.Parts.printAddr a
  | .removeObj o => Laws.Parts.removeObj o
  | .printObj o => Laws.Parts.printObj o
  | .ret v => Laws.Parts.ret v
  | .jump k => Laws.Parts.jump k
  | .printPaddr a => Laws.Parts.printPaddr a
  | .load n st => Laws.Parts.load n st
  | .not a st => Laws.Parts.not a st
  | .rtrue => Laws.Parts.rtrue
  | .rfalse => Laws.Parts.rfalse
  | .print text => Laws.Parts.print text
  | .printRet text => Laws.Parts.printRet text
  | .nop => Laws.Parts.nop
  | .save br => Laws.Parts.save br
  | .restore br => Laws.Parts.restore br
  | .restart => Laws.Parts.restart
  | .retPopped => Laws.Parts.retPopped
  | .pop => Laws.Parts.pop
  | .quit => Laws.Parts.quit
  | .newLine => Laws.Parts.newLine
  | .showStatus => Laws.Parts.showStatus
  | .verify br => Laws.Parts.verify br
  | .call routine args st => Laws.Parts.call routine args st
  | .storew array idx v => Laws.Parts.storew array idx v
  | .storeb array idx v => Laws.Parts.storeb array idx v
  | .putProp o p v => Laws.Parts.putProp o p v
  | .sread text parse => Laws.Parts.sread text parse
  | .printChar a => Laws.Parts.printChar a
  | .printNum a => Laws.Parts.printNum a
  | .random a st => Laws.Parts.random a st
  | .push v => Laws.Parts.push v
  | .pull n => Laws.Parts.pull n
  | .splitWindow lines => Laws.Parts.splitWindow lines
  | .setWindow window => Laws.Parts.setWindow window
  | .outputStream stream table => Laws.Parts.outputStream stream table
  | .inputStream stream => Laws.Parts.inputStream stream
  | .soundEffect number more => Laws.Parts.soundEffect number more

/-- The parts of a well-formed instruction fit its row, and build it. -/
theorem Instr.parts_fits {i : Instr} (h : i.wellFormed = true) : i.parts.fits ∧ i.parts.build = some i := by
  obtain ⟨h1, h2, h3, h4, h5, h6, h7⟩ := i.parts_statement h
  refine ⟨⟨?_, h3, h4, h5, h6, h7⟩, h1⟩
  cases i <;>
    first
    | exact .inr (.inr ⟨rfl, .inr rfl⟩)
    | exact .inr (.inl ⟨rfl, .inl ⟨rfl, rfl⟩⟩)
    | exact .inr (.inl ⟨rfl, .inr ⟨rfl, _, rfl⟩⟩)
    | (rename_i f _ _ _ _
       cases f
       · simp only [Instr.wellFormed, TwoOp.holds, Bool.and_eq_true, Bool.or_eq_true] at h
         first
         | exact .inl ⟨rfl, rfl, _, _, rfl, h.1, h.2⟩
         | exact .inl ⟨rfl, rfl, _, _, by simpa [Instr.parts] using h.2, h.1.1.1, h.1.1.2⟩
       · exact .inr (.inr ⟨rfl, .inl rfl⟩))
    | (rename_i f _ _ _
       cases f
       · simp only [Instr.wellFormed, TwoOp.holds, Bool.and_eq_true] at h
         exact .inl ⟨rfl, rfl, _, _, rfl, h.1, h.2⟩
       · exact .inr (.inr ⟨rfl, .inl rfl⟩))
    | (rename_i f _ _
       cases f
       · simp only [Instr.wellFormed, TwoOp.holds, Bool.and_eq_true] at h
         exact .inl ⟨rfl, rfl, _, _, rfl, h.1, h.2⟩
       · exact .inr (.inr ⟨rfl, .inl rfl⟩))

/-- Parts that fit their row build a well-formed instruction that has them. -/
theorem Decoded.build_fits {d : Decoded} (hd : d.fits) : ∃ i, d.build = some i ∧ i.parts = d ∧ i.wellFormed = true := by
  obtain ⟨hf, ha, hs, hb, hn, hx⟩ := hd
  obtain ⟨op, form, ops, text, store, branch⟩ := d
  simp only at hf ha hs hb hn hx
  have h4 := Op.admits_le _ ha
  have hc : op.hasText = true ∨ text = [] := by
    cases h : op.hasText with
    | true => exact .inl rfl
    | false => exact .inr (hn h)
  cases op <;>
    (rcases hf with ⟨rfl, hc1, a, b, rfl, hfa, hfb⟩ | ⟨rfl, ⟨hc1, rfl⟩ | ⟨hc1, a, rfl⟩⟩ | ⟨rfl, hc1⟩) <;>
    first
    | (cases hc1; done)
    | (rcases hc1 with hc1 | hc1 <;> cases hc1; done)
    | skip
  all_goals rcases store with _ | st <;> first | (cases hs; done) | skip
  all_goals rcases branch with _ | br <;> first | (cases hb; done) | skip
  all_goals try
    rcases ops with _ | ⟨a, _ | ⟨b, _ | ⟨c, _ | ⟨e, _ | ⟨f, os⟩⟩⟩⟩⟩ <;>
      first
      | (cases ha; done)
      | (simp only [List.length_cons] at h4; omega)
      | skip
  all_goals first
    | (obtain hc | rfl := hc
       · cases hc
       · first
         | exact ⟨_, rfl, rfl, rfl⟩
         | exact ⟨_, rfl, rfl, by simp [Instr.wellFormed, TwoOp.holds, Form.twoOp, hfa, hfb]⟩)
    | exact ⟨_, rfl, rfl, hx rfl⟩

/-- What is decoded is well formed, and its parts were read. -/
theorem decodeNext_ok {pol : AfterOmit} {m : Memory} {len pc next : Nat} {i : Instr}
    (h : decodeNext pol m len pc = .ok (i, next)) :
    decodeParts pol m len pc = .ok (i.parts, next) ∧ i.wellFormed = true := by
  obtain ⟨⟨d, n⟩, hd, h⟩ := bind_ok_iff.mp h
  obtain ⟨j, hj, hp, hw⟩ := Decoded.build_fits (decodeParts_ok hd).1
  simp only [hj] at h
  cases h
  rw [hp]
  exact ⟨hd, hw⟩

/-! ## Faults of the readers -/

/-- A fault met while the parts after the types are read is one of memory (R140, R149). -/
def outOfImage (k : FaultKind) : Prop := ∃ a, k = .memory (.outOfBounds a)

theorem bind_outOfImage {α β : Type} {x : Except FaultKind α} {f : α → Except FaultKind β} {k : FaultKind}
    (h : (x >>= f) = .error k) (hx : ∀ k, x = .error k → outOfImage k) (hf : ∀ a k, f a = .error k → outOfImage k) :
    outOfImage k := by
  cases x with
  | ok a => exact hf a k h
  | error e => cases h; exact hx _ rfl

theorem byteAt_outOfImage {m : Memory} {len a : Nat} {k : FaultKind} (h : m.byteAt len a = .error k) : outOfImage k := by
  unfold Memory.byteAt at h
  split at h <;> cases h
  exact ⟨_, rfl⟩

theorem wordAt_outOfImage {m : Memory} {len a : Nat} {k : FaultKind} (h : m.wordAt len a = .error k) : outOfImage k := by
  unfold Memory.wordAt at h
  split at h <;> cases h
  exact ⟨_, rfl⟩

theorem stringFrom_outOfImage {m : Memory} {len fuel a : Nat} {acc : List Word} {k : FaultKind}
    (h : m.stringFrom len fuel a acc = .error k) : outOfImage k := by
  induction fuel generalizing a acc with
  | zero => cases h; exact ⟨_, rfl⟩
  | succ fuel ih =>
    unfold Memory.stringFrom at h
    split at h
    · cases h
      exact wordAt_outOfImage ‹_›
    · split at h
      · cases h
      · exact ih h

theorem readOperands_outOfImage {m : Memory} {len : Nat} {ts : List OpType} {p : Nat} {k : FaultKind}
    (h : readOperands m len ts p = .error k) : outOfImage k := by
  induction ts generalizing p k with
  | nil => cases h
  | cons t ts ih =>
    cases t with
    | large =>
      exact bind_outOfImage h (fun _ => wordAt_outOfImage) fun v k h =>
        bind_outOfImage h (fun _ => ih) fun _ _ h => by cases h
    | small =>
      exact bind_outOfImage h (fun _ => byteAt_outOfImage) fun v k h =>
        bind_outOfImage h (fun _ => ih) fun _ _ h => by cases h
    | var =>
      exact bind_outOfImage h (fun _ => byteAt_outOfImage) fun v k h =>
        bind_outOfImage h (fun _ => ih) fun _ _ h => by cases h

theorem readText_outOfImage {m : Memory} {len : Nat} {has : Bool} {p : Nat} {k : FaultKind}
    (h : readText m len has p = .error k) : outOfImage k := by
  unfold readText at h
  split at h
  · exact bind_outOfImage h (fun _ h => stringFrom_outOfImage h) fun _ _ h => by cases h
  · cases h

theorem readStore_outOfImage {m : Memory} {len : Nat} {has : Bool} {p : Nat} {k : FaultKind}
    (h : readStore m len has p = .error k) : outOfImage k := by
  unfold readStore at h
  split at h
  · exact bind_outOfImage h (fun _ => byteAt_outOfImage) fun _ _ h => by cases h
  · cases h

theorem readBranch_outOfImage {m : Memory} {len : Nat} {has : Bool} {p : Nat} {k : FaultKind}
    (h : readBranch m len has p = .error k) : outOfImage k := by
  unfold readBranch at h
  split at h
  · refine bind_outOfImage h (fun _ => byteAt_outOfImage) fun b k h => ?_
    split at h
    · cases h
    · exact bind_outOfImage h (fun _ => byteAt_outOfImage) fun _ _ h => by cases h
  · cases h

/-- The fault of an instruction whose opcode byte is legal: an address outside the image, or one of the two type-byte
faults (R142, R144, R148, R149). -/
theorem decodeParts_error {pol : AfterOmit} {m : Memory} {len pc : Nat} {k : FaultKind} {op : Op} (hpc : pc < len)
    (ho : opcodeMap (classify (m.get pc)).2.1 (classify (m.get pc)).2.2 = some op)
    (h : decodeParts pol m len pc = .error k) :
    outOfImage k ∨ k = .decode (.malformedTypeByte pc (m.get pc)) ∨ k = .decode (.operandCount pc (m.get pc)) := by
  rcases hc : classify (m.get pc) with ⟨form, count, num⟩
  rw [hc] at ho
  unfold decodeParts at h
  rw [Memory.byteAt, if_pos hpc, ok_bind, hc] at h
  simp only [ho] at h
  cases hty : operandTypes pol m len pc (m.get pc) form count with
  | error e =>
    rw [hty] at h
    cases h
    rcases form with _ | _ | _
    · cases hty
    · cases hty
    · unfold operandTypes at hty
      cases htb : m.byteAt len (pc + 1) with
      | error e =>
        rw [htb] at hty
        cases hty
        exact .inl (byteAt_outOfImage htb)
      | ok tb =>
        rw [htb, ok_bind] at hty
        cases htl : typeList pol (typeFields tb) with
        | some ts => rw [htl] at hty; cases hty
        | none => rw [htl] at hty; cases hty; exact .inr (.inl rfl)
  | ok p =>
    rw [hty, ok_bind] at h
    split at h
    · left
      refine bind_outOfImage h (fun _ => readOperands_outOfImage) fun _ _ h => ?_
      refine bind_outOfImage h (fun _ => readText_outOfImage) fun _ _ h => ?_
      refine bind_outOfImage h (fun _ => readStore_outOfImage) fun _ _ h => ?_
      exact bind_outOfImage h (fun _ => readBranch_outOfImage) fun _ _ h => by cases h
    · cases h
      exact .inr (.inr rfl)

/-- Decoding faults exactly when reading the parts does: parts that are read always build. -/
theorem decodeNext_error {pol : AfterOmit} {m : Memory} {len pc : Nat} {k : FaultKind} :
    decodeNext pol m len pc = .error k ↔ decodeParts pol m len pc = .error k := by
  unfold decodeNext
  cases h : decodeParts pol m len pc with
  | error e =>
    rw [error_bind]
    simp
  | ok p =>
    obtain ⟨j, hj, -⟩ := Decoded.build_fits (decodeParts_ok (d := p.1) (next := p.2) h).1
    rw [ok_bind]
    simp only [hj, reduceCtorEq]

/-- In the variable form the types come from the type byte (R144), and their count must be the row's (R148). -/
theorem decodeParts_variable {pol : AfterOmit} {m : Memory} {len pc : Nat} {op : Op} (hpc : pc + 1 < len)
    (hf : (classify (m.get pc)).1 = .variable)
    (ho : opcodeMap (classify (m.get pc)).2.1 (classify (m.get pc)).2.2 = some op) :
    (typeList pol (typeFields (m.get (pc + 1))) = none →
        decodeParts pol m len pc = .error (.decode (.malformedTypeByte pc (m.get pc)))) ∧
      (∀ ts, typeList pol (typeFields (m.get (pc + 1))) = some ts → op.admits ts.length = false →
        decodeParts pol m len pc = .error (.decode (.operandCount pc (m.get pc)))) ∧
      ∀ d next, decodeParts pol m len pc = .ok (d, next) → d.form = .variable ∧ d.op = op := by
  rcases hc : classify (m.get pc) with ⟨form, count, num⟩
  rw [hc] at ho hf
  simp only at hf
  subst hf
  unfold decodeParts
  rw [Memory.byteAt, if_pos (by omega), ok_bind, hc]
  simp only at ho
  simp only [ho]
  unfold operandTypes
  rw [Memory.byteAt, if_pos hpc, ok_bind]
  refine ⟨fun h => by rw [h]; rfl, fun ts h ha => by rw [h, ok_bind]; simp only [ha]; rfl, fun d next h => ?_⟩
  obtain ⟨p, -, h⟩ := bind_ok_iff.mp h
  split at h
  · obtain ⟨_, -, h⟩ := bind_ok_iff.mp h
    obtain ⟨_, -, h⟩ := bind_ok_iff.mp h
    obtain ⟨_, -, h⟩ := bind_ok_iff.mp h
    obtain ⟨_, -, h⟩ := bind_ok_iff.mp h
    cases h
    exact ⟨rfl, rfl⟩
  · cases h

end Sys2Proof
end

