-- ==== Sys2Proof/Laws/Inv.lean ====
section
/-! SUPPORT. The invariant under each shared operation. -/

namespace Sys2Proof.Machine

/-! ## Consequences of the load checks -/

theorem checkHeader_static {h : Header} {len : Nat} (hc : checkHeader h len = .ok ()) :
    64 ≤ h.staticBase.toNat ∧ h.staticBase.toNat ≤ len := by
  unfold checkHeader at hc
  repeat' (split at hc; · cases hc)
  rename_i h
  omega

theorem Sound.header_room {s : State} (h : Sound s) : 64 ≤ s.hdr.staticBase.toNat ∧ s.hdr.staticBase.toNat ≤ s.len :=
  checkHeader_static h.checked

/-! ## Memory -/

theorem Sound.setByte {s : State} (h : Sound s) {a : Nat} (b : Byte) (ha : a < s.len)
    (hs : a < s.hdr.staticBase.toNat) : Sound (s.setByte a b) where
  memWf := Memory.wf_set a b h.memWf
  romWf := h.romWf
  memIn := by
    intro c hc
    rcases Memory.mem_set hc with rfl | hc
    · exact ha
    · exact h.memIn c hc
  romIn := h.romIn
  header := h.header
  version := h.version
  checked := h.checked
  static := by
    intro x hx
    simp only [State.setByte_mem, State.setByte_rom, State.setByte_hdr] at *
    rw [Memory.get_set_ne b h.memWf (by omega)]
    exact h.static x hx
  linked := h.linked
  base := h.base
  depth := h.depth
  words := h.words
  output := h.output

theorem Sound.setWord {s : State} (h : Sound s) {a : Nat} (v : Word) (ha : a + 1 < s.len)
    (hs : a + 1 < s.hdr.staticBase.toNat) : Sound (s.setWord a v) :=
  (h.setByte (hiByte v) (by omega) (by omega)).setByte (loByte v) ha hs

theorem Sound.writeByte {s t : State} (h : Sound s) {a : Nat} {b : Byte} (hw : writeByte a b s = .ok t) : Sound t := by
  obtain ⟨h1, h2, rfl⟩ := writeByte_ok_iff.mp hw
  exact h.setByte b h1 h2

theorem Sound.writeWord {s t : State} (h : Sound s) {a : Nat} {v : Word} (hw : writeWord a v s = .ok t) : Sound t := by
  obtain ⟨h1, h2, rfl⟩ := writeWord_ok_iff.mp hw
  exact h.setWord v h1 h2

/-! ## pc, status, generator, output -/

theorem Sound.setPc {s : State} (h : Sound s) (p : Nat) : Sound { s with pc := p } := { h with }

theorem Sound.setStatus {s : State} (h : Sound s) (st : Status) : Sound { s with status := st } := { h with }

theorem Sound.setRng {s : State} (h : Sound s) (g : RngState) : Sound { s with rng := g } := { h with }

theorem Sound.advance {s : State} (h : Sound s) (i : Instr) : Sound (advance i s) := h.setPc _

theorem Sound.takeFault {s : State} (h : Sound s) (k : FaultKind) (op : Option Byte) : Sound (takeFault k op s) :=
  h.setStatus _

theorem Sound.emitAll {s : State} (h : Sound s) (cs : List Zscii) : Sound (emitAll cs s) := by
  rw [emitAll_eq]
  refine { h with output := ?_ }
  intro c hc
  rcases List.mem_append.mp hc with hc | hc
  · exact h.output c hc
  · simpa using (List.mem_filter.mp hc).2

theorem Sound.emit {s : State} (h : Sound s) (c : Zscii) : Sound (emit c s) := h.emitAll [c]

/-! ## Stack and locals -/

theorem Sound.push {s : State} (h : Sound s) (v : Word) (hl : s.stack.length < s.params.maxEvalStack) :
    Sound { s with stack := v :: s.stack } :=
  { h with
    base := by have := h.base; simp only [List.length_cons]; omega
    words := by simp only [List.length_cons]; omega }

theorem Sound.pop {s : State} (h : Sound s) (ht : hasTop s = true) : Sound { s with stack := s.stack.tail } := by
  have hb : s.frame.stackBase < s.stack.length := by simpa [hasTop] using ht
  have hw := h.words
  exact { h with
    base := by simp only [List.length_tail]; omega
    words := by simp only [List.length_tail]; omega }

theorem Sound.replaceTop {s : State} (h : Sound s) (v : Word) (ht : hasTop s = true) :
    Sound { s with stack := v :: s.stack.tail } := by
  have hb : s.frame.stackBase < s.stack.length := by simpa [hasTop] using ht
  have hw := h.words
  exact { h with
    base := by simp only [List.length_cons, List.length_tail]; omega
    words := by simp only [List.length_cons, List.length_tail]; omega }

theorem framesLinked_setLocal {f : Frame} {cs : List Frame} (h : framesLinked f cs = true) (k : Nat) (v : Word) :
    framesLinked { f with locals := f.locals.set k v } cs = true := by
  cases cs with
  | nil =>
    simp only [framesLinked, decide_eq_true_eq] at *
    subst h
    rfl
  | cons c rest => simpa [framesLinked, Frame.ok] using h

theorem Sound.setLocal {s : State} (h : Sound s) (n : Byte) (v : Word) : Sound (s.setLocal n v) :=
  { h with linked := framesLinked_setLocal h.linked _ _ }

theorem Sound.withVar {s : State} (h : Sound s) {n : Byte} (v : Word) (hw : varWritable n s = true) :
    Sound (withVar n v s) := by
  unfold varWritable at hw
  unfold Machine.withVar
  by_cases h0 : n.toNat = 0
  · simp only [h0, if_true, decide_eq_true_eq] at *
    exact h.push v hw
  · by_cases h15 : n.toNat ≤ 15
    · simp only [h0, h15, if_true, if_false] at *
      exact h.setLocal n v
    · simp only [h0, h15, if_false, Bool.and_eq_true, decide_eq_true_eq] at *
      exact h.setWord v hw.1 hw.2

theorem Sound.withVarInPlace {s : State} (h : Sound s) {n : Byte} (v : Word) (hw : inPlaceWritable n s = true) :
    Sound (withVarInPlace n v s) := by
  unfold inPlaceWritable at hw
  unfold Machine.withVarInPlace
  by_cases h0 : n.toNat = 0
  · simp only [h0, if_true] at *
    exact h.replaceTop v hw
  · simp only [h0, if_false] at *
    exact h.withVar v hw

theorem Sound.afterVar {s : State} (h : Sound s) {n : Byte} (hr : varReadable n s = true) : Sound (afterVar n s) := by
  unfold varReadable at hr
  unfold Machine.afterVar
  by_cases h0 : n.toNat = 0
  · simp only [h0, if_true] at *
    exact h.pop hr
  · simp only [h0, if_false]
    exact h

theorem Sound.opAfter {s : State} (h : Sound s) {o : Operand} (hr : opReadable o s = true) : Sound (opAfter o s) := by
  cases o with
  | large _ => exact h
  | small _ => exact h
  | var n => exact h.afterVar hr

theorem Sound.opsAfter {s : State} (h : Sound s) {os : List Operand} (hr : opsReadable os s = true) :
    Sound (opsAfter os s) := by
  induction os generalizing s with
  | nil => exact h
  | cons o os ih =>
    simp only [opsReadable, Bool.and_eq_true] at hr
    exact ih (h.opAfter hr.1) hr.2

/-! ## Frames -/

theorem Sound.popFrame {s : State} (h : Sound s) {c : Frame} {rest : List Frame} (hc : s.callers = c :: rest) (ra : Nat) :
    Sound (s.popFrame c rest ra) := by
  have hl := h.linked
  rw [hc] at hl
  simp only [framesLinked, Bool.and_eq_true, decide_eq_true_eq] at hl
  have hb := h.base
  have hd := h.depth
  have hw := h.words
  rw [hc] at hd
  simp only [List.length_cons] at hd
  exact { h with
    linked := hl.2
    base := by simp only [State.popFrame_frame, State.popFrame_stack, List.length_drop]; omega
    depth := by simp only [State.popFrame_callers, State.popFrame_params]; omega
    words := by simp only [State.popFrame_stack, State.popFrame_params, List.length_drop]; omega }

theorem Sound.afterReturn {s : State} (h : Sound s) (v : Word) (hr : returnable s = true) : Sound (afterReturn v s) := by
  unfold returnable at hr
  unfold Machine.afterReturn
  rcases hc : s.callers with _ | ⟨c, rest⟩
  · have := h.setStatus .halted
    rwa [hc] at this
  · rcases hp : s.frame.returnPc with _ | ra
    · have := h.setStatus .halted
      rwa [hc] at this
    · rcases hs : s.frame.storeVar with _ | n
      · exact h.popFrame hc ra
      · simp only [hc, hp, hs] at hr
        exact (h.popFrame hc ra).withVar v hr

theorem Sound.afterBranch {s : State} (h : Sound s) {i : Instr} {br : Branch} {cond : Bool}
    (hb : branchable i br cond s = true) : Sound (afterBranch i br cond s) := by
  unfold branchable at hb
  unfold Machine.afterBranch
  by_cases hc : cond = br.onTrue
  · simp only [hc, if_true] at *
    by_cases h0 : br.offset.value = 0
    · simp only [h0, if_true, true_or] at *
      exact h.afterReturn 0 hb
    · by_cases h1 : br.offset.value = 1
      · simp only [h1, if_true, or_true] at *
        exact h.afterReturn 1 hb
      · simp only [h0, h1, if_false] at *
        exact h.setPc _
  · simp only [hc, if_false]
    exact h.advance i

theorem overlay_length (args defaults : List Word) : (overlay args defaults).length = defaults.length := by
  induction defaults generalizing args with
  | nil => cases args <;> rfl
  | cons d ds ih =>
    cases args with
    | nil => rfl
    | cons a args => simp [overlay, ih]

/-- The locals after a call (43_calls_stack.md R274): argument `k` if there is one, else the default. -/
theorem overlay_getElem? (args defaults : List Word) (k : Nat) :
    (overlay args defaults)[k]? = if k < defaults.length then (if k < args.length then args[k]? else defaults[k]?) else none := by
  induction defaults generalizing args k with
  | nil => cases args <;> simp [overlay]
  | cons d ds ih =>
    cases args with
    | nil => simp [overlay]
    | cons a args =>
      cases k with
      | zero => simp [overlay]
      | succ k => simp [overlay, ih]

/-- The default values are the words after the count byte (R273). -/
theorem defaultLocals_ok_iff {s : State} {n a : Nat} {vs : List Word} :
    defaultLocals s n a = .ok vs ↔
      (n = 0 ∨ a + 2 * n ≤ s.len) ∧ vs = (List.range n).map fun k => s.mem.getWord (a + 2 * k) := by
  induction n generalizing a vs with
  | zero => simp [defaultLocals, eq_comm]
  | succ n ih =>
    unfold defaultLocals
    have hmap : (List.range (n + 1)).map (fun k => s.mem.getWord (a + 2 * k)) =
        s.mem.getWord a :: (List.range n).map fun k => s.mem.getWord (a + 2 + 2 * k) := by
      rw [List.range_succ_eq_map, List.map_cons, List.map_map]
      simp only [Nat.mul_zero, Nat.add_zero, List.cons.injEq, true_and]
      refine List.map_congr_left fun k _ => ?_
      simp only [Function.comp]
      congr 1
      omega
    rw [hmap]
    simp only [bind_ok_iff, readWord_ok_iff, ih, Except.ok.injEq]
    constructor
    · rintro ⟨v, ⟨hv, rfl⟩, ws, ⟨hw, rfl⟩, rfl⟩
      exact ⟨.inr (by omega), rfl⟩
    · rintro ⟨hl, rfl⟩
      exact ⟨_, ⟨by omega, rfl⟩, _, ⟨by omega, rfl⟩, rfl⟩

/-- A call that completes (R273 to R275). -/
theorem callRoutine_ok_iff {op : Byte} {p : Word} {args : List Word} {sv : Option Byte} {ra : Nat} {s t : State} :
    callRoutine op p args sv ra s = .ok t ↔
      2 * p.toNat < s.len ∧ (s.mem.get (2 * p.toNat)).toNat ≤ 15 ∧
        ((s.mem.get (2 * p.toNat)).toNat = 0 ∨ 2 * p.toNat + 1 + 2 * (s.mem.get (2 * p.toNat)).toNat ≤ s.len) ∧
        s.callers.length + 1 < s.params.maxCallDepth ∧
        t = { s with
          callers := s.frame :: s.callers
          frame :=
            { returnPc := some ra, storeVar := sv,
              locals := overlay args ((List.range (s.mem.get (2 * p.toNat)).toNat).map fun k =>
                s.mem.getWord (2 * p.toNat + 1 + 2 * k)),
              argCount := args.length, stackBase := s.stack.length }
          pc := 2 * p.toNat + 1 + 2 * (s.mem.get (2 * p.toNat)).toNat } := by
  simp only [callRoutine, bind_ok_iff, readByte_ok_iff]
  constructor
  · rintro ⟨n, ⟨hl, rfl⟩, h⟩
    split at h
    · cases h
    · obtain ⟨vs, hv, h⟩ := bind_ok_iff.mp h
      obtain ⟨hd, rfl⟩ := defaultLocals_ok_iff.mp hv
      split at h
      · cases h
      · cases h
        exact ⟨hl, by omega, hd, by omega, rfl⟩
  · rintro ⟨hl, hn, hd, hm, rfl⟩
    refine ⟨_, ⟨hl, rfl⟩, ?_⟩
    rw [if_neg (by omega), defaultLocals_ok_iff.mpr ⟨hd, rfl⟩, ok_bind, if_neg (by omega)]

theorem Sound.callRoutine {s t : State} (h : Sound s) {op : Byte} {p : Word} {args : List Word} {sv : Option Byte} {ra : Nat}
    (ha : args.length ≤ 3) (hc : callRoutine op p args sv ra s = .ok t) : Sound t := by
  obtain ⟨-, hn, -, hd, rfl⟩ := callRoutine_ok_iff.mp hc
  have hb := h.base
  exact { h with
    linked := by
      simp only [framesLinked, Frame.ok, overlay_length, List.length_map, List.length_range, Option.isSome_some,
        Bool.and_eq_true, decide_eq_true_eq]
      exact ⟨⟨⟨⟨hn, ha⟩, trivial⟩, hb⟩, h.linked⟩
    base := le_refl _
    depth := by simp only [List.length_cons]; omega }

end Sys2Proof.Machine
end

