-- ==== Sys2Proof/Laws/Exec.lean ====
section
/-! SUPPORT. Execution as a whole. Every instruction and every step answers a next state (60_exceptions.md R410: faults
are taken by the machine), and `Effects.run` says once what an instruction can do between its first and its last state. -/

namespace Sys2Proof.Machine

theorem exec_total (i : Instr) (s : State) : ∃ t, exec i s = .next t := by
  cases i <;> first | exact finish_total _ _ _ | exact ⟨_, rfl⟩

theorem step_total (s : State) : ∃ t, step s = .next t := by
  unfold step
  cases s.status with
  | running =>
    simp only
    cases s.fetch with
    | ok i => exact exec_total i s
    | error k => exact ⟨_, rfl⟩
  | awaitingInput r => exact ⟨_, rfl⟩
  | halted => exact ⟨_, rfl⟩
  | faulted f => exact ⟨_, rfl⟩

/-! ## An instruction's body -/

theorem opValues_length (os : List Operand) (s : State) : (opValues os s).length = os.length := by
  induction os generalizing s with
  | nil => rfl
  | cons o os ih => simp [opValues, ih]

/-- An instruction ends in its body's state, or takes its body's fault. -/
theorem with1_next {i : Instr} {a : Operand} {s t : State} {body : Word → State → Except FaultKind State}
    (h : with1 i a s body = .next t) :
    (∃ k, t = takeFault k (some i.opbyte) s) ∨ opReadable a s = true ∧ body (opValue a s) (opAfter a s) = .ok t := by
  obtain h | ⟨k, -, h⟩ := (finish_next _ _ _ _).mp h
  · obtain ⟨⟨x, u⟩, hx, hb⟩ := bind_ok_iff.mp h
    obtain ⟨hr, rfl, rfl⟩ := resolve_ok_iff.mp hx
    exact .inr ⟨hr, hb⟩
  · exact .inl ⟨k, h⟩

theorem with2_next {i : Instr} {a b : Operand} {s t : State} {body : Word → Word → State → Except FaultKind State}
    (h : with2 i a b s body = .next t) :
    (∃ k, t = takeFault k (some i.opbyte) s) ∨
      opsReadable [a, b] s = true ∧ body (opValue a s) (opValue b (opAfter a s)) (opsAfter [a, b] s) = .ok t := by
  obtain h | ⟨k, -, h⟩ := (finish_next _ _ _ _).mp h
  · obtain ⟨⟨x, u⟩, hx, h⟩ := bind_ok_iff.mp h
    obtain ⟨ha, rfl, rfl⟩ := resolve_ok_iff.mp hx
    obtain ⟨⟨y, w⟩, hy, h⟩ := bind_ok_iff.mp h
    obtain ⟨hb, rfl, rfl⟩ := resolve_ok_iff.mp hy
    exact .inr ⟨by simp [opsReadable, ha, hb], h⟩
  · exact .inl ⟨k, h⟩

theorem with3_next {i : Instr} {a b c : Operand} {s t : State}
    {body : Word → Word → Word → State → Except FaultKind State} (h : with3 i a b c s body = .next t) :
    (∃ k, t = takeFault k (some i.opbyte) s) ∨
      opsReadable [a, b, c] s = true ∧
        body (opValue a s) (opValue b (opAfter a s)) (opValue c (opAfter b (opAfter a s))) (opsAfter [a, b, c] s) = .ok t := by
  obtain h | ⟨k, -, h⟩ := (finish_next _ _ _ _).mp h
  · obtain ⟨⟨x, u⟩, hx, h⟩ := bind_ok_iff.mp h
    obtain ⟨ha, rfl, rfl⟩ := resolve_ok_iff.mp hx
    obtain ⟨⟨y, w⟩, hy, h⟩ := bind_ok_iff.mp h
    obtain ⟨hb, rfl, rfl⟩ := resolve_ok_iff.mp hy
    obtain ⟨⟨z, w⟩, hz, h⟩ := bind_ok_iff.mp h
    obtain ⟨hc, rfl, rfl⟩ := resolve_ok_iff.mp hz
    exact .inr ⟨by simp [opsReadable, ha, hb, hc], h⟩
  · exact .inl ⟨k, h⟩

theorem withMore_next {i : Instr} {a : Operand} {more : List Operand} {s t : State}
    {body : Word → List Word → State → Except FaultKind State} (h : withMore i a more s body = .next t) :
    (∃ k, t = takeFault k (some i.opbyte) s) ∨
      opsReadable (a :: more) s = true ∧
        body (opValue a s) (opValues more (opAfter a s)) (opsAfter (a :: more) s) = .ok t := by
  obtain h | ⟨k, -, h⟩ := (finish_next _ _ _ _).mp h
  · obtain ⟨⟨x, u⟩, hx, h⟩ := bind_ok_iff.mp h
    obtain ⟨ha, rfl, rfl⟩ := resolve_ok_iff.mp hx
    obtain ⟨⟨ys, w⟩, hy, h⟩ := bind_ok_iff.mp h
    obtain ⟨hb, rfl, rfl⟩ := resolveAll_ok_iff.mp hy
    exact .inr ⟨by simp [opsReadable, ha, hb], h⟩
  · exact .inl ⟨k, h⟩

theorem with0_next {i : Instr} {s t : State} {body : State → Except FaultKind State} (h : with0 i s body = .next t) :
    (∃ k, t = takeFault k (some i.opbyte) s) ∨ body s = .ok t := by
  obtain h | ⟨k, -, h⟩ := (finish_next _ _ _ _).mp h
  · exact .inr h
  · exact .inl ⟨k, h⟩

/-! ## Object-tree updates write bytes only -/

section Bytes

variable {P : State → Prop}
  (hP : ∀ (u : State) (a : Nat) (b : Byte), P u → a < u.len → a < u.hdr.staticBase.toNat → P (u.setByte a b))

include hP

theorem keep_writeByte {a : Nat} {b : Byte} {u t : State} (h : writeByte a b u = .ok t) (hu : P u) : P t := by
  obtain ⟨h1, h2, rfl⟩ := writeByte_ok_iff.mp h
  exact hP u a b hu h1 h2

theorem keep_writeWord {a : Nat} {v : Word} {u t : State} (h : writeWord a v u = .ok t) (hu : P u) : P t := by
  obtain ⟨h1, h2, rfl⟩ := writeWord_ok_iff.mp h
  exact hP _ _ _ (hP u a _ hu (by omega) (by omega)) h1 h2

theorem keep_unlink {o p : Nat} {u t : State} (h : unlink o p u = .ok t) (hu : P u) : P t := by
  obtain ⟨c, -, h⟩ := bind_ok_iff.mp h
  split at h
  · obtain ⟨sib, -, h⟩ := bind_ok_iff.mp h
    exact keep_writeByte hP h hu
  · obtain ⟨x, -, h⟩ := bind_ok_iff.mp h
    obtain ⟨sib, -, h⟩ := bind_ok_iff.mp h
    exact keep_writeByte hP h hu

theorem keep_detach {o : Nat} {u t : State} (h : detach o u = .ok t) (hu : P u) : P t := by
  obtain ⟨p, -, h⟩ := bind_ok_iff.mp h
  split at h
  · cases h
    exact hu
  · obtain ⟨v, hv, h⟩ := bind_ok_iff.mp h
    obtain ⟨w, hw, h⟩ := bind_ok_iff.mp h
    exact keep_writeByte hP h (keep_writeByte hP hw (keep_unlink hP hv hu))

theorem keep_attach {o d : Nat} {u t : State} (h : attach o d u = .ok t) (hu : P u) : P t := by
  obtain ⟨v, hv, h⟩ := bind_ok_iff.mp h
  obtain ⟨w, hw, h⟩ := bind_ok_iff.mp h
  obtain ⟨c, -, h⟩ := bind_ok_iff.mp h
  obtain ⟨x, hx, h⟩ := bind_ok_iff.mp h
  exact keep_writeByte hP h (keep_writeByte hP hx (keep_writeByte hP hw (keep_detach hP hv hu)))

theorem keep_setProp {o p : Nat} {v : Word} {u t : State} (h : setProp o p v u = .ok t) (hu : P u) : P t := by
  obtain ⟨r, -, h⟩ := bind_ok_iff.mp h
  cases r with
  | none => cases h
  | some r =>
    simp only at h
    split at h
    · exact keep_writeByte hP h hu
    · split at h
      · exact keep_writeWord hP h hu
      · cases h

end Bytes

/-! ## What an instruction can do -/

/-- The instruction may return from its routine: a return instruction, or a branch to offset 0 or 1 (R160, R281 to R284,
R207). -/
def mayReturn (i : Instr) : Prop :=
  i.parts.op ∈ [.ret, .rtrue, .rfalse, .retPopped, .printRet] ∨
    ∃ br, i.parts.branch = some br ∧ (br.offset.value = 0 ∨ br.offset.value = 1)

/-- `n` is the variable the instruction updates in place in state `s` (R151). -/
def updates (i : Instr) (s : State) (n : Byte) : Prop :=
  i.parts.op ∈ [.store, .inc, .dec, .incChk, .decChk, .pull] ∧
    ∃ r rest, i.parts.ops = r :: rest ∧ (opValue r s).toNat ≤ 255 ∧ n = loByte (opValue r s)

/-- What instruction `i`, begun in state `s`, can do to its working copy (`P` to `P`) and how it can end (`P` to `Q`). -/
structure Effects (i : Instr) (s : State) (P Q : State → Prop) : Prop where
  /-- An operand, or a pop. -/
  read : ∀ u n, P u → varReadable n u = true → P (afterVar n u)
  /-- The result. -/
  store : ∀ u st v, i.parts.store = some st → P u → varWritable st u = true → P (withVar st v u)
  /-- A variable in place. -/
  update : ∀ u n v, updates i s n → P u → inPlaceWritable n u = true → P (withVarInPlace n v u)
  /-- A push. -/
  push : ∀ u v, i.parts.op = .push → P u → u.stack.length < u.params.maxEvalStack → P { u with stack := v :: u.stack }
  /-- A byte of memory. -/
  byte : ∀ (u : State) (a : Nat) (b : Byte),
    i.parts.op ∈ [.storew, .storeb, .setAttr, .clearAttr, .putProp, .insertObj, .removeObj] → P u → a < u.len →
      a < u.hdr.staticBase.toNat → P (u.setByte a b)
  /-- Output. -/
  print : ∀ u cs, i.parts.op ∈ [.print, .printRet, .printAddr, .printPaddr, .printObj, .printChar, .printNum, .newLine] →
    P u → P (emitAll cs u)
  /-- The generator. -/
  random : ∀ u g, i.parts.op = .random → P u → P { u with rng := g }
  /-- On to the next instruction, or a jump. -/
  goOn : ∀ u p, P u → Q { u with pc := p }
  /-- A return. -/
  ret : ∀ u v, mayReturn i → P u → returnable u = true → Q (afterReturn v u)
  /-- A call. -/
  call : ∀ u t p args st ra, i.parts.op = .call → args.length + 1 = i.parts.ops.length → P u →
    callRoutine i.opbyte p args (some st) ra u = .ok t → Q t
  /-- `quit`. -/
  halt : ∀ u, i = .quit → P u → Q { u with status := .halted }
  /-- `sread`. -/
  suspend : ∀ u x y, i.parts.op = .sread → P u →
    Q { u with status := .awaitingInput { textAddr := x, parseAddr := y, atPc := u.pc, next := u.pc + i.size } }
  /-- `restart`. -/
  restart : ∀ u b, i = .restart → P u →
    Q { u with mem := u.rom.set flags2Low b, stack := [], frame := rootFrame, callers := [], pc := u.hdr.initialPc.toNat }

section Run

variable {i : Instr} {s : State} {P Q : State → Prop}

theorem Effects.operand (e : Effects i s P Q) {u : State} {o : Operand} (hu : P u) (h : opReadable o u = true) :
    P (opAfter o u) := by
  cases o with
  | large _ => exact hu
  | small _ => exact hu
  | var n => exact e.read u n hu h

theorem Effects.operands (e : Effects i s P Q) {u : State} {os : List Operand} (hu : P u) (h : opsReadable os u = true) :
    P (opsAfter os u) := by
  induction os generalizing u with
  | nil => exact hu
  | cons o os ih =>
    rw [opsReadable, Bool.and_eq_true] at h
    exact ih (e.operand hu h.1) h.2

theorem Effects.popped (e : Effects i s P Q) {u w : State} {v : Word} (hu : P u) (h : pop u = .ok (v, w)) : P w := by
  have := e.read u 0 hu
  rw [pop_eq] at h
  split at h
  · cases h
    exact this (by simpa [varReadable])
  · cases h

theorem Effects.advanced (e : Effects i s P Q) {u : State} (hu : P u) : Q (advance i u) := e.goOn u _ hu

theorem Effects.stored (e : Effects i s P Q) {u t : State} {st : Byte} {v : Word} (hs : i.parts.store = some st) (hu : P u)
    (h : storeNext i st v u = .ok t) : Q t := by
  obtain ⟨hw, rfl⟩ := storeNext_ok_iff.mp h
  exact e.advanced (e.store u st v hs hu hw)

theorem Effects.returned (e : Effects i s P Q) {u t : State} {v : Word} (hr : mayReturn i) (hu : P u)
    (h : returnValue v u = .ok t) : Q t := by
  obtain ⟨hw, rfl⟩ := returnValue_ok_iff.mp h
  exact e.ret u v hr hu hw

theorem Effects.branched (e : Effects i s P Q) {u t : State} {br : Branch} {c : Bool} (hb : i.parts.branch = some br) (hu : P u)
    (h : branch i br c u = .ok t) : Q t := by
  unfold branch at h
  split at h
  · split at h
    · exact e.returned (.inr ⟨br, hb, .inl ‹_›⟩) hu h
    · split at h
      · exact e.returned (.inr ⟨br, hb, .inr ‹_›⟩) hu h
      · obtain ⟨-, rfl⟩ := jumpTo_ok_iff.mp h
        exact e.goOn u _ hu
  · cases h
    exact e.advanced hu

theorem Effects.storeBranched (e : Effects i s P Q) {u t : State} {st : Byte} {v : Word} {br : Branch} {c : Bool}
    (hs : i.parts.store = some st) (hb : i.parts.branch = some br) (hu : P u) (h : storeBranch i st v br c u = .ok t) :
    Q t := by
  obtain ⟨w, hv, h⟩ := bind_ok_iff.mp h
  obtain ⟨hw, rfl⟩ := writeVar_ok_iff.mp hv
  exact e.branched hb (e.store u st v hs hu hw) h

theorem Effects.updated (e : Effects i s P Q) {u t : State} {op : Byte} {r : Operand} {rest : List Operand} {f : Word → Word}
    {v : Word} (ho : i.parts.op ∈ [.store, .inc, .dec, .incChk, .decChk, .pull]) (hr : i.parts.ops = r :: rest) (hu : P u)
    (h : updateVar op (opValue r s) f u = .ok (v, t)) : P t := by
  obtain ⟨h1, -, h3, -, rfl⟩ := updateVar_ok_iff.mp h
  exact e.update u _ v ⟨ho, r, rest, hr, h1, rfl⟩ hu h3

theorem Effects.placed (e : Effects i s P Q) {u t : State} {op : Byte} {r : Operand} {rest : List Operand} {n : Byte}
    {v : Word} {w : State} (ho : i.parts.op ∈ [.store, .inc, .dec, .incChk, .decChk, .pull]) (hr : i.parts.ops = r :: rest)
    (hu : P u) (hn : varRef op (opValue r s) w = .ok n) (h : writeVarInPlace n v u = .ok t) : P t := by
  obtain ⟨h1, rfl⟩ := varRef_ok_iff.mp hn
  obtain ⟨h3, rfl⟩ := writeVarInPlace_ok_iff.mp h
  exact e.update u _ v ⟨ho, r, rest, hr, h1, rfl⟩ hu h3

theorem Effects.printed (e : Effects i s P Q) {u t : State} {text : Except FaultKind (List Zscii)}
    (ho : i.parts.op ∈ [.print, .printRet, .printAddr, .printPaddr, .printObj, .printChar, .printNum, .newLine]) (hu : P u)
    (h : printNext i text u = .ok t) : Q t := by
  obtain ⟨cs, -, h⟩ := bind_ok_iff.mp h
  cases h
  exact e.advanced (e.print u cs ho hu)

theorem Effects.emitted (e : Effects i s P Q) {u : State} {c : Zscii}
    (ho : i.parts.op ∈ [.print, .printRet, .printAddr, .printPaddr, .printObj, .printChar, .printNum, .newLine]) (hu : P u) :
    P (emit c u) := e.print u [c] ho hu

theorem Effects.skipped (e : Effects i s P Q) {u t : State} (hu : P u) (h : nongoal i u = .ok t) : Q t := by
  unfold nongoal at h
  split at h
  · cases h
  · cases h
    exact e.advanced hu

/-- An instruction that answers a state ends as its effects say, or takes a fault in the state it began in. -/
theorem Effects.run (e : Effects i s P Q) (hs : P s) {t : State} (h : exec i s = .next t) :
    (∃ k, t = takeFault k (some i.opbyte) s) ∨ Q t := by
  cases i with
  | je f a b more br =>
    dsimp only [exec, execJe] at h
    refine (withMore_next h).imp id fun ⟨hr, h⟩ => ?_
    exact e.branched rfl (e.operands hs hr) h
  | jl f a b br =>
    dsimp only [exec, execJl, binaryBranch] at h
    refine (with2_next h).imp id fun ⟨hr, h⟩ => ?_
    exact e.branched rfl (e.operands hs hr) h
  | jg f a b br =>
    dsimp only [exec, execJg, binaryBranch] at h
    refine (with2_next h).imp id fun ⟨hr, h⟩ => ?_
    exact e.branched rfl (e.operands hs hr) h
  | decChk f n limit br =>
    dsimp only [exec, execDecChk] at h
    refine (with2_next h).imp id fun ⟨hr, h⟩ => ?_
    obtain ⟨⟨x, u⟩, hu, h⟩ := bind_ok_iff.mp h
    exact e.branched rfl (e.updated (by simp [Instr.parts]) rfl (e.operands hs hr) hu) h
  | incChk f n limit br =>
    dsimp only [exec, execIncChk] at h
    refine (with2_next h).imp id fun ⟨hr, h⟩ => ?_
    obtain ⟨⟨x, u⟩, hu, h⟩ := bind_ok_iff.mp h
    exact e.branched rfl (e.updated (by simp [Instr.parts]) rfl (e.operands hs hr) hu) h
  | jin f a b br =>
    dsimp only [exec, execJin] at h
    refine (with2_next h).imp id fun ⟨hr, h⟩ => ?_
    obtain ⟨n, -, h⟩ := bind_ok_iff.mp h
    split at h
    · cases h
    · obtain ⟨p, -, h⟩ := bind_ok_iff.mp h
      exact e.branched rfl (e.operands hs hr) h
  | test f a b br =>
    dsimp only [exec, execTest, binaryBranch] at h
    refine (with2_next h).imp id fun ⟨hr, h⟩ => ?_
    exact e.branched rfl (e.operands hs hr) h
  | or f a b st =>
    dsimp only [exec, execOr, binaryStore] at h
    refine (with2_next h).imp id fun ⟨hr, h⟩ => ?_
    exact e.stored rfl (e.operands hs hr) h
  | and f a b st =>
    dsimp only [exec, execAnd, binaryStore] at h
    refine (with2_next h).imp id fun ⟨hr, h⟩ => ?_
    exact e.stored rfl (e.operands hs hr) h
  | testAttr f o n br =>
    dsimp only [exec, execTestAttr] at h
    refine (with2_next h).imp id fun ⟨hr, h⟩ => ?_
    obtain ⟨x, -, h⟩ := bind_ok_iff.mp h
    obtain ⟨y, -, h⟩ := bind_ok_iff.mp h
    obtain ⟨b, -, h⟩ := bind_ok_iff.mp h
    exact e.branched rfl (e.operands hs hr) h
  | setAttr f o n =>
    dsimp only [exec, execSetAttr] at h
    refine (with2_next h).imp id fun ⟨hr, h⟩ => ?_
    obtain ⟨x, -, h⟩ := bind_ok_iff.mp h
    obtain ⟨y, -, h⟩ := bind_ok_iff.mp h
    obtain ⟨b, -, h⟩ := bind_ok_iff.mp h
    obtain ⟨u, hu, rfl⟩ := map_ok_iff.mp h
    exact e.advanced (keep_writeByte (fun u a b => e.byte u a b (by simp [Instr.parts])) hu (e.operands hs hr))
  | clearAttr f o n =>
    dsimp only [exec, execClearAttr] at h
    refine (with2_next h).imp id fun ⟨hr, h⟩ => ?_
    obtain ⟨x, -, h⟩ := bind_ok_iff.mp h
    obtain ⟨y, -, h⟩ := bind_ok_iff.mp h
    obtain ⟨b, -, h⟩ := bind_ok_iff.mp h
    obtain ⟨u, hu, rfl⟩ := map_ok_iff.mp h
    exact e.advanced (keep_writeByte (fun u a b => e.byte u a b (by simp [Instr.parts])) hu (e.operands hs hr))
  | store f n v =>
    dsimp only [exec, execStore] at h
    refine (with2_next h).imp id fun ⟨hr, h⟩ => ?_
    obtain ⟨k, hk, h⟩ := bind_ok_iff.mp h
    obtain ⟨u, hu, rfl⟩ := map_ok_iff.mp h
    exact e.advanced (e.placed (by simp [Instr.parts]) rfl (e.operands hs hr) hk hu)
  | insertObj f o d =>
    dsimp only [exec, execInsertObj] at h
    refine (with2_next h).imp id fun ⟨hr, h⟩ => ?_
    obtain ⟨x, -, h⟩ := bind_ok_iff.mp h
    obtain ⟨y, -, h⟩ := bind_ok_iff.mp h
    obtain ⟨c, -, h⟩ := bind_ok_iff.mp h
    split at h
    · cases h
    · obtain ⟨u, hu, h⟩ := bind_ok_iff.mp h
      cases h
      exact e.advanced (keep_attach (fun u a b => e.byte u a b (by simp [Instr.parts])) hu (e.operands hs hr))
  | loadw f a b st =>
    dsimp only [exec, execLoadw] at h
    refine (with2_next h).imp id fun ⟨hr, h⟩ => ?_
    obtain ⟨v, -, h⟩ := bind_ok_iff.mp h
    exact e.stored rfl (e.operands hs hr) h
  | loadb f a b st =>
    dsimp only [exec, execLoadb] at h
    refine (with2_next h).imp id fun ⟨hr, h⟩ => ?_
    obtain ⟨v, -, h⟩ := bind_ok_iff.mp h
    exact e.stored rfl (e.operands hs hr) h
  | getProp f o p st =>
    dsimp only [exec, execGetProp] at h
    refine (with2_next h).imp id fun ⟨hr, h⟩ => ?_
    obtain ⟨x, -, h⟩ := bind_ok_iff.mp h
    obtain ⟨y, -, h⟩ := bind_ok_iff.mp h
    obtain ⟨v, -, h⟩ := bind_ok_iff.mp h
    exact e.stored rfl (e.operands hs hr) h
  | getPropAddr f o p st =>
    dsimp only [exec, execGetPropAddr] at h
    refine (with2_next h).imp id fun ⟨hr, h⟩ => ?_
    obtain ⟨x, -, h⟩ := bind_ok_iff.mp h
    obtain ⟨y, -, h⟩ := bind_ok_iff.mp h
    obtain ⟨r, -, h⟩ := bind_ok_iff.mp h
    cases r <;> exact e.stored rfl (e.operands hs hr) h
  | getNextProp f o p st =>
    dsimp only [exec, execGetNextProp] at h
    refine (with2_next h).imp id fun ⟨hr, h⟩ => ?_
    obtain ⟨x, -, h⟩ := bind_ok_iff.mp h
    split at h
    · cases h
    · obtain ⟨q, -, h⟩ := bind_ok_iff.mp h
      exact e.stored rfl (e.operands hs hr) h
  | add f a b st =>
    dsimp only [exec, execAdd, binaryStore] at h
    refine (with2_next h).imp id fun ⟨hr, h⟩ => ?_
    exact e.stored rfl (e.operands hs hr) h
  | sub f a b st =>
    dsimp only [exec, execSub, binaryStore] at h
    refine (with2_next h).imp id fun ⟨hr, h⟩ => ?_
    exact e.stored rfl (e.operands hs hr) h
  | mul f a b st =>
    dsimp only [exec, execMul, binaryStore] at h
    refine (with2_next h).imp id fun ⟨hr, h⟩ => ?_
    exact e.stored rfl (e.operands hs hr) h
  | div f a b st =>
    dsimp only [exec, execDiv, divideStore] at h
    refine (with2_next h).imp id fun ⟨hr, h⟩ => ?_
    split at h
    · cases h
    · exact e.stored rfl (e.operands hs hr) h
  | mod f a b st =>
    dsimp only [exec, execMod, divideStore] at h
    refine (with2_next h).imp id fun ⟨hr, h⟩ => ?_
    split at h
    · cases h
    · exact e.stored rfl (e.operands hs hr) h
  | jz a br =>
    dsimp only [exec, execJz] at h
    refine (with1_next h).imp id fun ⟨hr, h⟩ => ?_
    exact e.branched rfl (e.operand hs hr) h
  | getSibling o st br =>
    dsimp only [exec, execGetSibling] at h
    refine (with1_next h).imp id fun ⟨hr, h⟩ => ?_
    obtain ⟨x, -, h⟩ := bind_ok_iff.mp h
    obtain ⟨p, -, h⟩ := bind_ok_iff.mp h
    exact e.storeBranched rfl rfl (e.operand hs hr) h
  | getChild o st br =>
    dsimp only [exec, execGetChild] at h
    refine (with1_next h).imp id fun ⟨hr, h⟩ => ?_
    obtain ⟨x, -, h⟩ := bind_ok_iff.mp h
    obtain ⟨p, -, h⟩ := bind_ok_iff.mp h
    exact e.storeBranched rfl rfl (e.operand hs hr) h
  | getParent o st =>
    dsimp only [exec, execGetParent] at h
    refine (with1_next h).imp id fun ⟨hr, h⟩ => ?_
    obtain ⟨x, -, h⟩ := bind_ok_iff.mp h
    obtain ⟨p, -, h⟩ := bind_ok_iff.mp h
    exact e.stored rfl (e.operand hs hr) h
  | getPropLen a st =>
    dsimp only [exec, execGetPropLen] at h
    refine (with1_next h).imp id fun ⟨hr, h⟩ => ?_
    split at h
    · exact e.stored rfl (e.operand hs hr) h
    · obtain ⟨b, -, h⟩ := bind_ok_iff.mp h
      exact e.stored rfl (e.operand hs hr) h
  | inc n =>
    dsimp only [exec, execInc] at h
    refine (with1_next h).imp id fun ⟨hr, h⟩ => ?_
    obtain ⟨⟨x, u⟩, hu, rfl⟩ := map_ok_iff.mp h
    exact e.advanced (e.updated (by simp [Instr.parts]) rfl (e.operand hs hr) hu)
  | dec n =>
    dsimp only [exec, execDec] at h
    refine (with1_next h).imp id fun ⟨hr, h⟩ => ?_
    obtain ⟨⟨x, u⟩, hu, rfl⟩ := map_ok_iff.mp h
    exact e.advanced (e.updated (by simp [Instr.parts]) rfl (e.operand hs hr) hu)
  | printAddr a =>
    dsimp only [exec, execPrintAddr] at h
    refine (with1_next h).imp id fun ⟨hr, h⟩ => ?_
    exact e.printed (by simp [Instr.parts]) (e.operand hs hr) h
  | removeObj o =>
    dsimp only [exec, execRemoveObj] at h
    refine (with1_next h).imp id fun ⟨hr, h⟩ => ?_
    obtain ⟨x, -, h⟩ := bind_ok_iff.mp h
    obtain ⟨u, hu, h⟩ := bind_ok_iff.mp h
    cases h
    exact e.advanced (keep_detach (fun u a b => e.byte u a b (by simp [Instr.parts])) hu (e.operand hs hr))
  | printObj o =>
    dsimp only [exec, execPrintObj] at h
    refine (with1_next h).imp id fun ⟨hr, h⟩ => ?_
    obtain ⟨x, -, h⟩ := bind_ok_iff.mp h
    exact e.printed (by simp [Instr.parts]) (e.operand hs hr) h
  | ret v =>
    dsimp only [exec, execRet] at h
    refine (with1_next h).imp id fun ⟨hr, h⟩ => ?_
    exact e.returned (.inl (by simp [Instr.parts])) (e.operand hs hr) h
  | jump k =>
    dsimp only [exec, execJump] at h
    refine (with1_next h).imp id fun ⟨hr, h⟩ => ?_
    obtain ⟨-, rfl⟩ := jumpTo_ok_iff.mp h
    exact e.goOn _ _ (e.operand hs hr)
  | printPaddr a =>
    dsimp only [exec, execPrintPaddr] at h
    refine (with1_next h).imp id fun ⟨hr, h⟩ => ?_
    exact e.printed (by simp [Instr.parts]) (e.operand hs hr) h
  | load n st =>
    dsimp only [exec, execLoad] at h
    refine (with1_next h).imp id fun ⟨hr, h⟩ => ?_
    obtain ⟨k, -, h⟩ := bind_ok_iff.mp h
    obtain ⟨x, -, h⟩ := bind_ok_iff.mp h
    exact e.stored rfl (e.operand hs hr) h
  | not a st =>
    dsimp only [exec, execNot] at h
    refine (with1_next h).imp id fun ⟨hr, h⟩ => ?_
    exact e.stored rfl (e.operand hs hr) h
  | rtrue =>
    dsimp only [exec, execRtrue] at h
    refine (with0_next h).imp id fun h => ?_
    exact e.returned (.inl (by simp [Instr.parts])) hs h
  | rfalse =>
    dsimp only [exec, execRfalse] at h
    refine (with0_next h).imp id fun h => ?_
    exact e.returned (.inl (by simp [Instr.parts])) hs h
  | print text =>
    dsimp only [exec, execPrint] at h
    refine (with0_next h).imp id fun h => ?_
    exact e.printed (by simp [Instr.parts]) hs h
  | printRet text =>
    dsimp only [exec, execPrintRet] at h
    refine (with0_next h).imp id fun h => ?_
    obtain ⟨cs, -, h⟩ := bind_ok_iff.mp h
    exact e.returned (.inl (by simp [Instr.parts]))
      (e.emitted (by simp [Instr.parts]) (e.print _ cs (by simp [Instr.parts]) hs)) h
  | nop =>
    dsimp only [exec, execNop] at h
    refine (with0_next h).imp id fun h => ?_
    cases h
    exact e.advanced hs
  | save br =>
    dsimp only [exec, execSave] at h
    refine (with0_next h).imp id fun h => ?_
    exact e.branched rfl hs h
  | restore br =>
    dsimp only [exec, execRestore] at h
    refine (with0_next h).imp id fun h => ?_
    exact e.branched rfl hs h
  | restart =>
    dsimp only [exec, execRestart] at h
    refine (with0_next h).imp id fun h => ?_
    cases h
    exact e.restart s _ rfl hs
  | retPopped =>
    dsimp only [exec, execRetPopped] at h
    refine (with0_next h).imp id fun h => ?_
    obtain ⟨⟨v, u⟩, hu, h⟩ := bind_ok_iff.mp h
    exact e.returned (.inl (by simp [Instr.parts])) (e.popped hs hu) h
  | pop =>
    dsimp only [exec, execPop] at h
    refine (with0_next h).imp id fun h => ?_
    obtain ⟨⟨v, u⟩, hu, rfl⟩ := map_ok_iff.mp h
    exact e.advanced (e.popped hs hu)
  | quit =>
    dsimp only [exec, execQuit] at h
    refine (with0_next h).imp id fun h => ?_
    cases h
    exact e.halt s rfl hs
  | newLine =>
    dsimp only [exec, execNewLine] at h
    refine (with0_next h).imp id fun h => ?_
    cases h
    exact e.advanced (e.emitted (by simp [Instr.parts]) hs)
  | showStatus =>
    dsimp only [exec, execShowStatus] at h
    refine (with0_next h).imp id fun h => ?_
    exact e.skipped hs h
  | verify br =>
    dsimp only [exec, execVerify] at h
    refine (with0_next h).imp id fun h => ?_
    exact e.branched rfl hs h
  | call routine args st =>
    dsimp only [exec, execCall] at h
    refine (withMore_next h).imp id fun ⟨hr, h⟩ => ?_
    split at h
    · exact e.stored rfl (e.operands hs hr) h
    · exact e.call _ _ _ _ _ _ rfl (by simp [Instr.parts, opValues_length]) (e.operands hs hr) h
  | storew a b v =>
    dsimp only [exec, execStorew] at h
    refine (with3_next h).imp id fun ⟨hr, h⟩ => ?_
    obtain ⟨u, hu, rfl⟩ := map_ok_iff.mp h
    exact e.advanced (keep_writeWord (fun u a b => e.byte u a b (by simp [Instr.parts])) hu (e.operands hs hr))
  | storeb a b v =>
    dsimp only [exec, execStoreb] at h
    refine (with3_next h).imp id fun ⟨hr, h⟩ => ?_
    obtain ⟨u, hu, rfl⟩ := map_ok_iff.mp h
    exact e.advanced (keep_writeByte (fun u a b => e.byte u a b (by simp [Instr.parts])) hu (e.operands hs hr))
  | putProp o p v =>
    dsimp only [exec, execPutProp] at h
    refine (with3_next h).imp id fun ⟨hr, h⟩ => ?_
    obtain ⟨x, -, h⟩ := bind_ok_iff.mp h
    obtain ⟨y, -, h⟩ := bind_ok_iff.mp h
    obtain ⟨u, hu, h⟩ := bind_ok_iff.mp h
    cases h
    exact e.advanced (keep_setProp (fun u a b => e.byte u a b (by simp [Instr.parts])) hu (e.operands hs hr))
  | sread text parse =>
    dsimp only [exec, execSread] at h
    refine (with2_next h).imp id fun ⟨hr, h⟩ => ?_
    cases h
    exact e.suspend _ _ _ rfl (e.operands hs hr)
  | printChar a =>
    dsimp only [exec, execPrintChar] at h
    refine (with1_next h).imp id fun ⟨hr, h⟩ => ?_
    split at h
    · cases h
    · cases h
      exact e.advanced (e.emitted (by simp [Instr.parts]) (e.operand hs hr))
  | printNum a =>
    dsimp only [exec, execPrintNum] at h
    refine (with1_next h).imp id fun ⟨hr, h⟩ => ?_
    exact e.printed (by simp [Instr.parts]) (e.operand hs hr) h
  | random a st =>
    dsimp only [exec, execRandom] at h
    refine (with1_next h).imp id fun ⟨hr, h⟩ => ?_
    exact e.stored rfl (e.random _ _ rfl (e.operand hs hr)) h
  | push v =>
    dsimp only [exec, execPush] at h
    refine (with1_next h).imp id fun ⟨hr, h⟩ => ?_
    obtain ⟨u, hu, rfl⟩ := map_ok_iff.mp h
    rw [push_eq] at hu
    split at hu
    · cases hu
      exact e.advanced (e.push _ _ rfl (e.operand hs hr) ‹_›)
    · cases hu
  | pull n =>
    dsimp only [exec, execPull] at h
    refine (with1_next h).imp id fun ⟨hr, h⟩ => ?_
    obtain ⟨k, hk, h⟩ := bind_ok_iff.mp h
    obtain ⟨⟨x, u⟩, hu, h⟩ := bind_ok_iff.mp h
    obtain ⟨w, hw, rfl⟩ := map_ok_iff.mp h
    exact e.advanced (e.placed (by simp [Instr.parts]) rfl (e.popped (e.operand hs hr) hu) hk hw)
  | splitWindow lines =>
    dsimp only [exec, execSplitWindow] at h
    refine (with1_next h).imp id fun ⟨hr, h⟩ => ?_
    exact e.skipped (e.operand hs hr) h
  | setWindow window =>
    dsimp only [exec, execSetWindow] at h
    refine (with1_next h).imp id fun ⟨hr, h⟩ => ?_
    exact e.skipped (e.operand hs hr) h
  | inputStream a =>
    dsimp only [exec, execInputStream] at h
    refine (with1_next h).imp id fun ⟨hr, h⟩ => ?_
    exact e.skipped (e.operand hs hr) h
  | outputStream a b =>
    dsimp only [exec, execOutputStream] at h
    refine (withMore_next h).imp id fun ⟨hr, h⟩ => ?_
    exact e.skipped (e.operands hs hr) h
  | soundEffect a more =>
    dsimp only [exec, execSoundEffect] at h
    refine (withMore_next h).imp id fun ⟨hr, h⟩ => ?_
    exact e.skipped (e.operands hs hr) h

end Run

end Sys2Proof.Machine
end

