-- ==== Sys2Proof/Laws/Flags.lean ====
section
/-! SUPPORT. The conditions and the arithmetic results in the terms of bit vectors and of the integers. -/

namespace Sys2Proof.Machine

/-! ## Results modulo 2^16 (44_arith_branch.md R310 to R312, R315, R316) -/

theorem addWord_eq (a b : Word) : addWord a b = a + b := by
  unfold addWord u16 s16
  rw [BitVec.ofInt_add]
  simp

theorem subWord_eq (a b : Word) : subWord a b = a - b := by
  unfold subWord u16 s16
  apply BitVec.eq_of_toInt_eq
  simp [BitVec.toInt_ofInt, BitVec.toInt_sub]

theorem mulWord_eq (a b : Word) : mulWord a b = a * b := by
  unfold mulWord u16 s16
  rw [BitVec.ofInt_mul]
  simp

theorem incWord_eq (a : Word) : incWord a = a + 1 := addWord_eq a 1

theorem decWord_eq (a : Word) : decWord a = a - 1 := subWord_eq a 1

theorem xor_ones (a : Word) : a ^^^ 0xFFFF = ~~~a := by
  rw [BitVec.not_def, BitVec.xor_comm]
  rfl

/-! ## Division (R301) -/

/-- The quotient is the one truncated toward zero. -/
theorem quotient_eq (a b : Int) : quotient a b = Int.tdiv a b := by
  unfold quotient
  have key : ∀ m n : Nat, Int.tdiv (m : Int) (n : Int) = ((m / n : Nat) : Int) := fun m n => by simp
  obtain ⟨m, rfl | rfl⟩ := Int.eq_nat_or_neg a <;> obtain ⟨n, rfl | rfl⟩ := Int.eq_nat_or_neg b <;>
    simp only [Int.neg_tdiv, Int.tdiv_neg, key, Int.natAbs_neg, Int.natAbs_natCast, Int.sign_mul, Int.sign_neg, neg_neg] <;>
    rcases Nat.eq_zero_or_pos m with rfl | hm <;> rcases Nat.eq_zero_or_pos n with rfl | hn <;>
    simp_all [Int.sign_eq_one_of_pos]

/-- The remainder has the dividend's sign. -/
theorem remainder_eq (a b : Int) : remainder a b = Int.tmod a b := by
  unfold remainder
  rw [quotient_eq]
  have := Int.tmod_add_mul_tdiv a b
  omega

/-! ## Conditions (R302 to R306) -/

theorem condEqualAny_iff {a : Word} {others : List Word} : condEqualAny a others = true ↔ a ∈ others := by
  simp [condEqualAny, List.any_eq_true]

theorem condLess_iff {a b : Word} : condLess a b = true ↔ a.toInt < b.toInt := decide_eq_true_iff

theorem condGreater_iff {a b : Word} : condGreater a b = true ↔ b.toInt < a.toInt := decide_eq_true_iff

theorem condZero_iff {a : Word} : condZero a = true ↔ a = 0 := by simp [condZero]

theorem condAllBits_iff {a b : Word} :
    condAllBits a b = true ↔ ∀ k, k < 16 → b.getLsbD k = true → a.getLsbD k = true := by
  unfold condAllBits
  rw [beq_iff_eq]
  constructor
  · intro h k hk hb
    rw [← h, BitVec.getLsbD_and, Bool.and_eq_true] at hb
    exact hb.1
  · intro h
    apply BitVec.eq_of_getLsbD_eq
    intro k hk
    have := h k hk
    rw [BitVec.getLsbD_and]
    cases hb : b.getLsbD k <;> simp_all

end Sys2Proof.Machine
end

