-- ==== Sys2Proof/Laws/Input.lean ====
section
/-! SUPPORT. Line input's second phase, load and the run contract. -/

namespace Sys2Proof.Machine

/-! ## Input writes bytes of dynamic memory, the pc and the status, nothing else (46_io_system.md R352 to R355) -/

section Bytes

variable {P : State → Prop}
  (hP : ∀ (u : State) (a : Nat) (b : Byte), P u → a < u.len → a < u.hdr.staticBase.toNat → P (u.setByte a b))

include hP

theorem keep_writeBytes {a : Nat} {bs : List Byte} {u t : State} (h : writeBytes a bs u = .ok t) (hu : P u) : P t := by
  induction bs generalizing a u with
  | nil => cases h; exact hu
  | cons b bs ih =>
    obtain ⟨w, hw, h⟩ := bind_ok_iff.mp h
    exact ih h (keep_writeByte hP hw hu)

theorem keep_writeTokens {a : Nat} {ts : List Token} {u t : State} (h : writeTokens a ts u = .ok t) (hu : P u) : P t := by
  induction ts generalizing a u with
  | nil => cases h; exact hu
  | cons w ws ih =>
    obtain ⟨e, -, h⟩ := bind_ok_iff.mp h
    obtain ⟨x, hx, h⟩ := bind_ok_iff.mp h
    obtain ⟨y, hy, h⟩ := bind_ok_iff.mp h
    obtain ⟨z, hz, h⟩ := bind_ok_iff.mp h
    exact ih h (keep_writeByte hP hz (keep_writeByte hP hy (keep_writeWord hP hx hu)))

theorem keep_completeRead {r : PendingRead} {line : List Nat} {u t : State} (h : completeRead r line u = .ok t)
    (hu : P u) : ∃ w, P w ∧ t = { w with pc := r.next, status := .running } := by
  obtain ⟨⟨kept, v⟩, hv, h⟩ := bind_ok_iff.mp h
  obtain ⟨w, hw, h⟩ := bind_ok_iff.mp h
  cases h
  refine ⟨w, ?_, rfl⟩
  obtain ⟨mx, -, hv⟩ := bind_ok_iff.mp hv
  obtain ⟨x, hx, hv⟩ := bind_ok_iff.mp hv
  cases hv
  obtain ⟨seps, -, hw⟩ := bind_ok_iff.mp hw
  obtain ⟨pm, -, hw⟩ := bind_ok_iff.mp hw
  obtain ⟨y, hy, hw⟩ := bind_ok_iff.mp hw
  exact keep_writeTokens hP hw (keep_writeByte hP hy (keep_writeBytes hP hx hu))

end Bytes

theorem writeBytes_ok {bs : List Byte} {a : Nat} {s : State} (h1 : a + bs.length ≤ s.len)
    (h2 : a + bs.length ≤ s.hdr.staticBase.toNat) : writeBytes a bs s = .ok { s with mem := s.mem.place a bs } := by
  induction bs generalizing a s with
  | nil => rfl
  | cons b bs ih =>
    unfold writeBytes
    simp only [List.length_cons] at h1 h2
    rw [writeByte_ok_iff.mpr ⟨by omega, by omega, rfl⟩, ok_bind, ih (by simp; omega) (by simp; omega)]
    rfl

theorem readBytes_ok {s : State} {n a : Nat} (h : a + n ≤ s.len) :
    readBytes s n a = .ok ((List.range n).map fun k => s.mem.get (a + k)) := by
  induction n generalizing a with
  | zero => rfl
  | succ n ih =>
    unfold readBytes
    rw [readByte_ok (by omega), ok_bind, ih (by omega), ok_bind, List.range_succ_eq_map]
    simp [Function.comp_def, Nat.add_assoc, Nat.add_comm 1]

/-- A dictionary entry's four bytes (R357, log 11). -/
theorem readBytes_four {s : State} {a : Nat} (h : a + 3 < s.len) :
    readBytes s 4 a = .ok ([0, 1, 2, 3].map fun j => s.mem.get (a + j)) := readBytes_ok (by omega)

/-- The text buffer takes as many codes as fit, then a 0 (R353). -/
theorem storeText_ok {a : Nat} {cs : List Byte} {s : State}
    (h1 : a + 2 + (cs.take ((s.mem.get a).toNat - 1)).length ≤ s.len)
    (h2 : a + 2 + (cs.take ((s.mem.get a).toNat - 1)).length ≤ s.hdr.staticBase.toNat) :
    storeText a cs s =
      .ok (cs.take ((s.mem.get a).toNat - 1),
        { s with mem := s.mem.place (a + 1) (cs.take ((s.mem.get a).toNat - 1) ++ [0]) }) := by
  unfold storeText
  rw [readByte_ok (by omega), ok_bind]
  simp only
  rw [writeBytes_ok (by simp only [List.length_append, List.length_singleton]; omega)
    (by simp only [List.length_append, List.length_singleton]; omega)]
  rfl

/-! ## The dictionary (R356, R357) -/

theorem entriesAt_le_dictTop (s : State) : entriesAt s ≤ dictTop s := by
  unfold dictTop
  split <;> omega

theorem entry_lt_dictTop {s : State} {k : Nat} (h : k < entryCount s) : entriesAt s + entryLen s * k + 3 < dictTop s := by
  unfold dictTop
  rw [if_neg (by omega)]
  have := Nat.mul_le_mul_left (entryLen s) (show k ≤ entryCount s - 1 by omega)
  omega

theorem separators_ok {s : State} (h : dictTop s ≤ s.len) : separators s = .ok (separatorsOf s) := by
  have := entriesAt_le_dictTop s
  unfold entriesAt sepCount at this
  unfold separators
  rw [readByte_ok (by omega), ok_bind, readBytes_ok (by omega)]
  rfl

/-- A lookup is a search of the entries that the dictionary's header gives. -/
theorem lookup_eq {s : State} (h : entriesAt s ≤ s.len) (word : List Byte) :
    lookup s word =
      lookupFrom s (encodeWord (word.map (·.setWidth 10))) (entryLen s) (entryCount s) (entriesAt s) := by
  unfold entriesAt sepCount at h
  unfold lookup
  simp only
  rw [readByte_ok (by omega), ok_bind, readByte_ok (by omega), ok_bind, readWord_ok (by omega), ok_bind]
  rfl

/-- A search whose entries lie in the image ends at the first that matches, or at none. -/
theorem lookupFrom_found {s : State} {e : List Byte} {elen n a k : Nat} (hk : k < n) (hb : a + elen * k + 3 < s.len)
    (he : ([0, 1, 2, 3].map fun j => s.mem.get (a + elen * k + j)) = e)
    (hn : ∀ j, j < k → ([0, 1, 2, 3].map fun i => s.mem.get (a + elen * j + i)) ≠ e) :
    lookupFrom s e elen n a = .ok (a + elen * k) := by
  induction k generalizing n a with
  | zero =>
    obtain ⟨n, rfl⟩ : ∃ m, n = m + 1 := ⟨n - 1, by omega⟩
    unfold lookupFrom
    rw [readBytes_four (by omega), ok_bind, if_pos (by simpa using he)]
    rfl
  | succ k ih =>
    obtain ⟨n, rfl⟩ : ∃ m, n = m + 1 := ⟨n - 1, by omega⟩
    have e1 : ∀ j, a + elen * (j + 1) = a + elen + elen * j := fun j => by rw [Nat.mul_succ]; omega
    have h0 := hn 0 (by omega)
    rw [Nat.mul_zero, Nat.add_zero] at h0
    unfold lookupFrom
    rw [e1] at hb
    rw [readBytes_four (by omega), ok_bind, if_neg h0,
      ih (by omega) hb (by rw [← e1]; exact he) (fun j hj => by rw [← e1]; exact hn (j + 1) (by omega)), e1]

theorem lookupFrom_none {s : State} {e : List Byte} {elen n a : Nat}
    (h : ∀ k, k < n → a + elen * k + 3 < s.len ∧ ([0, 1, 2, 3].map fun j => s.mem.get (a + elen * k + j)) ≠ e) :
    lookupFrom s e elen n a = .ok 0 := by
  induction n generalizing a with
  | zero => rfl
  | succ n ih =>
    have e1 : ∀ j, a + elen * (j + 1) = a + elen + elen * j := fun j => by rw [Nat.mul_succ]; omega
    have h0 := h 0 (by omega)
    simp only [Nat.mul_zero, Nat.add_zero] at h0
    unfold lookupFrom
    rw [readBytes_four h0.1, ok_bind, if_neg h0.2]
    exact ih fun k hk => by rw [← e1]; exact h (k + 1) (by omega)

theorem lookup_total {s : State} (h : dictTop s ≤ s.len) (word : List Byte) : ∃ e, lookup s word = .ok e := by
  rw [lookup_eq (Nat.le_trans (entriesAt_le_dictTop s) h)]
  have hb : ∀ k, k < entryCount s → entriesAt s + entryLen s * k + 3 < s.len := fun k hk =>
    Nat.lt_of_lt_of_le (entry_lt_dictTop hk) h
  generalize encodeWord _ = e
  by_cases hf : ∃ k, k < entryCount s ∧ ([0, 1, 2, 3].map fun j => s.mem.get (entriesAt s + entryLen s * k + j)) = e
  · have hm := Nat.find_spec hf
    exact ⟨_, lookupFrom_found hm.1 (hb _ hm.1) hm.2 fun j hj hj' =>
      Nat.find_min hf hj ⟨Nat.lt_trans hj hm.1, hj'⟩⟩
  · exact ⟨0, lookupFrom_none fun k hk => ⟨hb k hk, fun h' => hf ⟨k, hk, h'⟩⟩⟩

/-- `u` has the dictionary of `s`. -/
structure SameDict (s u : State) : Prop where
  len : u.len = s.len
  hdr : u.hdr = s.hdr
  bytes : ∀ x, s.hdr.dictBase.toNat ≤ x → x < dictTop s → u.mem.get x = s.mem.get x

section SameDict

variable {s u : State} (h : SameDict s u)

include h

theorem SameDict.sepCount : sepCount u = sepCount s := by
  have := entriesAt_le_dictTop s
  unfold entriesAt at this
  unfold Machine.sepCount
  rw [h.hdr, h.bytes _ (Nat.le_refl _) (by omega)]

theorem SameDict.separatorsOf : separatorsOf u = separatorsOf s := by
  have := entriesAt_le_dictTop s
  unfold entriesAt at this
  unfold Machine.separatorsOf
  rw [h.sepCount, h.hdr]
  refine List.map_congr_left fun k hk => h.bytes _ (by omega) ?_
  have := List.mem_range.mp hk
  omega

theorem SameDict.entriesAt : entriesAt u = entriesAt s := by
  unfold Machine.entriesAt
  rw [h.sepCount, h.hdr]

theorem SameDict.entryLen : entryLen u = entryLen s := by
  have := entriesAt_le_dictTop s
  unfold Machine.entriesAt at this
  unfold Machine.entryLen
  rw [h.sepCount, h.hdr, h.bytes _ (by omega) (by omega)]

theorem SameDict.entryCount : entryCount u = entryCount s := by
  have := entriesAt_le_dictTop s
  unfold Machine.entriesAt at this
  unfold Machine.entryCount Memory.getWord
  rw [h.sepCount, h.hdr, h.bytes _ (by omega) (by omega), h.bytes _ (by omega) (by omega)]

theorem SameDict.dictTop : dictTop u = dictTop s := by
  unfold Machine.dictTop
  rw [h.entriesAt, h.entryLen, h.entryCount]

/-- The same dictionary answers the same. -/
theorem SameDict.lookup (hl : Machine.dictTop s ≤ s.len) (word : List Byte) : lookup u word = lookup s word := by
  have e := Nat.le_trans (entriesAt_le_dictTop s) hl
  rw [lookup_eq e, lookup_eq (by rw [h.entriesAt, h.len]; exact e), h.entryLen, h.entryCount, h.entriesAt]
  have hb : ∀ k, k < Machine.entryCount s → Machine.entriesAt s + Machine.entryLen s * k + 3 < Machine.dictTop s :=
    fun k hk => entry_lt_dictTop hk
  have hd : s.hdr.dictBase.toNat ≤ Machine.entriesAt s := by
    unfold Machine.entriesAt
    omega
  generalize encodeWord _ = e, Machine.entriesAt s = a, Machine.entryCount s = n, Machine.entryLen s = m at *
  clear e
  induction n generalizing a with
  | zero => rfl
  | succ n ih =>
    have h0 := hb 0 (by omega)
    have e1 : ∀ j, a + m * (j + 1) = a + m + m * j := fun j => by rw [Nat.mul_succ]; omega
    unfold lookupFrom
    rw [readBytes_four (by rw [h.len]; omega), readBytes_four (by omega), ok_bind, ok_bind]
    simp only [List.map_cons, List.map_nil]
    rw [h.bytes _ (by omega) (by omega), h.bytes _ (by omega) (by omega), h.bytes _ (by omega) (by omega),
      h.bytes _ (by omega) (by omega)]
    split
    · rfl
    · exact ih _ (fun k hk => by rw [← e1]; exact hb (k + 1) (by omega)) (by omega)

end SameDict

/-! ## The parse buffer (R355) -/

/-- Writing the entries of words whose dictionary lies outside them. -/
theorem writeTokens_ok {s : State} (hl : dictTop s ≤ s.len) {ts : List Token} {a : Nat} {u : State} (hs : SameDict s u)
    (hm : u.mem.wf) (h1 : a + 4 * ts.length ≤ u.len) (h2 : a + 4 * ts.length ≤ u.hdr.staticBase.toNat)
    (hd : a + 4 * ts.length ≤ s.hdr.dictBase.toNat ∨ dictTop s ≤ a) :
    ∃ t, writeTokens a ts u = .ok t ∧ t = { u with mem := t.mem } ∧ t.mem.wf ∧
      (∀ k w, ts[k]? = some w →
        ∃ e, lookup s w.codes = .ok e ∧ (t.mem.getWord (a + 4 * k)).toNat = e % 0x10000 ∧
          (t.mem.get (a + 2 + 4 * k)).toNat = w.codes.length % 0x100 ∧
          (t.mem.get (a + 3 + 4 * k)).toNat = (w.start + 1) % 0x100) ∧
      ∀ x, (x < a ∨ a + 4 * ts.length ≤ x) → t.mem.get x = u.mem.get x := by
  induction ts generalizing a u with
  | nil => exact ⟨u, rfl, rfl, hm, by simp, fun _ _ => rfl⟩
  | cons w ws ih =>
    simp only [List.length_cons] at h1 h2 hd
    obtain ⟨e, he⟩ := lookup_total hl w.codes
    have g1 := Memory.wf_set a (hiByte (BitVec.ofNat 16 e)) hm
    have g2 := Memory.wf_set (a + 1) (loByte (BitVec.ofNat 16 e)) g1
    have g3 := Memory.wf_set (a + 2) (BitVec.ofNat 8 w.codes.length) g2
    have g4 := Memory.wf_set (a + 3) (BitVec.ofNat 8 (w.start + 1)) g3
    have hv : ∀ x, ((((u.setWord a (BitVec.ofNat 16 e)).setByte (a + 2) (BitVec.ofNat 8 w.codes.length)).setByte (a + 3)
          (BitVec.ofNat 8 (w.start + 1))).mem.get x) =
        if x = a + 3 then BitVec.ofNat 8 (w.start + 1) else if x = a + 2 then BitVec.ofNat 8 w.codes.length
        else if x = a + 1 then loByte (BitVec.ofNat 16 e) else if x = a then hiByte (BitVec.ofNat 16 e)
        else u.mem.get x := by
      intro x
      simp only [State.setWord, State.setByte]
      rw [Memory.get_set _ _ _ g3, Memory.get_set _ _ _ g2, Memory.get_set _ _ _ g1, Memory.get_set _ _ _ hm]
    have hsame : SameDict s (((u.setWord a (BitVec.ofNat 16 e)).setByte (a + 2) (BitVec.ofNat 8 w.codes.length)).setByte
        (a + 3) (BitVec.ofNat 8 (w.start + 1))) :=
      ⟨hs.len, hs.hdr, fun x hx1 hx2 => by
        rw [hv, if_neg (by omega), if_neg (by omega), if_neg (by omega), if_neg (by omega), hs.bytes x hx1 hx2]⟩
    obtain ⟨t, ht, heq, hw, hk, hx⟩ := ih (a := a + 4) hsame g4 (by simp [State.setWord]; omega)
      (by simp [State.setWord]; omega) (by omega)
    refine ⟨t, ?_, ?_, hw, fun k v hkv => ?_, fun x hx' => ?_⟩
    · unfold writeTokens
      rw [hs.lookup hl, he, ok_bind, writeWord_ok_iff.mpr ⟨by omega, by omega, rfl⟩, ok_bind,
        writeByte_ok_iff.mpr ⟨by simp [State.setWord]; omega, by simp [State.setWord]; omega, rfl⟩, ok_bind,
        writeByte_ok_iff.mpr ⟨by simp [State.setWord]; omega, by simp [State.setWord]; omega, rfl⟩, ok_bind, ht]
    · rw [heq]
      rfl
    · cases k with
      | zero =>
        obtain rfl : w = v := by simpa using hkv
        refine ⟨e, he, ?_, ?_, ?_⟩
        · rw [Memory.getWord_toNat, hx _ (by omega), hx _ (by omega), hv, hv]
          rw [if_neg (by omega), if_neg (by omega), if_neg (by omega), if_pos (by omega), if_neg (by omega), if_neg (by omega),
            if_pos (by omega), hiByte_toNat, loByte_toNat, BitVec.toNat_ofNat]
          omega
        · rw [hx _ (by omega), hv]
          simp
        · rw [hx _ (by omega), hv]
          simp
      | succ k =>
        obtain ⟨f, hf, r1, r2, r3⟩ := hk k v (by simpa using hkv)
        have e4 : ∀ j, a + j + 4 * (k + 1) = a + 4 + j + 4 * k := fun j => by omega
        refine ⟨f, hf, ?_, ?_, ?_⟩
        · rw [show a + 4 * (k + 1) = a + 4 + 4 * k by omega, r1]
        · rw [e4, r2]
        · rw [e4, r3]
    · simp only [List.length_cons] at hx'
      rw [hx x (by omega), hv, if_neg (by omega), if_neg (by omega), if_neg (by omega), if_neg (by omega)]

/-- What splitting a line leaves in the parse buffer. -/
theorem tokenize_ok {p : Nat} {codes : List Byte} {s : State} (hm : s.mem.wf)
    (h1 : p + 2 + 4 * (wordsKept p codes s).length ≤ s.len)
    (h2 : p + 2 + 4 * (wordsKept p codes s).length ≤ s.hdr.staticBase.toNat) (hl : dictTop s ≤ s.len)
    (hd : p + 2 + 4 * (wordsKept p codes s).length ≤ s.hdr.dictBase.toNat ∨ dictTop s ≤ p + 1) :
    ∃ t, tokenize p codes s = .ok t ∧ t = { s with mem := t.mem } ∧
      (t.mem.get (p + 1)).toNat = (wordsKept p codes s).length ∧
      (∀ k w, (wordsKept p codes s)[k]? = some w →
        ∃ e, lookup s w.codes = .ok e ∧ (t.mem.getWord (p + 2 + 4 * k)).toNat = e % 0x10000 ∧
          (t.mem.get (p + 4 + 4 * k)).toNat = w.codes.length % 0x100 ∧
          (t.mem.get (p + 5 + 4 * k)).toNat = (w.start + 1) % 0x100) ∧
      ∀ x, (x < p + 1 ∨ p + 2 + 4 * (wordsKept p codes s).length ≤ x) → t.mem.get x = s.mem.get x := by
  have hlen : (wordsKept p codes s).length ≤ 255 := by
    have := (s.mem.get p).isLt
    unfold wordsKept
    rw [List.length_take]
    omega
  have hg := Memory.wf_set (p + 1) (BitVec.ofNat 8 (wordsKept p codes s).length) hm
  have hv : ∀ x, (s.setByte (p + 1) (BitVec.ofNat 8 (wordsKept p codes s).length)).mem.get x =
      if x = p + 1 then BitVec.ofNat 8 (wordsKept p codes s).length else s.mem.get x := fun x => Memory.get_set _ _ _ hm
  have hs : SameDict s (s.setByte (p + 1) (BitVec.ofNat 8 (wordsKept p codes s).length)) :=
    ⟨rfl, rfl, fun x hx1 hx2 => by rw [hv, if_neg (by omega)]⟩
  obtain ⟨t, ht, heq, -, hk, hx⟩ := writeTokens_ok hl (ts := wordsKept p codes s) (a := p + 2) hs hg h1 h2 (by omega)
  refine ⟨t, ?_, ?_, ?_, hk, fun x hx' => ?_⟩
  · unfold tokenize
    rw [separators_ok hl, ok_bind, readByte_ok (by omega), ok_bind]
    simp only
    rw [show (tokens (separatorsOf s) 0 [] codes).take (s.mem.get p).toNat = wordsKept p codes s from rfl,
      writeByte_ok_iff.mpr ⟨by omega, by omega, rfl⟩, ok_bind, ht]
  · rw [heq]
    rfl
  · rw [hx _ (by omega), hv, if_pos rfl]
    simp
    omega
  · rw [hx x (by omega), hv, if_neg (by omega)]

/-! ## Load (70_reset_and_hazards.md R441, R446) -/

theorem load_ok {p : Params} {image : List Byte} {s : State} (h : load p image = .ok s) :
    64 ≤ image.length ∧ (Memory.ofBytes 0 image).get 0 = 3 ∧
      checkHeader (headerOf (Memory.ofBytes 0 image)) image.length = .ok () ∧
        s = loaded p (Memory.ofBytes 0 image) image.length := by
  unfold load at h
  split at h
  · cases h
  · simp only at h
    split at h
    · cases h
    · split at h
      · cases h
      · cases h
        exact ⟨by omega, by simp_all, ‹_›, rfl⟩

theorem get_image {image : List Byte} {a : Nat} (h : a < image.length) :
    (Memory.ofBytes 0 image).get a = image.getD a 0 := by
  rw [Memory.get_ofBytes]
  simp [h]

theorem getWord_image {image : List Byte} {a : Nat} (h : a + 1 < image.length) :
    ((Memory.ofBytes 0 image).getWord a).toNat = 256 * (image.getD a 0).toNat + (image.getD (a + 1) 0).toNat := by
  rw [Memory.getWord_toNat, get_image (by omega), get_image h]

/-! ## Run (60_exceptions.md R415 to R417) -/

theorem run_stopped (n : Nat) {s : State} (h : s.status ≠ .running) : run n s = .next (stopOf s.status, s) := by
  cases n with
  | zero => rfl
  | succ n => unfold run; split <;> simp_all

theorem run_step (n : Nat) {s t : State} (h : s.status = .running) (ht : step s = .next t) : run (n + 1) s = run n t := by
  rw [run.eq_def]
  simp only [h, ht]

end Sys2Proof.Machine
end

