-- ==== Sys2Proof/Laws/Objects.lean ====
section
/-! SUPPORT. The object table's operations: the checks, the link bytes, the property walk, and what taking an object out
of its parent's chain and putting it under another leaves (42_objects.md R221 to R233). -/

namespace Sys2Proof.Machine

/-! ## Checks (R228 to R230) -/

theorem checkObj_ok {o : Word} (h1 : 1 ≤ o.toNat) (h2 : o.toNat ≤ 255) : checkObj o = .ok o.toNat := by
  unfold checkObj
  rw [if_neg (by omega)]

theorem checkObj_bad {o : Word} (h : o.toNat = 0 ∨ 255 < o.toNat) : checkObj o = .error (.object (.badObject o.toNat)) := by
  unfold checkObj
  rw [if_pos h]

theorem checkAttr_ok {n : Word} (h : n.toNat ≤ 31) : checkAttr n = .ok n.toNat := by
  unfold checkAttr
  rw [if_neg (by omega)]

theorem checkAttr_bad {n : Word} (h : 31 < n.toNat) : checkAttr n = .error (.object (.badAttribute n.toNat)) := by
  unfold checkAttr
  rw [if_pos h]

theorem checkProp_ok {p : Word} (h1 : 1 ≤ p.toNat) (h2 : p.toNat ≤ 31) : checkProp p = .ok p.toNat := by
  unfold checkProp
  rw [if_neg (by omega)]

theorem checkProp_bad {p : Word} (h : p.toNat = 0 ∨ 31 < p.toNat) :
    checkProp p = .error (.object (.badProperty p.toNat)) := by
  unfold checkProp
  rw [if_pos h]

/-! ## The terms of the claims after operands are resolved -/

@[simp] theorem entryAddr_opAfter (x : Nat) (o : Operand) (s : State) : (opAfter o s).entryAddr x = s.entryAddr x := by
  simp [State.entryAddr]

@[simp] theorem entryAddr_opsAfter (x : Nat) (os : List Operand) (s : State) :
    (opsAfter os s).entryAddr x = s.entryAddr x := by
  simp [State.entryAddr]

@[simp] theorem linkOf_opAfter (k x : Nat) (o : Operand) (s : State) : linkOf k x (opAfter o s) = linkOf k x s := by
  simp [linkOf]

@[simp] theorem linkOf_opsAfter (k x : Nat) (os : List Operand) (s : State) :
    linkOf k x (opsAfter os s) = linkOf k x s := by
  simp [linkOf]

@[simp] theorem objectsWritable_opAfter (o : Operand) (s : State) :
    objectsWritable (opAfter o s) = objectsWritable s := by
  simp [objectsWritable]

@[simp] theorem objectsWritable_opsAfter (os : List Operand) (s : State) :
    objectsWritable (opsAfter os s) = objectsWritable s := by
  simp [objectsWritable]

theorem siblingPath_congr {s u : State} (h : ∀ x, linkOf 5 x u = linkOf 5 x s) (o x : Nat) (xs : List Nat) :
    siblingPath u o x xs = siblingPath s o x xs := by
  induction xs generalizing x with
  | nil => rfl
  | cons y ys ih => cases ys <;> simp_all [siblingPath]

theorem parentPath_congr {s u : State} (h : ∀ x, linkOf 4 x u = linkOf 4 x s) (o x : Nat) (xs : List Nat) :
    parentPath u o x xs = parentPath s o x xs := by
  induction xs generalizing x with
  | nil => rfl
  | cons y ys ih => simp_all [parentPath]

theorem detachable_congr {s u : State} (h : ∀ k x, linkOf k x u = linkOf k x s) (o : Nat) :
    detachable o u ↔ detachable o s := by
  unfold detachable
  simp only [h, siblingPath_congr (h 5)]

theorem chainBefore_congr {s u : State} (h : ∀ k x, linkOf k x u = linkOf k x s) (o : Nat) (xs : List Nat) :
    chainBefore o xs u = chainBefore o xs s := by
  unfold chainBefore
  simp only [h, siblingPath_congr (h 5)]

/-- An object is detachable exactly when the objects before it in its parent's chain can be listed. -/
theorem detachable_iff_chainBefore (o : Nat) (s : State) : detachable o s ↔ ∃ xs, chainBefore o xs s = true := by
  unfold detachable chainBefore
  by_cases h : linkOf 4 o s = 0 ∨ linkOf 6 (linkOf 4 o s) s = o
  · simp only [if_pos h]
    exact ⟨fun _ => ⟨[], rfl⟩, fun _ => by tauto⟩
  · simp only [if_neg h, Bool.and_eq_true, decide_eq_true_eq]
    tauto

theorem propSearch_congr {s t : State} (hm : t.mem = s.mem) (hl : t.len = s.len) {p a : Nat} {r : Option (Nat × Nat)}
    (h : PropSearch s p a r) : PropSearch t p a r := by
  induction h with
  | ends a h1 h2 => exact .ends a (hl ▸ h1) (hm ▸ h2)
  | found a h1 h2 h3 =>
    rw [← hm]
    exact .found a (hl ▸ h1) (hm ▸ h2) (hm ▸ h3)
  | passed a h1 h2 h3 => exact .passed a (hl ▸ h1) (hm ▸ h2) (hm ▸ h3)
  | next a r h1 h2 h3 _ ih =>
    refine .next a r (hl ▸ h1) (hm ▸ h2) (hm ▸ h3) ?_
    rw [hm]
    exact ih

/-! ## Attributes and size bytes (R222, R225) -/

theorem attrMask_bit (n k : Nat) (hk : k < 8) : (attrMask n).getLsbD k = decide (k = 7 - n % 8) := by
  unfold attrMask
  have : n % 8 < 8 := Nat.mod_lt _ (by omega)
  generalize n % 8 = m at *
  revert k m
  decide

theorem sizeNum_eq (b : Byte) : sizeNum b = b.toNat % 32 := by simp [sizeNum]

theorem sizeLen_eq (b : Byte) : sizeLen b = b.toNat / 32 + 1 := by
  simp only [sizeLen, BitVec.extractLsb'_toNat, Nat.shiftRight_eq_div_pow]
  have := b.isLt
  omega

/-! ## The property walk (R226) -/

/-- The walk from `a` ends with what a search along the size bytes finds, if it is given enough fuel. -/
theorem findPropFrom_ok_iff {s : State} {p fuel a : Nat} {r : Option (Nat × Nat)} (hf : s.len < fuel + a) :
    findPropFrom p s fuel a = .ok (r.map fun x => { addr := x.1, len := x.2 }) ↔ PropSearch s p a r := by
  induction fuel generalizing a r with
  | zero =>
    simp only [findPropFrom]
    constructor
    · intro h
      cases h
    · intro h
      cases h <;> omega
  | succ fuel ih =>
    unfold findPropFrom
    by_cases hl : a < s.len
    · rw [readByte_ok hl, ok_bind, sizeNum_eq, sizeLen_eq]
      by_cases h0 : s.mem.get a = 0
      · rw [if_pos h0]
        constructor
        · intro h
          cases r with
          | none => exact .ends a hl h0
          | some _ => simp at h
        · intro h
          cases h <;> first | rfl | contradiction
      · rw [if_neg h0]
        by_cases h1 : (s.mem.get a).toNat % 32 = p
        · rw [if_pos h1]
          constructor
          · intro h
            cases r with
            | none => simp at h
            | some x =>
              obtain ⟨x, y⟩ := x
              simp only [Option.map_some, Except.ok.injEq, Option.some.injEq, PropAt.mk.injEq] at h
              obtain ⟨rfl, rfl⟩ := h
              exact .found a hl h0 h1
          · intro h
            cases h <;> first | rfl | contradiction | omega
        · rw [if_neg h1]
          by_cases h2 : (s.mem.get a).toNat % 32 < p
          · rw [if_pos h2]
            constructor
            · intro h
              cases r with
              | none => exact .passed a hl h0 h2
              | some _ => simp at h
            · intro h
              cases h <;> first | rfl | contradiction | omega
          · rw [if_neg h2, ih (by omega)]
            constructor
            · intro h
              exact .next a r hl h0 (by omega) h
            · intro h
              cases h <;> first | assumption | contradiction
    · rw [readByte_error (by omega), error_bind]
      constructor
      · intro h
        cases h
      · intro h
        cases h <;> omega

theorem firstProp_ok {s : State} {o : Nat} (h : propTableReadable s o = true) : firstProp o s = .ok (propStart s o) := by
  simp only [propTableReadable, Bool.and_eq_true, decide_eq_true_eq] at h
  unfold firstProp propTable
  rw [readWord_ok (by omega)]
  show (readByte (propTableOf s o) s >>= _) = _
  rw [readByte_ok h.2]
  rfl

theorem findProp_ok_iff {s : State} {o p : Nat} {r : Option (Nat × Nat)} (h : propTableReadable s o = true) :
    findProp o p s = .ok (r.map fun x => { addr := x.1, len := x.2 }) ↔ PropSearch s p (propStart s o) r := by
  unfold findProp
  rw [firstProp_ok h, ok_bind]
  exact findPropFrom_ok_iff (by omega)

/-- The walk of a property instruction, whose operands are resolved by then. -/
theorem findProp_opsAfter {s : State} {os : List Operand} {o p : Nat} {r : Option (Nat × Nat)}
    (h : propTableReadable s o = true) (hs : PropSearch s p (propStart s o) r) :
    findProp o p (opsAfter os s) = .ok (r.map fun x => { addr := x.1, len := x.2 }) := by
  refine (findProp_ok_iff ?_).mpr ?_
  · unfold propTableReadable propTableOf at *
    simpa using h
  · have := propSearch_congr (t := opsAfter os s) (by simp) (by simp) hs
    simpa [propStart, propTableOf] using this

/-! ## Link bytes (R221, R223) -/

theorem readLink_ok {k o : Nat} {s : State} (h : s.entryAddr o + k < s.len) : readLink k o s = .ok (linkOf k o s) := by
  unfold readLink linkOf
  rw [readByte_ok h]
  rfl

theorem linkOf_le (k o : Nat) (s : State) : linkOf k o s ≤ 255 := by
  have := (s.mem.get (s.entryAddr o + k)).isLt
  unfold linkOf
  omega

theorem objectsWritable_room {s : State} (h : objectsWritable s = true) {o k : Nat} (h1 : 1 ≤ o) (h2 : o ≤ 255)
    (hk : k ≤ 8) : s.entryAddr o + k < s.len ∧ s.entryAddr o + k < s.hdr.staticBase.toNat := by
  simp only [objectsWritable, Bool.and_eq_true, decide_eq_true_eq] at h
  unfold State.entryAddr
  omega

theorem readLink_of_writable {s : State} (h : objectsWritable s = true) {k o : Nat} (h1 : 1 ≤ o) (h2 : o ≤ 255)
    (hk : k ≤ 8) : readLink k o s = .ok (linkOf k o s) :=
  readLink_ok (objectsWritable_room h h1 h2 hk).1

/-- Entries do not overlap. -/
theorem linkOf_setByte {s : State} (hm : s.mem.wf) {j k q o : Nat} (b : Byte) (hj : j ≤ 8) (hk : k ≤ 8) (hq : 1 ≤ q)
    (ho : 1 ≤ o) :
    linkOf j q (s.setByte (s.entryAddr o + k) b) = if q = o ∧ j = k then b.toNat else linkOf j q s := by
  have e : (s.setByte (s.entryAddr o + k) b).entryAddr q = s.entryAddr q := rfl
  unfold linkOf
  rw [e, State.setByte_mem, Memory.get_set _ _ _ hm]
  have : s.entryAddr q + j = s.entryAddr o + k ↔ q = o ∧ j = k := by
    unfold State.entryAddr
    omega
  by_cases h : q = o ∧ j = k
  · rw [if_pos (this.mpr h), if_pos h]
  · rw [if_neg (fun h' => h (this.mp h')), if_neg h]

/-- `t` is `s` but for link bytes of objects 1 to 255. -/
structure OnlyLinks (s t : State) : Prop where
  eq : t = { s with mem := t.mem }
  wf : t.mem.wf
  writable : objectsWritable t = true
  others : ∀ a, (∀ k, 1 ≤ k → k ≤ 255 → a ≠ s.entryAddr k + 4 ∧ a ≠ s.entryAddr k + 5 ∧ a ≠ s.entryAddr k + 6) →
    t.mem.get a = s.mem.get a

theorem OnlyLinks.refl {s : State} (hm : s.mem.wf) (h : objectsWritable s = true) : OnlyLinks s s :=
  ⟨rfl, hm, h, fun _ _ => rfl⟩

theorem OnlyLinks.entryAddr {s t : State} (h : OnlyLinks s t) (o : Nat) : t.entryAddr o = s.entryAddr o := by
  rw [h.eq]
  rfl

theorem OnlyLinks.set {s t : State} (h : OnlyLinks s t) {o k : Nat} (b : Byte) (h1 : 1 ≤ o) (h2 : o ≤ 255)
    (hk : 4 ≤ k ∧ k ≤ 6) : OnlyLinks s (t.setByte (t.entryAddr o + k) b) where
  eq := by
    have := h.eq
    cases s
    cases t
    simp only [State.setByte, State.mk.injEq] at this ⊢
    tauto
  wf := Memory.wf_set _ _ h.wf
  writable := h.writable
  others := by
    intro a ha
    have := ha o h1 h2
    rw [State.setByte_mem, Memory.get_set_ne _ h.wf, h.others a ha]
    rw [h.entryAddr]
    obtain ⟨h3, h4⟩ := hk
    interval_cases k <;> tauto

/-- Writing a link byte of such a state. -/
theorem OnlyLinks.write {s t : State} (h : OnlyLinks s t) {o k v : Nat} (h1 : 1 ≤ o) (h2 : o ≤ 255)
    (hk : 4 ≤ k ∧ k ≤ 6) (hv : v ≤ 255) :
    ∃ u, writeLink k o v t = .ok u ∧ OnlyLinks s u ∧
      ∀ j q, 1 ≤ q → j ≤ 8 → linkOf j q u = if q = o ∧ j = k then v else linkOf j q t := by
  have r := objectsWritable_room h.writable h1 h2 (k := k) (by omega)
  refine ⟨_, writeByte_ok_iff.mpr ⟨r.1, r.2, rfl⟩, h.set _ h1 h2 hk, fun j q hq hj => ?_⟩
  rw [linkOf_setByte h.wf _ hj (by omega) hq h1]
  simp [Nat.mod_eq_of_lt (show v < 256 by omega)]

theorem OnlyLinks.read {s t : State} (h : OnlyLinks s t) {o k : Nat} (h1 : 1 ≤ o) (h2 : o ≤ 255) (hk : k ≤ 8) :
    readLink k o t = .ok (linkOf k o t) :=
  readLink_of_writable h.writable h1 h2 hk

theorem OnlyLinks.advance {s u t : State} (i : Instr) (h : OnlyLinks u t) (hu : u.pc = s.pc) :
    advance i t = { u with mem := t.mem, pc := s.pc + i.size } := by
  rw [h.eq]
  simp [Machine.advance, hu]

/-! ## Chains (R232) -/

/-- Along a path of at most `fuel` links the walk ends at the path's last object, whose sibling is `o`. -/
theorem findBefore_ok {s : State} (h : objectsWritable s = true) {o fuel x : Nat} {xs : List Nat} (hx : x ≤ 255)
    (hp : siblingPath s o x xs = true) (hl : xs.length ≤ fuel) :
    ∃ y, 1 ≤ y ∧ y ≤ 255 ∧ xs.getLast? = some y ∧ findBefore o s fuel x = .ok y := by
  induction xs generalizing fuel x with
  | nil => simp [siblingPath] at hp
  | cons y ys ih =>
    cases fuel with
    | zero => simp at hl
    | succ fuel =>
      have hx0 : x ≠ 0 := by cases ys <;> simp [siblingPath] at hp <;> tauto
      unfold findBefore
      rw [if_neg hx0]
      unfold siblingOf
      rw [readLink_of_writable h (by omega) hx (by omega), ok_bind]
      cases ys with
      | nil =>
        simp [siblingPath] at hp
        rw [if_pos hp.2]
        exact ⟨x, by omega, hx, by simp [hp.1.1], rfl⟩
      | cons z zs =>
        simp only [siblingPath, Bool.and_eq_true, decide_eq_true_eq] at hp
        rw [if_neg hp.1.2]
        rw [List.getLast?_cons_cons]
        exact ih (linkOf_le _ _ _) hp.2 (by simpa using hl)

theorem findBefore_error {s : State} (h : objectsWritable s = true) {o fuel x : Nat} (hx : x ≤ 255)
    (hp : ∀ xs, xs.length ≤ fuel → siblingPath s o x xs ≠ true) :
    findBefore o s fuel x = .error (.object (.corruptTree o)) := by
  induction fuel generalizing x with
  | zero => rfl
  | succ fuel ih =>
    unfold findBefore
    by_cases hx0 : x = 0
    · rw [if_pos hx0]
    · rw [if_neg hx0]
      unfold siblingOf
      rw [readLink_of_writable h (by omega) hx (by omega), ok_bind]
      by_cases hs : linkOf 5 x s = o
      · exact absurd (by simp [siblingPath, hx0, hs]) (hp [x] (by simp))
      · rw [if_neg hs]
        refine ih (linkOf_le _ _ _) fun xs hl hq => ?_
        apply hp (x :: xs) (by simpa using hl)
        cases xs with
        | nil => simp [siblingPath] at hq
        | cons y ys =>
          rw [siblingPath]
          · simp only [decide_true, hx0, ne_eq, not_false_eq_true, hs, Bool.and_self, Bool.true_and]
            exact hq
          · simp

/-! ## Detach (R232) -/

theorem detach_none {s : State} {x : Nat} (h : objectsWritable s = true) (h1 : 1 ≤ x) (h2 : x ≤ 255)
    (hp : linkOf 4 x s = 0) : detach x s = .ok s := by
  unfold detach parentOf
  rw [readLink_of_writable h h1 h2 (by omega), ok_bind, if_pos hp]

theorem detach_corrupt {s : State} {x : Nat} (h : objectsWritable s = true) (h1 : 1 ≤ x) (h2 : x ≤ 255)
    (hd : ¬ detachable x s) : detach x s = .error (.object (.corruptTree x)) := by
  unfold detachable at hd
  simp only [not_or, not_exists, not_and] at hd
  obtain ⟨hp, hc, hx⟩ := hd
  have hle := linkOf_le 4 x s
  unfold detach parentOf
  rw [readLink_of_writable h h1 h2 (by omega), ok_bind, if_neg hp]
  unfold unlink childOf
  rw [readLink_of_writable h (by omega) hle (by omega), ok_bind, if_neg hc,
    findBefore_error h (linkOf_le _ _ _) (fun xs hl hq => hx xs hq hl)]
  rfl

/-- The links after the chain of `x`'s parent is closed over `x`: the sibling of the object before `x` is `x`'s own. -/
theorem unlink_ok {s : State} {x : Nat} {xs : List Nat} (hm : s.mem.wf) (h : objectsWritable s = true) (h1 : 1 ≤ x)
    (h2 : x ≤ 255) (hp : linkOf 4 x s ≠ 0) (hd : chainBefore x xs s = true) :
    ∃ t, unlink x (linkOf 4 x s) s = .ok t ∧ OnlyLinks s t ∧ (∀ k, 1 ≤ k → linkOf 4 k t = linkOf 4 k s) ∧
      (∀ k, 1 ≤ k → linkOf 5 k t = if xs.getLast? = some k then linkOf 5 x s else linkOf 5 k s) ∧
      ∀ k, 1 ≤ k →
        linkOf 6 k t = if k = linkOf 4 x s ∧ linkOf 6 (linkOf 4 x s) s = x then linkOf 5 x s else linkOf 6 k s := by
  unfold chainBefore at hd
  have hp2 := linkOf_le 4 x s
  have o0 := OnlyLinks.refl hm h
  unfold unlink childOf
  rw [readLink_of_writable h (by omega) hp2 (by omega), ok_bind]
  by_cases hc : linkOf 6 (linkOf 4 x s) s = x
  · rw [if_pos hc]
    unfold siblingOf setChild
    rw [readLink_of_writable h h1 h2 (by omega), ok_bind]
    obtain ⟨t, ht, ho, hl⟩ := o0.write (o := linkOf 4 x s) (k := 6) (v := linkOf 5 x s) (by omega) hp2 (by omega)
      (linkOf_le _ _ _)
    rw [if_pos (.inr hc), List.isEmpty_iff] at hd
    subst hd
    refine ⟨t, ht, ho, fun k hk => ?_, fun k hk => ?_, fun k hk => ?_⟩
    · rw [hl _ _ hk (by omega), if_neg (by omega)]
    · rw [hl _ _ hk (by omega), if_neg (by omega), if_neg (by simp)]
    · rw [hl _ _ hk (by omega)]
      simp only [and_true, hc]
  · rw [if_neg hc]
    rw [if_neg (by tauto), Bool.and_eq_true, decide_eq_true_eq] at hd
    obtain ⟨y, y1, y2, y3, y4⟩ := findBefore_ok h (linkOf_le _ _ _) hd.1 hd.2
    rw [y4, ok_bind]
    unfold siblingOf setSibling
    rw [readLink_of_writable h h1 h2 (by omega), ok_bind]
    obtain ⟨t, ht, ho, hl⟩ := o0.write (o := y) (k := 5) (v := linkOf 5 x s) y1 y2 (by omega) (linkOf_le _ _ _)
    refine ⟨t, ht, ho, fun k hk => ?_, fun k hk => ?_, fun k hk => ?_⟩
    · rw [hl _ _ hk (by omega), if_neg (by omega)]
    · rw [hl _ _ hk (by omega), y3]
      simp [eq_comm]
    · rw [hl _ _ hk (by omega), if_neg (by omega), if_neg (by tauto)]

theorem detach_ok {s : State} {x : Nat} {xs : List Nat} (hm : s.mem.wf) (h : objectsWritable s = true) (h1 : 1 ≤ x)
    (h2 : x ≤ 255) (hp : linkOf 4 x s ≠ 0) (hd : chainBefore x xs s = true) :
    ∃ t, detach x s = .ok t ∧ OnlyLinks s t ∧ linkOf 4 x t = 0 ∧ linkOf 5 x t = 0 ∧
      (∀ k, 1 ≤ k → k ≠ x → linkOf 4 k t = linkOf 4 k s) ∧
      (∀ k, 1 ≤ k → k ≠ x → linkOf 5 k t = if xs.getLast? = some k then linkOf 5 x s else linkOf 5 k s) ∧
      ∀ k, 1 ≤ k →
        linkOf 6 k t = if k = linkOf 4 x s ∧ linkOf 6 (linkOf 4 x s) s = x then linkOf 5 x s else linkOf 6 k s := by
  obtain ⟨t, ht, ho, l4, l5, l6⟩ := unlink_ok hm h h1 h2 hp hd
  obtain ⟨u, hu, hou, lu⟩ := ho.write (o := x) (k := 4) (v := 0) h1 h2 (by omega) (by omega)
  obtain ⟨w, hw, how, lw⟩ := hou.write (o := x) (k := 5) (v := 0) h1 h2 (by omega) (by omega)
  refine ⟨w, ?_, how, ?_, ?_, fun k hk hkx => ?_, fun k hk hkx => ?_, fun k hk => ?_⟩
  · unfold detach parentOf
    rw [readLink_of_writable h h1 h2 (by omega), ok_bind, if_neg hp, ht, ok_bind]
    unfold setParent setSibling
    rw [hu, ok_bind, hw]
  · rw [lw _ _ h1 (by omega), if_neg (by omega), lu _ _ h1 (by omega), if_pos ⟨rfl, rfl⟩]
  · rw [lw _ _ h1 (by omega), if_pos ⟨rfl, rfl⟩]
  · rw [lw _ _ hk (by omega), if_neg (by omega), lu _ _ hk (by omega), if_neg (by omega), l4 _ hk]
  · rw [lw _ _ hk (by omega), if_neg (by omega), lu _ _ hk (by omega), if_neg (by omega)]
    exact l5 _ hk
  · rw [lw _ _ hk (by omega), if_neg (by omega), lu _ _ hk (by omega), if_neg (by omega), l6 _ hk]

/-! ## Ancestors (R233) -/

theorem descendsFrom_false {s : State} (h : objectsWritable s = true) {d o : Nat} {xs : List Nat} {fuel x : Nat}
    (hx : x ≤ 255) (hp : parentPath s 0 x xs = true) (ho : o ∉ xs) (hl : xs.length ≤ fuel) :
    descendsFrom d o s fuel x = .ok false := by
  induction xs generalizing fuel x with
  | nil =>
    simp only [parentPath, decide_eq_true_eq] at hp
    subst hp
    unfold descendsFrom
    rfl
  | cons y ys ih =>
    simp only [parentPath, Bool.and_eq_true, decide_eq_true_eq] at hp
    obtain ⟨⟨⟨rfl, h0⟩, -⟩, hp⟩ := hp
    simp only [List.mem_cons, not_or] at ho
    unfold descendsFrom
    rw [if_neg h0, if_neg (by tauto)]
    cases fuel with
    | zero => simp at hl
    | succ fuel =>
      simp only
      unfold parentOf
      rw [readLink_of_writable h (by omega) hx (by omega), ok_bind]
      exact ih (linkOf_le _ _ _) hp ho.2 (by simpa using hl)

theorem descendsFrom_true {s : State} (h : objectsWritable s = true) {d o : Nat} (ho : o ≠ 0) {xs : List Nat}
    {fuel x : Nat} (hx : x ≤ 255) (hp : parentPath s o x xs = true) (hl : xs.length ≤ fuel) :
    descendsFrom d o s fuel x = .ok true := by
  induction xs generalizing fuel x with
  | nil =>
    simp only [parentPath, decide_eq_true_eq] at hp
    subst hp
    unfold descendsFrom
    rw [if_neg ho, if_pos rfl]
  | cons y ys ih =>
    simp only [parentPath, Bool.and_eq_true, decide_eq_true_eq] at hp
    obtain ⟨⟨⟨rfl, h0⟩, h0'⟩, hp⟩ := hp
    unfold descendsFrom
    rw [if_neg h0, if_neg (by tauto)]
    cases fuel with
    | zero => simp at hl
    | succ fuel =>
      simp only
      unfold parentOf
      rw [readLink_of_writable h (by omega) hx (by omega), ok_bind]
      exact ih (linkOf_le _ _ _) hp (by simpa using hl)

end Sys2Proof.Machine
end

