-- ==== Sys2Proof/Tests/Slice0.lean ====
section
/-! SUPPORT. Tests: ill-formed terms, decoded words, single steps whose results are those of 95_test_vectors.md (the vector is
named beside each), and for every obligation with hypotheses a concrete state and operands that meet them. -/

namespace Sys2Proof.Tests

open Sys2Proof Sys2Proof.Machine

/-! ## Well-formedness: each check refuses -/

theorem test_illformed_long_holds_no_large_constant :
    (Instr.je .long (.large 5) (.small 5) [] ⟨true, .short 10⟩).wellFormed = false ∧
      (Instr.add .long (.small 5) (.large 3) 0x10).wellFormed = false ∧
      (Instr.add .variable (.small 5) (.large 3) 0x10).wellFormed = true := by decide

theorem test_illformed_je_takes_at_most_four :
    (Instr.je .variable (.small 1) (.small 2) [.small 3, .small 4, .small 5] ⟨true, .short 10⟩).wellFormed = false ∧
      (Instr.je .variable (.small 1) (.small 2) [.small 3, .small 4] ⟨true, .short 10⟩).wellFormed = true := by decide

theorem test_illformed_long_je_takes_two :
    (Instr.je .long (.small 1) (.small 2) [.small 3] ⟨true, .short 10⟩).wellFormed = false := by decide

theorem test_illformed_text_ends_once :
    (Instr.print []).wellFormed = false ∧ (Instr.print [0x3551]).wellFormed = false ∧
      (Instr.printRet [0xC685, 0xC685]).wellFormed = false ∧ (Instr.printRet [0x3551, 0xC685]).wellFormed = true := by decide

theorem test_illformed_call_takes_three_arguments :
    (Instr.call (.large 0x300) [.small 1, .small 2, .small 3, .small 4] 0x10).wellFormed = false ∧
      (Instr.call (.large 0x300) [.small 1, .small 2, .small 3] 0x10).wellFormed = true := by decide

theorem test_illformed_sound_effect_takes_four :
    (Instr.soundEffect (.small 1) [.small 1, .small 2, .small 3, .small 4]).wellFormed = false := by decide

/-! ## Decoding: words written out from 30_encoding.md R92 to R108 -/

/-- What the decoder reads from these bytes. -/
def reads (bytes : List Byte) : Option Instr := (decode .ignore (Memory.ofBytes 0 bytes) bytes.length 0).toOption

theorem test_decode_two_operand_branches :
    reads [0x01, 0x05, 0x05, 0xCA] = some (.je .long (.small 5) (.small 5) [] ⟨true, .short 10⟩) ∧
      reads [0xC1, 0x55, 0x05, 0x06, 0x07, 0x08, 0x4A] = some (.je .variable (.small 5) (.small 6) [.small 7, .small 8] ⟨false, .short 10⟩) ∧
      reads [0x42, 0x10, 0x01, 0xC1] = some (.jl .long (.var 0x10) (.small 1) ⟨true, .short 1⟩) ∧
      reads [0xC3, 0x0F, 0x7F, 0xFF, 0x80, 0x00, 0xCA] = some (.jg .variable (.large 0x7FFF) (.large 0x8000) ⟨true, .short 10⟩) ∧
      reads [0x04, 0x11, 0x01, 0x3F, 0xF9] = some (.decChk .long (.small 0x11) (.small 1) ⟨false, .long 0x3FF9⟩) ∧
      reads [0x25, 0x10, 0x00, 0xCA] = some (.incChk .long (.small 0x10) (.var 0) ⟨true, .short 10⟩) ∧
      reads [0x66, 0x01, 0x02, 0x80, 0x0A] = some (.jin .long (.var 1) (.var 2) ⟨true, .long 10⟩) ∧
      reads [0x07, 0xF0, 0x30, 0xCA] = some (.test .long (.small 0xF0) (.small 0x30) ⟨true, .short 10⟩) ∧
      reads [0x0A, 0x03, 0x09, 0x7F] = some (.testAttr .long (.small 3) (.small 9) ⟨false, .short 63⟩) := by decide

theorem test_decode_two_operand_stores :
    reads [0x08, 0xF0, 0x0F, 0x10] = some (.or .long (.small 0xF0) (.small 0x0F) 0x10) ∧
      reads [0xC9, 0x0F, 0xF0, 0xF0, 0x0F, 0xF0, 0x10] = some (.and .variable (.large 0xF0F0) (.large 0x0FF0) 0x10) ∧
      reads [0xCF, 0x1F, 0x02, 0x20, 0x02, 0x10] = some (.loadw .variable (.large 0x220) (.small 2) 0x10) ∧
      reads [0xD0, 0x4F, 0x01, 0xFF, 0xFF, 0x10] = some (.loadb .variable (.small 1) (.large 0xFFFF) 0x10) ∧
      reads [0x11, 0x01, 0x12, 0x10] = some (.getProp .long (.small 1) (.small 0x12) 0x10) ∧
      reads [0x12, 0x02, 0x0A, 0x10] = some (.getPropAddr .long (.small 2) (.small 10) 0x10) ∧
      reads [0x13, 0x02, 0x00, 0x10] = some (.getNextProp .long (.small 2) (.small 0) 0x10) ∧
      reads [0x74, 0x11, 0x12, 0x10] = some (.add .long (.var 0x11) (.var 0x12) 0x10) ∧
      reads [0x75, 0x00, 0x00, 0x10] = some (.sub .long (.var 0) (.var 0) 0x10) ∧
      reads [0xD6, 0x1F, 0xFF, 0xF9, 0x03, 0x10] = some (.mul .variable (.large 0xFFF9) (.small 3) 0x10) ∧
      reads [0x17, 0x07, 0x00, 0x10] = some (.div .long (.small 7) (.small 0) 0x10) ∧
      reads [0xD8, 0xAF, 0x10, 0x11, 0x00] = some (.mod .variable (.var 0x10) (.var 0x11) 0) := by decide

theorem test_decode_two_operand_plain :
    reads [0x0B, 0x03, 0x09] = some (.setAttr .long (.small 3) (.small 9)) ∧
      reads [0xCC, 0x5F, 0x03, 0x09] = some (.clearAttr .variable (.small 3) (.small 9)) ∧
      reads [0x2D, 0x00, 0x00] = some (.store .long (.small 0) (.var 0)) ∧
      reads [0x0E, 0x02, 0x03] = some (.insertObj .long (.small 2) (.small 3)) := by decide

theorem test_decode_one_operand :
    reads [0x90, 0x00, 0xCA] = some (.jz (.small 0) ⟨true, .short 10⟩) ∧
      reads [0xA1, 0x11, 0x11, 0xBF, 0xFA] = some (.getSibling (.var 0x11) 0x11 ⟨true, .long 0x3FFA⟩) ∧
      reads [0x92, 0x01, 0x11, 0x4A] = some (.getChild (.small 1) 0x11 ⟨false, .short 10⟩) ∧
      reads [0x93, 0x03, 0x10] = some (.getParent (.small 3) 0x10) ∧
      reads [0xA4, 0x10, 0x10] = some (.getPropLen (.var 0x10) 0x10) ∧
      reads [0x95, 0x10] = some (.inc (.small 0x10)) ∧
      reads [0x86, 0x00, 0x10] = some (.dec (.large 0x10)) ∧
      reads [0x87, 0x06, 0x00] = some (.printAddr (.large 0x600)) ∧
      reads [0x99, 0x02] = some (.removeObj (.small 2)) ∧
      reads [0xAA, 0x11] = some (.printObj (.var 0x11)) ∧
      reads [0xAB, 0x11] = some (.ret (.var 0x11)) ∧
      reads [0x8C, 0xFF, 0xFD] = some (.jump (.large 0xFFFD)) ∧
      reads [0x8D, 0x03, 0x80] = some (.printPaddr (.large 0x380)) ∧
      reads [0x9E, 0x11, 0x10] = some (.load (.small 0x11) 0x10) ∧
      reads [0x9F, 0xFF, 0x10] = some (.not (.small 0xFF) 0x10) := by decide

theorem test_decode_no_operand :
    reads [0xB0] = some (.rtrue) ∧
      reads [0xB1] = some (.rfalse) ∧
      reads [0xB2, 0x35, 0x51, 0xC6, 0x85] = some (.print [0x3551, 0xC685]) ∧
      reads [0xB3, 0x94, 0xA5] = some (.printRet [0x94A5]) ∧
      reads [0xB4] = some (.nop) ∧
      reads [0xB5, 0xC5] = some (.save ⟨true, .short 5⟩) ∧
      reads [0xB6, 0x45] = some (.restore ⟨false, .short 5⟩) ∧
      reads [0xB7] = some (.restart) ∧
      reads [0xB8] = some (.retPopped) ∧
      reads [0xB9] = some (.pop) ∧
      reads [0xBA] = some (.quit) ∧
      reads [0xBB] = some (.newLine) ∧
      reads [0xBC] = some (.showStatus) ∧
      reads [0xBD, 0x3F, 0xFE] = some (.verify ⟨false, .long 0x3FFE⟩) := by decide

theorem test_decode_variable_operand :
    reads [0xE0, 0x15, 0x03, 0x00, 0x02, 0x03, 0x04, 0x10] = some (.call (.large 0x300) [.small 2, .small 3, .small 4] 0x10) ∧
      reads [0xE0, 0x3F, 0x00, 0x00, 0x10] = some (.call (.large 0) [] 0x10) ∧
      reads [0xE1, 0x13, 0x01, 0x00, 0x01, 0xBE, 0xEF] = some (.storew (.large 0x100) (.small 1) (.large 0xBEEF)) ∧
      reads [0xE2, 0x17, 0x04, 0x00, 0x00, 0x01] = some (.storeb (.large 0x400) (.small 0) (.small 1)) ∧
      reads [0xE3, 0x57, 0x02, 0x0A, 0x55] = some (.putProp (.small 2) (.small 10) (.small 0x55)) ∧
      reads [0xE4, 0x0F, 0x01, 0x00, 0x01, 0x40] = some (.sread (.large 0x100) (.large 0x140)) ∧
      reads [0xE5, 0x7F, 0x41] = some (.printChar (.small 0x41)) ∧
      reads [0xE6, 0x3F, 0xFF, 0xFF] = some (.printNum (.large 0xFFFF)) ∧
      reads [0xE7, 0xBF, 0x10, 0x11] = some (.random (.var 0x10) 0x11) ∧
      reads [0xE8, 0x7F, 0x2A] = some (.push (.small 0x2A)) ∧
      reads [0xE9, 0x7F, 0x11] = some (.pull (.small 0x11)) ∧
      reads [0xEA, 0x7F, 0x01] = some (.splitWindow (.small 1)) ∧
      reads [0xEB, 0x7F, 0x00] = some (.setWindow (.small 0)) ∧
      reads [0xF3, 0x7F, 0x01] = some (.outputStream (.small 1) none) ∧
      reads [0xF3, 0x4F, 0x03, 0x01, 0x00] = some (.outputStream (.small 3) (some (.large 0x100))) ∧
      reads [0xF4, 0x7F, 0x00] = some (.inputStream (.small 0)) ∧
      reads [0xF5, 0x5F, 0x01, 0x02] = some (.soundEffect (.small 1) [.small 2]) := by decide

theorem test_decode_refuses :
    (decode .ignore (Memory.ofBytes 0 [0xBE]) 1 0 = .error (.decode (.illegalOpcode 0 0xBE))) ∧
      (decode .ignore (Memory.ofBytes 0 [0xC1, 0x7F, 0x05, 0xCA]) 4 0 = .error (.decode (.operandCount 0 0xC1))) ∧
      (decode .fault (Memory.ofBytes 0 [0xC1, 0x5D, 0x05, 0x05, 0xCA]) 5 0 = .error (.decode (.malformedTypeByte 0 0xC1))) ∧
      (decode .ignore (Memory.ofBytes 0 [0xC1, 0x5D, 0x05, 0x05, 0xCA]) 5 0 =
        .ok (.je .variable (.small 5) (.small 5) [] ⟨true, .short 10⟩)) ∧
      (decode .ignore (Memory.ofBytes 0 [0x14, 0x05]) 2 0 = .error (.memory (.outOfBounds 2))) := by decide

/-! ## Single steps in the fixture F of 95_test_vectors.md section 2 -/

/-- F's header. -/
def headerF : Header :=
  { version := 3, flags1 := 0, release := 0, highBase := 0x0500, initialPc := 0x0500, dictBase := 0x03C0, objBase := 0x0220,
    globBase := 0x0040, staticBase := 0x0400, flags2 := 0, serial := 0, abbrBase := 0x0300, fileLen := 0x0400, checksum := 0 }

/-- F's object entries. -/
def entries : Memory :=
  Memory.ofBytes 0x025E [0x20, 0, 0, 0, 0, 0, 3, 0x02, 0x82, 0, 0, 0, 1, 1, 0, 4, 0x02, 0x8D] ++
    Memory.ofBytes 0x0270 [0x80, 0, 0, 0, 1, 2, 0, 0x02, 0x9B, 0, 0, 0, 0, 2, 0, 0, 0x02, 0xAD]

/-- F's property tables. -/
def props : Memory :=
  Memory.ofBytes 0x0282 [2, 0x5E, 0x94, 0xC8, 0xA5, 0x32, 0x12, 0x34, 5, 7, 0, 1, 0x9E, 0x9D, 0x74, 1, 2, 3, 4, 0x2A, 0xBE, 0xEF, 3, 0x33, 0] ++
    Memory.ofBytes 0x029B [2, 0x44, 0xD2, 0xD4, 0xA5, 0xFF, 0xA0, 0xA1, 0xA2, 0xA3, 0xA4, 0xA5, 0xA6, 0xA7, 0x21, 0xFF, 0xFF, 0, 0, 0]

/-- F's dictionary. -/
def dictionary : Memory :=
  Memory.ofBytes 0x03C0 [3, 0x2E, 0x2C, 0x22, 7, 0, 4, 0x1E, 0x9D, 0x94, 0xA5, 0, 0, 0, 0x44, 0xD2, 0xD4, 0xA5, 0, 0, 0] ++
    Memory.ofBytes 0x03D5 [0x52, 0xAA, 0xCC, 0xA5, 0, 0, 0, 0x64, 0xD0, 0xA8, 0xA5, 0, 0, 0]

/-- F with the part of its data a vector uses, the code at 0x0500, and more bytes above it. -/
def fixture (low : Memory) (code : List Byte) (high : Memory) : State :=
  { State.reset with
    len := 0x0800, mem := low ++ Memory.ofBytes 0x0500 code ++ high, rom := low ++ Memory.ofBytes 0x0500 code ++ high,
    hdr := headerF, pc := 0x0500 }

/-- A step of `s` gives a state that passes `ok`. -/
def gives (s : State) (ok : State → Bool) : Bool :=
  match step s with
  | .next t => ok t
  | .fault _ => false
  | .refused _ => false

/-- Global variable `n`. -/
def global (n : Nat) (t : State) : Word := t.mem.getWord (0x0040 + 2 * n)

/-- Global 0 set to `v` at the start. -/
def withG0 (v : Nat) : Memory := Memory.ofBytes 0x0040 [BitVec.ofNat 8 (v / 256), BitVec.ofNat 8 v]

/-- The fault a state holds. -/
def faultOf (t : State) : Option FaultRecord :=
  match t.status with
  | .faulted f => some f
  | .running => none
  | .halted => none
  | .awaitingInput _ => none

/-- A2. -/
theorem test_je_matches_third_operand :
    gives (fixture [] [0xC1, 0x55, 0x05, 0x06, 0x07, 0x05, 0xCA] [])
      (fun t => t.pc == 0x050F) = true := by decide

/-- A5. -/
theorem test_jl_is_signed :
    gives (fixture [] [0xC2, 0x1F, 0xFF, 0xFF, 0x01, 0xCA] [])
      (fun t => t.pc == 0x050E) = true := by decide

/-- A8. -/
theorem test_jg_is_signed :
    gives (fixture [] [0xC3, 0x0F, 0x7F, 0xFF, 0x80, 0x00, 0xCA] [])
      (fun t => t.pc == 0x050F) = true := by decide

/-- A42. -/
theorem test_dec_chk_wraps :
    gives (fixture [] [0x04, 0x10, 0x00, 0xCA] [])
      (fun t => t.pc == 0x050C && global 0 t == 0xFFFF) = true := by decide

/-- A44. -/
theorem test_dec_chk_refuses_wide_reference :
    gives (fixture (withG0 0x0300) [0x44, 0x10, 0x00, 0xCA] [])
      (fun t => faultOf t == some ⟨.decode (.badVariableRef 0x0500 0x44), 0x0500, some 0x44⟩) = true := by decide

/-- A45. -/
theorem test_inc_chk_on_the_stack_then_returns :
    gives { fixture [] [0x05, 0x00, 0x00, 0xC1] [] with stack := [0] }
      (fun t => t.status == .halted && t.stack == [1] && t.pc == 0x0500) = true := by decide

/-- O9. -/
theorem test_jin_zero_parent :
    gives (fixture entries [0x06, 0x01, 0x00, 0xCA] [])
      (fun t => t.pc == 0x050C) = true := by decide

/-- A13. -/
theorem test_test_needs_every_flag :
    gives (fixture [] [0x07, 0xF0, 0x31, 0xCA] [])
      (fun t => t.pc == 0x0504) = true := by decide

/-- A15. -/
theorem test_or :
    gives (fixture [] [0x08, 0xF0, 0x0F, 0x10] [])
      (fun t => t.pc == 0x0504 && global 0 t == 0x00FF) = true := by decide

/-- A16. -/
theorem test_and :
    gives (fixture [] [0xC9, 0x0F, 0xF0, 0xF0, 0x0F, 0xF0, 0x10] [])
      (fun t => t.pc == 0x0507 && global 0 t == 0x00F0) = true := by decide

/-- O11. -/
theorem test_test_attr_last_bit :
    gives (fixture entries [0x0A, 0x02, 0x1F, 0xCA] [])
      (fun t => t.pc == 0x050C) = true := by decide

/-- O14. -/
theorem test_set_attr :
    gives (fixture entries [0x0B, 0x03, 0x09] [])
      (fun t => t.pc == 0x0503 && t.mem.get 0x0271 == 0x40) = true := by decide

/-- O16. -/
theorem test_clear_attr :
    gives (fixture entries [0x0C, 0x03, 0x00] [])
      (fun t => t.pc == 0x0503 && t.mem.get 0x0270 == 0) = true := by decide

/-- M3. -/
theorem test_store_to_the_stack_replaces :
    gives { fixture [] [0x2D, 0x00, 0x00] [] with stack := [2, 1] }
      (fun t => t.pc == 0x0503 && t.stack == [2]) = true := by decide

/-- O46. -/
theorem test_insert_obj_second_child :
    gives (fixture entries [0x0E, 0x02, 0x01] [])
      (fun t => t.mem.get 0x0264 == 2 && t.mem.get 0x026C == 3 && t.mem.get 0x0275 == 0) = true := by decide

/-- O43. -/
theorem test_insert_obj_into_descendant :
    gives (fixture entries [0x0E, 0x01, 0x04] [])
      (fun t => faultOf t == some ⟨.object (.treeCycle 1 4), 0x0500, some 0x0E⟩) = true := by decide

/-- M13. -/
theorem test_loadw_odd_address :
    gives (fixture (Memory.ofBytes 0x0220 [0x10, 0x01, 0x10, 0x02]) [0xCF, 0x1F, 0x02, 0x21, 0x00, 0x10] [])
      (fun t => t.pc == 0x0506 && global 0 t == 0x0110) = true := by decide

/-- M15. -/
theorem test_loadb_address_wraps :
    gives (fixture [] [0xD0, 0x4F, 0x01, 0xFF, 0xFF, 0x10] [])
      (fun t => t.pc == 0x0506 && global 0 t == 0x0003) = true := by decide

/-- O20. -/
theorem test_get_prop_word :
    gives (fixture (entries ++ props) [0x11, 0x01, 0x12, 0x10] [])
      (fun t => t.pc == 0x0504 && global 0 t == 0x1234) = true := by decide

/-- O22. -/
theorem test_get_prop_default :
    gives (fixture (Memory.ofBytes 0x022C [0x10, 0x07] ++ entries ++ props) [0x11, 0x01, 0x07, 0x10] [])
      (fun t => t.pc == 0x0504 && global 0 t == 0x1007) = true := by decide

/-- O27. -/
theorem test_get_prop_addr :
    gives (fixture (entries ++ props) [0x12, 0x02, 0x0A, 0x10] [])
      (fun t => t.pc == 0x0504 && global 0 t == 0x0296) = true := by decide

/-- O33. -/
theorem test_get_next_prop :
    gives (fixture (entries ++ props) [0x13, 0x02, 0x14, 0x10] [])
      (fun t => t.pc == 0x0504 && global 0 t == 0x000A) = true := by decide

/-- O35. -/
theorem test_get_next_prop_missing :
    gives (fixture (entries ++ props) [0x13, 0x02, 0x07, 0x10] [])
      (fun t => faultOf t == some ⟨.object (.missingProperty 2 7), 0x0500, some 0x13⟩) = true := by decide

/-- A20. -/
theorem test_add_pops_both :
    gives { fixture [] [0x74, 0x00, 0x00, 0x10] [] with stack := [10, 3] }
      (fun t => t.pc == 0x0504 && global 0 t == 0x000D && t.stack == []) = true := by decide

/-- A19. -/
theorem test_add_wraps :
    gives (fixture [] [0xD4, 0x1F, 0x7F, 0xFF, 0x01, 0x10] [])
      (fun t => t.pc == 0x0506 && global 0 t == 0x8000) = true := by decide

/-- A22. -/
theorem test_sub_takes_the_top_first :
    gives { fixture [] [0x75, 0x00, 0x00, 0x10] [] with stack := [10, 3] }
      (fun t => t.pc == 0x0504 && global 0 t == 0x0007) = true := by decide

/-- A25. -/
theorem test_mul_signed :
    gives (fixture [] [0xD6, 0x1F, 0xFF, 0xF9, 0x03, 0x10] [])
      (fun t => t.pc == 0x0506 && global 0 t == 0xFFEB) = true := by decide

/-- A27. -/
theorem test_div_truncates_toward_zero :
    gives (fixture [] [0xD7, 0x4F, 0x07, 0xFF, 0xFE, 0x10] [])
      (fun t => t.pc == 0x0506 && global 0 t == 0xFFFD) = true := by decide

/-- A28. -/
theorem test_div_most_negative :
    gives (fixture [] [0xD7, 0x0F, 0x80, 0x00, 0xFF, 0xFF, 0x10] [])
      (fun t => t.pc == 0x0507 && global 0 t == 0x8000) = true := by decide

/-- A30. -/
theorem test_mod_sign_of_dividend :
    gives (fixture [] [0xD8, 0x1F, 0xFF, 0xF9, 0x02, 0x10] [])
      (fun t => t.pc == 0x0506 && global 0 t == 0xFFFF) = true := by decide

/-- A33. -/
theorem test_mod_by_zero :
    gives (fixture [] [0x18, 0x07, 0x00, 0x10] [])
      (fun t => faultOf t == some ⟨.arithmetic .divideByZero, 0x0500, some 0x18⟩) = true := by decide

/-- D19. -/
theorem test_jz_long_backward : gives (fixture [] [0x90, 0x00, 0xBF, 0xFE] []) (fun t => t.pc == 0x0500) = true := by decide

/-- O3. -/
theorem test_get_sibling :
    gives (fixture entries [0x91, 0x03, 0x10, 0xCA] [])
      (fun t => t.pc == 0x050C && global 0 t == 0x0002) = true := by decide

/-- O6. -/
theorem test_get_child_none :
    gives (fixture (withG0 0xFFFF ++ entries) [0x92, 0x04, 0x10, 0xCA] [])
      (fun t => t.pc == 0x0504 && global 0 t == 0x0000) = true := by decide

/-- O1. -/
theorem test_get_parent :
    gives (fixture entries [0x93, 0x03, 0x10] [])
      (fun t => t.pc == 0x0503 && global 0 t == 0x0001) = true := by decide

/-- O7. -/
theorem test_get_parent_of_zero :
    gives (fixture entries [0x93, 0x00, 0x10] [])
      (fun t => faultOf t == some ⟨.object (.badObject 0), 0x0500, some 0x93⟩) = true := by decide

/-- O30. -/
theorem test_get_prop_len :
    gives (fixture (withG0 0x02A1 ++ props) [0xA4, 0x10, 0x10] [])
      (fun t => t.pc == 0x0503 && global 0 t == 0x0008) = true := by decide

/-- A36. -/
theorem test_inc_on_the_stack :
    gives { fixture [] [0x95, 0x00] [] with stack := [5] }
      (fun t => t.pc == 0x0502 && t.stack == [6]) = true := by decide

/-- A38. -/
theorem test_dec_wraps :
    gives (fixture [] [0x96, 0x10] [])
      (fun t => t.pc == 0x0502 && global 0 t == 0xFFFF) = true := by decide

/-- X2. -/
theorem test_print_addr_shift :
    gives (fixture [] [0x87, 0x06, 0x00] (Memory.ofBytes 0x0600 [0x11, 0xAA, 0xC6, 0x34]))
      (fun t => t.pc == 0x0503 && t.out == [72, 101, 108, 108, 111]) = true := by decide

/-- X8. -/
theorem test_print_addr_abbreviation :
    gives (fixture (Memory.ofBytes 0x0300 [3, 0x80]) [0x87, 0x06, 0x00] (Memory.ofBytes 0x0600 [0x04, 0x19, 0x9A, 0x0A] ++ Memory.ofBytes 0x0700 [0x65, 0xAA, 0x80, 0xA5]))
      (fun t => t.out == [116, 104, 101, 32, 116, 97, 107, 101]) = true := by decide

/-- O48. -/
theorem test_remove_obj_first_child :
    gives (fixture entries [0x99, 0x03] [])
      (fun t => t.mem.get 0x0264 == 2 && t.mem.get 0x0274 == 0 && t.mem.get 0x0275 == 0) = true := by decide

/-- O51. -/
theorem test_print_obj :
    gives (fixture (entries ++ props) [0x9A, 0x03] [])
      (fun t => t.pc == 0x0502 && t.out == [108, 97, 109, 112]) = true := by decide

/-- D5. -/
theorem test_ret_from_the_root_halts :
    gives (fixture (Memory.ofBytes 0x0042 [0, 7]) [0xAB, 0x11] [])
      (fun t => t.status == .halted && t.pc == 0x0500) = true := by decide

/-- A48. -/
theorem test_jump_backward : gives (fixture [] [0x8C, 0xFF, 0xFD] []) (fun t => t.pc == 0x04FE) = true := by decide

/-- A49. -/
theorem test_jump_negative_target :
    gives (fixture [] [0x8C, 0xFA, 0xF0] [])
      (fun t => faultOf t == some ⟨.memory (.outOfBounds (-15)), 0x0500, some 0x8C⟩) = true := by decide

/-- X19. -/
theorem test_print_paddr :
    gives (fixture [] [0x8D, 0x03, 0x80] (Memory.ofBytes 0x0700 [0x65, 0xAA, 0x80, 0xA5]))
      (fun t => t.pc == 0x0503 && t.out == [116, 104, 101, 32]) = true := by decide

/-- M8. -/
theorem test_load_leaves_the_stack :
    gives { fixture [] [0x9E, 0x00, 0x10] [] with stack := [7] }
      (fun t => t.pc == 0x0503 && global 0 t == 0x0007 && t.stack == [7]) = true := by decide

/-- A17. -/
theorem test_not :
    gives (fixture [] [0x9F, 0xFF, 0x10] [])
      (fun t => t.pc == 0x0503 && global 0 t == 0xFF00) = true := by decide

/-- K15. -/
theorem test_rtrue_from_the_root_halts :
    gives (fixture [] [0xB0] [])
      (fun t => t.status == .halted && t.pc == 0x0500) = true := by decide

/-- K10, its second step, with K24's caller word. -/
theorem test_rfalse_returns :
    gives { fixture (withG0 0xFFFF) [0xB1] [] with frame := { returnPc := some 0x0505, storeVar := some 0x10, locals := [], argCount := 0, stackBase := 1 }, callers := [rootFrame], stack := [7, 4] }
      (fun t => t.pc == 0x0505 && global 0 t == 0x0000 && t.stack == [4] && t.callers == []) = true := by decide

/-- P1's text, R206. -/
theorem test_print :
    gives (fixture [] [0xB2, 0x35, 0x51, 0xC6, 0x85] [])
      (fun t => t.pc == 0x0505 && t.out == [104, 101, 108, 108, 111]) = true := by decide

/-- X28. -/
theorem test_print_ret :
    gives (fixture [] [0xB3, 0x35, 0x51, 0xC6, 0x85] [])
      (fun t => t.status == .halted && t.out == [104, 101, 108, 108, 111, 13]) = true := by decide

/-- I9. -/
theorem test_nop : gives (fixture [] [0xB4] []) (fun t => t.pc == 0x0501) = true := by decide

/-- I6. -/
theorem test_save_branches_if_false : gives (fixture [] [0xB5, 0x45] []) (fun t => t.pc == 0x0505) = true := by decide

/-- I7. -/
theorem test_restore_falls_through : gives (fixture [] [0xB6, 0xC5] []) (fun t => t.pc == 0x0502) = true := by decide

/-- I20, its second step. -/
theorem test_restart :
    gives { fixture [] [0xB7] [] with mem := Memory.ofBytes 0x0042 [0, 0x55] ++ Memory.ofBytes 0x0500 [0xB7], stack := [1] }
      (fun t => t.pc == 0x0500 && global 1 t == 0 && t.stack == []) = true := by decide

/-- K16. -/
theorem test_ret_popped_halts :
    gives { fixture [] [0xB8] [] with stack := [9] }
      (fun t => t.status == .halted && t.pc == 0x0500 && t.stack == []) = true := by decide

/-- K22. -/
theorem test_pop :
    gives { fixture [] [0xB9] [] with stack := [6, 5] }
      (fun t => t.pc == 0x0501 && t.stack == [5]) = true := by decide

/-- K25, its second step. -/
theorem test_pop_stops_at_the_base :
    gives { fixture [] [0xB9] [] with frame := { returnPc := some 0x0505, storeVar := some 0x10, locals := [], argCount := 0, stackBase := 1 }, callers := [rootFrame], stack := [4] }
      (fun t => faultOf t == some ⟨.stack .evalUnderflow, 0x0500, some 0xB9⟩) = true := by decide

/-- I8. -/
theorem test_quit : gives (fixture [] [0xBA] []) (fun t => t.status == .halted && t.pc == 0x0500) = true := by decide

/-- X27. -/
theorem test_new_line : gives (fixture [] [0xBB] []) (fun t => t.pc == 0x0501 && t.out == [13]) = true := by decide

/-- I10. -/
theorem test_show_status_faults :
    gives (fixture [] [0xBC] [])
      (fun t => faultOf t == some ⟨.decode (.unimplemented 0x0500 0xBC), 0x0500, some 0xBC⟩) = true := by decide

/-- I11. -/
theorem test_show_status_nop :
    gives { fixture [] [0xBC] [] with params := { Params.default with nongoal := .nop } }
      (fun t => t.pc == 0x0501) = true := by decide

/-- R366 by hand: 66 bytes, 0x12 + 0x34 = 0x46. -/
theorem test_verify_sums_from_0x40 :
    gives { fixture (Memory.ofBytes 0x0040 [0x12, 0x34]) [0xBD, 0xC5] [] with hdr := { headerF with fileLen := 0x21, checksum := 0x46 } }
      (fun t => t.pc == 0x0505) = true := by decide

/-- R366 by hand. -/
theorem test_verify_wrong_sum :
    gives { fixture (Memory.ofBytes 0x0040 [0x12, 0x35]) [0xBD, 0xC5] [] with hdr := { headerF with fileLen := 0x21, checksum := 0x46 } }
      (fun t => t.pc == 0x0502) = true := by decide

/-- K1. -/
theorem test_call_enters :
    gives (fixture [] [0xE0, 0x1F, 0x03, 0x00, 0x05, 0x10] (Memory.ofBytes 0x0600 [2, 0, 7, 0, 9]))
      (fun t => t.pc == 0x0605 && t.frame == ⟨some 0x0506, some 0x10, [5, 9], 1, 0⟩ && t.callers == [rootFrame]) = true := by decide

/-- K6. -/
theorem test_call_too_deep :
    gives { fixture [] [0xE0, 0x1F, 0x03, 0x00, 0x05, 0x10] (Memory.ofBytes 0x0600 [2, 0, 7, 0, 9]) with params := { Params.default with maxCallDepth := 1 } }
      (fun t => faultOf t == some ⟨.stack .stackOverflow, 0x0500, some 0xE0⟩) = true := by decide

/-- M17. -/
theorem test_storew :
    gives (fixture [] [0xE1, 0x13, 0x01, 0x00, 0x01, 0xBE, 0xEF] [])
      (fun t => t.pc == 0x0507 && t.mem.getWord 0x0102 == 0xBEEF) = true := by decide

/-- M18. -/
theorem test_storew_across_the_boundary :
    gives (fixture [] [0xE1, 0x17, 0x03, 0xFF, 0x00, 0x01] [])
      (fun t => faultOf t == some ⟨.memory (.writeViolation 0x03FF), 0x0500, some 0xE1⟩) = true := by decide

/-- M24. -/
theorem test_storeb_low_byte :
    gives (fixture [] [0xE2, 0x03, 0x01, 0x00, 0x00, 0x00, 0x12, 0x34] [])
      (fun t => t.pc == 0x0508 && t.mem.getWord 0x0100 == 0x3400) = true := by decide

/-- O38. -/
theorem test_put_prop_byte :
    gives (fixture (entries ++ props) [0xE3, 0x53, 0x02, 0x03, 0x12, 0x34] [])
      (fun t => t.pc == 0x0506 && t.mem.get 0x0299 == 0x34) = true := by decide

/-- I1. -/
theorem test_sread_suspends :
    gives (fixture [] [0xE4, 0x0F, 0x01, 0x00, 0x01, 0x40] [])
      (fun t => t.status == .awaitingInput ⟨0x0100, 0x0140, 0x0500, 0x0506⟩ && t.pc == 0x0500) = true := by decide

/-- X20. -/
theorem test_print_char :
    gives (fixture [] [0xE5, 0x7F, 0x41] [])
      (fun t => t.pc == 0x0503 && t.out == [65]) = true := by decide

/-- X22. -/
theorem test_print_char_above_1023 :
    gives (fixture [] [0xE5, 0x3F, 0x04, 0x00] [])
      (fun t => faultOf t == some ⟨.text (.badCharacter 1024), 0x0500, some 0xE5⟩) = true := by decide

/-- X24. -/
theorem test_print_num_most_negative :
    gives (fixture [] [0xE6, 0x3F, 0x80, 0x00] [])
      (fun t => t.pc == 0x0504 && t.out == [45, 51, 50, 55, 54, 56]) = true := by decide

/-- I2. -/
theorem test_random_negative_stores_zero :
    gives (fixture (withG0 0xFFFF) [0xE7, 0x3F, 0xFF, 0xFB, 0x10] [])
      (fun t => t.pc == 0x0505 && global 0 t == 0x0000) = true := by decide

/-- K17. -/
theorem test_push :
    gives (fixture [] [0xE8, 0x7F, 0x2A] [])
      (fun t => t.pc == 0x0503 && t.stack == [42]) = true := by decide

/-- K18. -/
theorem test_push_overflow :
    gives { fixture [] [0xE8, 0x7F, 0x2A] [] with stack := [1], params := { Params.default with maxEvalStack := 1 } }
      (fun t => faultOf t == some ⟨.stack .evalOverflow, 0x0500, some 0xE8⟩) = true := by decide

/-- K20. -/
theorem test_pull_onto_the_stack :
    gives { fixture [] [0xE9, 0x7F, 0x00] [] with stack := [6, 5] }
      (fun t => t.pc == 0x0503 && t.stack == [6]) = true := by decide

/-- I12. -/
theorem test_split_window_faults :
    gives (fixture [] [0xEA, 0x7F, 0x01] [])
      (fun t => faultOf t == some ⟨.decode (.unimplemented 0x0500 0xEA), 0x0500, some 0xEA⟩) = true := by decide

/-- I13. -/
theorem test_set_window_nop :
    gives { fixture [] [0xEB, 0x7F, 0x00] [] with params := { Params.default with nongoal := .nop } }
      (fun t => t.pc == 0x0503) = true := by decide

/-- I15. -/
theorem test_output_stream_pops :
    gives { fixture [] [0xF3, 0xBF, 0x00] [] with stack := [3], params := { Params.default with nongoal := .nop } }
      (fun t => t.pc == 0x0503 && t.stack == []) = true := by decide

/-- I16. -/
theorem test_input_stream_nop :
    gives { fixture [] [0xF4, 0x7F, 0x00] [] with params := { Params.default with nongoal := .nop } }
      (fun t => t.pc == 0x0503) = true := by decide

/-- I18. -/
theorem test_sound_effect_nop :
    gives { fixture [] [0xF5, 0x5F, 0x01, 0x02] [] with params := { Params.default with nongoal := .nop } }
      (fun t => t.pc == 0x0504) = true := by decide

/-- D21: the opcode byte was read, the next operand byte lies at L. -/
theorem test_fetch_past_the_image :
    gives { fixture [] [] (Memory.ofBytes 0x07FE [0x14, 0x05]) with pc := 0x07FE }
      (fun t => faultOf t == some ⟨.memory (.outOfBounds 0x0800), 0x07FE, some 0x14⟩) = true := by decide

/-- U8: a fetch past the image end records no opcode byte. -/
theorem test_fetch_outside_the_image :
    gives { fixture [] [] [] with pc := 0x0901 }
      (fun t => faultOf t == some ⟨.memory (.outOfBounds 0x0901), 0x0901, none⟩) = true := by decide

/-- A host call's answer and state pass `ok`. -/
def answers (r : Reply × State) (ok : State → Bool) : Bool := r.1 == .accepted && ok r.2

/-- N8: the word is stored, found in the dictionary, and execution resumes after the `sread`. -/
theorem test_provide_input :
    answers
      (provideInput [98, 111, 120]
        { fixture (Memory.ofBytes 0x0100 [20] ++ Memory.ofBytes 0x0140 [4] ++ dictionary) [0xE4, 0x0F, 1, 0, 1, 0x40] [] with
          status := .awaitingInput ⟨0x0100, 0x0140, 0x0500, 0x0506⟩ })
      (fun t => t.pc == 0x0506 && t.mem.getWord 0x0101 == 0x626F && t.mem.getWord 0x0141 == 0x0103 &&
        t.mem.getWord 0x0143 == 0xC703 && t.mem.get 0x0145 == 1) = true := by decide

/-- Table E: only six Z-characters are kept. -/
theorem test_encode_word :
    encodeWord [108, 97, 110, 116, 101, 114, 110] = [0x44, 0xD3, 0xE5, 0x57] ∧
      encodeWord [122, 49] = [0x7C, 0xA9, 0x94, 0xA5] ∧ encodeWord [64] = [0x14, 0xC2, 0x80, 0xA5] := by decide

/-- P1 loads to the reset machine but for its five code bytes (R448). -/
theorem test_load_p1 :
    (load Params.default
        ([3, 0, 0, 0, 0, 0, 0, 0x40] ++ List.replicate 7 0 ++ [0x40] ++ List.replicate 48 0 ++ [0xB3, 0x35, 0x51, 0xC6, 0x85])).toOption =
      some { State.reset with
        mem := Memory.ofBytes 0x40 [0xB3, 0x35, 0x51, 0xC6, 0x85], rom := Memory.ofBytes 0x40 [0xB3, 0x35, 0x51, 0xC6, 0x85] } := by
  decide

/-- The first instruction of a table word runs: `withFetchWord` of `B0`. -/
theorem test_with_fetch_word :
    gives (State.reset.withFetchWord 8 0xB0) (fun t => t.status == .halted) = true := by decide

/-! ## Witnesses: for each obligation with hypotheses, a state and operands that meet them, each clause at a boundary -/

/-- F in a routine with the locals 5 and 6, two words of its own on the stack over one of its caller's. -/
def plain : State :=
  { fixture [] [] [] with stack := [2, 1, 9], frame := ⟨some 0x0505, some 0x10, [5, 6], 0, 1⟩, callers := [rootFrame] }

/-- The same with F's objects, in an image whose dynamic memory holds all 255 entries. -/
def wide : State :=
  { plain with
    len := 0x2000, mem := entries ++ props, rom := entries ++ props, hdr := { headerF with staticBase := 0x1000 }, pc := 0x1800 }

/-- A running machine with this code at 0x0500. -/
def coded (code : List Byte) : State := fixture [] code []

/-- A 64-byte image with these header bytes. -/
def header (version pc dict obj glob static abbr : Byte) : List Byte :=
  [version, 0, 0, 0, 0, 0, 0, pc, 0, dict, 0, obj, 0, glob, 0, static] ++ List.replicate 9 0 ++ [abbr] ++ List.replicate 38 0

/-- The header word at `k`. -/
def word (image : List Byte) (k : Nat) : Nat := 256 * (image.getD k 0).toNat + (image.getD (k + 1) 0).toNat

theorem witness_LoadChecks :
    (List.replicate 63 (3 : Byte)).length < 64 ∧ (header 5 0 0 0 0 64 0).getD 0 0 ≠ 3 ∧
      (header 3 64 0 0 0 64 0).length ≤ word (header 3 64 0 0 0 64 0) 0x06 ∧
      (word (header 3 63 64 0 0 64 0) 0x06 < 64 ∧ 64 ≤ word (header 3 63 64 0 0 64 0) 0x08) ∧
      (word (header 3 63 63 64 0 64 0) 0x08 < 64 ∧ 64 ≤ word (header 3 63 63 64 0 64 0) 0x0A) ∧
      (word (header 3 63 63 63 64 64 0) 0x0A < 64 ∧ 64 ≤ word (header 3 63 63 63 64 64 0) 0x0C) ∧
      (word (header 3 63 63 63 63 64 64) 0x0C < 64 ∧ 64 ≤ word (header 3 63 63 63 63 64 64) 0x18) ∧
      (word (header 3 63 63 63 63 63 63) 0x18 < 64 ∧ word (header 3 63 63 63 63 63 63) 0x0E < 64) ∧
      64 < word (header 3 63 63 63 63 65 63) 0x0E ∧
      ((header 3 63 63 63 63 64 63).length = 64 ∧ (header 3 63 63 63 63 64 63).getD 0 0 = 3 ∧
        word (header 3 63 63 63 63 64 63) 0x06 < 64 ∧ word (header 3 63 63 63 63 64 63) 0x08 < 64 ∧
        word (header 3 63 63 63 63 64 63) 0x0A < 64 ∧ word (header 3 63 63 63 63 64 63) 0x0C < 64 ∧
        word (header 3 63 63 63 63 64 63) 0x18 < 64 ∧ 64 ≤ word (header 3 63 63 63 63 64 63) 0x0E) := by decide

theorem witness_LoadedState : ∃ s, load Params.default (header 3 63 63 63 63 64 63) = .ok s :=
  ⟨loaded Params.default (Memory.ofBytes 0 (header 3 63 63 63 63 64 63)) 64, by decide⟩

theorem witness_LoadedInv :
    1 ≤ Params.default.maxCallDepth ∧ ∃ s, load Params.default (header 3 63 63 63 63 64 63) = .ok s :=
  ⟨by decide, witness_LoadedState⟩

theorem witness_MemoryAccess :
    plain.mem.wf ∧ 0x07FF < plain.len ∧ plain.len ≤ 0x0800 ∧ 0x07FE + 1 < plain.len ∧ plain.len ≤ 0x07FF + 1 ∧
      plain.hdr.staticBase.toNat ≤ 0x0400 ∧ 0x03FF < plain.hdr.staticBase.toNat ∧ 0x03FE + 1 < plain.hdr.staticBase.toNat ∧
      plain.hdr.staticBase.toNat ≤ 0x03FF + 1 := by decide

/-- A `je` with every operand type, at the end of an image. -/
theorem witness_DecodeEncode :
    let i := Instr.je .variable (.large 0xFFFF) (.var 0) [.small 1, .small 2] ⟨false, .long 0x3FFF⟩
    i.wellFormed = true ∧ 0x0500 + (encode i).length ≤ 0x0509 ∧
      ∀ k, k < (encode i).length →
        (coded [0xC1, 0x25, 0xFF, 0xFF, 0, 1, 2, 0x3F, 0xFF]).mem.get (0x0500 + k) = (encode i).getD k 0 := by decide

/-- The hypothesis of EncodeDecode, DecodeWellFormed and DecodeLocal (for the last, with memory itself as the second one). -/
theorem witness_EncodeDecode_DecodeWellFormed_DecodeLocal :
    decodeNext .fault (coded [0xC1, 0x25, 0xFF, 0xFF, 0, 1, 2, 0x3F, 0xFF]).mem 0x0509 0x0500 =
      .ok (.je .variable (.large 0xFFFF) (.var 0) [.small 1, .small 2] ⟨false, .long 0x3FFF⟩, 0x0509) := by decide

theorem witness_IllegalOpcodes :
    0x07FF < plain.len ∧ decodeNext .ignore plain.mem plain.len 0x07FF = .error (.decode (.illegalOpcode 0x07FF 0)) ∧
      ((0xFF : Byte).toNat ∈ List.range' 0xF6 10 ∧ (0xF5 : Byte).toNat ∉ List.range' 0xF6 10) := by decide

/-- The byte pairs give each clause: a late field, a count below and above the range, a count in it. -/
theorem witness_TypeByte :
    (typeFields 0x5D).takeWhile (· ≠ 3) = [1, 1] ∧ (∃ c ∈ (typeFields 0x5D).drop 2, c ≠ 3) ∧
      ((typeFields 0xFF).takeWhile (· ≠ 3)).length < 1 ∧ 2 < ((typeFields 0x57).takeWhile (· ≠ 3)).length ∧
      decodeNext .fault (coded [0xF3, 0x5F, 1, 2]).mem 0x0504 0x0500 =
        .ok (.outputStream (.small 1) (some (.small 2)), 0x0504) := by decide

theorem witness_StepRunsDecoded :
    (coded [0xB4]).status = .running ∧ decode .ignore (coded [0xB4]).mem 0x0800 0x0500 = .ok .nop ∧
      decode .ignore (coded [0xBE]).mem 0x0800 0x0500 = .error (.decode (.illegalOpcode 0x0500 0xBE)) ∧
      ({ plain with status := .halted } : State).status ≠ .running := by decide

theorem witness_StepRunsEncoded :
    let s := { fixture [] [] (Memory.ofBytes 0x07FC [0x14, 0x05, 0x03, 0x10]) with pc := 0x07FC }
    let i := Instr.add .long (.small 5) (.small 3) 0x10
    s.status = .running ∧ i.wellFormed = true ∧ s.pc + (encode i).length ≤ s.len ∧
      ∀ k, k < (encode i).length → s.mem.get (s.pc + k) = (encode i).getD k 0 := by decide

theorem witness_ReadVariable :
    (plain.stack = 2 :: [1, 9] ∧ plain.frame.stackBase < plain.stack.length) ∧
      ({ plain with stack := [9] } : State).stack.length ≤ plain.frame.stackBase ∧
      plain.frame.locals[(2 : Byte).toNat - 1]? = some 6 ∧ plain.frame.locals.length < (3 : Byte).toNat ∧
      plain.globalAddr 0xFF + 1 < plain.len ∧ ({ plain with len := 0x021F } : State).len ≤ plain.globalAddr 0xFF + 1 := by
  decide

theorem witness_WriteVariable :
    plain.mem.wf ∧ plain.stack.length < plain.params.maxEvalStack ∧
      ({ plain with params := { Params.default with maxEvalStack := 3 } } : State).params.maxEvalStack ≤ plain.stack.length ∧
      (2 : Byte).toNat ≤ plain.frame.locals.length ∧ plain.frame.locals.length < (3 : Byte).toNat ∧
      ({ plain with len := 0x021F } : State).len ≤ plain.globalAddr 0xFF + 1 ∧
      ({ headerF with staticBase := 0x021F } : Header).staticBase.toNat ≤ plain.globalAddr 0xFF + 1 ∧
      plain.globalAddr 0xFF + 1 < plain.len ∧ plain.globalAddr 0xFF + 1 < plain.hdr.staticBase.toNat := by decide

theorem witness_InPlaceAccess :
    (plain.stack = 2 :: [1, 9] ∧ plain.frame.stackBase < plain.stack.length) ∧
      ({ plain with stack := [9] } : State).stack.length ≤ plain.frame.stackBase ∧
      readVar 2 plain = .ok (6, plain) ∧ readVar 3 plain = .error (.stack (.badLocal 3)) := by decide

theorem witness_OperandValues :
    (plain.stack = 2 :: 1 :: [9] ∧ plain.frame.stackBase ≤ [(9 : Word)].length) ∧
      resolve (.var 3) plain = .error (.stack (.badLocal 3)) ∧ resolve (.var 2) plain = .ok (6, plain) ∧
      resolveAll [.var 3] plain = .error (.stack (.badLocal 3)) ∧ resolveAll [.small 1] plain = .ok ([1], plain) ∧
      opsReadable [.var 0, .var 0] plain = true ∧ opsReadable [.var 0, .var 0, .var 0] plain = false := by decide

/-- Offsets 0, 1, the one whose target is address 0, and the one whose target is address -1. -/
theorem witness_BranchRule :
    (⟨true, .short 0⟩ : Branch).offset.value = 0 ∧ (⟨true, .long 1⟩ : Branch).offset.value = 1 ∧
      branchTarget (.jz (.small 0) ⟨true, .long 0x3FFE⟩) ⟨true, .long 0x3FFE⟩ { plain with pc := 0 } = 0 ∧
      branchTarget (.jz (.small 0) ⟨true, .long 0x3FFD⟩) ⟨true, .long 0x3FFD⟩ { plain with pc := 0 } = -1 := by decide

theorem witness_ReturnRule :
    (coded []).callers = [] ∧ plain.callers = rootFrame :: [] ∧ plain.frame.returnPc = some 0x0505 ∧
      plain.stack = [2, 1] ++ [9] ∧ [(9 : Word)].length = plain.frame.stackBase ∧ plain.frame.storeVar = some 0x10 ∧
      ({ plain with frame := ⟨some 0x0505, none, [], 0, 1⟩ } : State).frame.storeVar = none := by decide

/-- Operands that pop, a store variable that pushes. -/
theorem witness_LogicAndArithmetic :
    opsReadable [.var 0, .var 0] plain = true ∧ varWritable 0 (opsAfter [.var 0, .var 0] plain) = true ∧
      opReadable (.var 2) plain = true ∧ varWritable 2 (opAfter (.var 2) plain) = true := by decide

theorem witness_DivideAndRemainder :
    opsReadable [.large 0x8000, .large 0xFFFF] plain = true ∧ opValue (.large 0xFFFF) plain ≠ 0 ∧
      varWritable 0xFF plain = true ∧ opValue (.small 0) plain = 0 := by decide

theorem witness_IncrementAndDecrement :
    let up := varValue 0xFF plain + 1
    let down := varValue 0xFF plain - 1
    opReadable (.small 0xFF) plain = true ∧ (opValue (.small 0xFF) plain).toNat ≤ 255 ∧ varReadable 0xFF plain = true ∧
      inPlaceWritable 0xFF plain = true ∧ 255 < (opValue (.large 0x0100) plain).toNat ∧
      opsReadable [.small 0xFF, .small 0] plain = true ∧
      branchable (.incChk .long (.small 0xFF) (.small 0) ⟨true, .short 1⟩) ⟨true, .short 1⟩
        (decide ((0 : Word).toInt < up.toInt)) (withVarInPlace 0xFF up plain) = true ∧
      branchable (.decChk .long (.small 0xFF) (.small 0) ⟨true, .short 2⟩) ⟨true, .short 2⟩
        (decide (down.toInt < (0 : Word).toInt)) (withVarInPlace 0xFF down plain) = true := by decide

theorem witness_BranchConditions :
    opsReadable [.small 5, .small 6, .small 7, .small 5] plain = true ∧
      (true = true ↔ (5 : Word) ∈ opValues [.small 6, .small 7, .small 5] plain) ∧
      branchable (.je .variable (.small 5) (.small 6) [.small 7, .small 5] ⟨true, .short 0⟩) ⟨true, .short 0⟩ true plain = true ∧
      opsReadable [.large 0x8000, .large 0x7FFF] plain = true ∧
      (true = true ↔ (0x8000 : Word).toInt < (0x7FFF : Word).toInt) ∧
      (false = true ↔ (0x7FFF : Word).toInt < (0x7FFF : Word).toInt) ∧
      branchable (.jl .variable (.large 0x8000) (.large 0x7FFF) ⟨true, .long 2⟩) ⟨true, .long 2⟩ true plain = true ∧
      branchable (.jg .variable (.large 0x7FFF) (.large 0x7FFF) ⟨true, .long 2⟩) ⟨true, .long 2⟩ false plain = true ∧
      opReadable (.small 0) plain = true ∧ (true = true ↔ opValue (.small 0) plain = 0) ∧
      branchable (.jz (.small 0) ⟨true, .short 1⟩) ⟨true, .short 1⟩ true plain = true ∧
      (true = true ↔ ∀ k, k < 16 → (0x8001 : Word).getLsbD k = true → (0x8001 : Word).getLsbD k = true) ∧
      branchable (.test .variable (.large 0x8001) (.large 0x8001) ⟨true, .short 1⟩) ⟨true, .short 1⟩ true plain = true := by decide

/-- At 0x0500 the operand -1281 gives the target 0, one less a negative target. -/
theorem witness_JumpTarget :
    opReadable (.large 0xFAFF) plain = true ∧
      (plain.pc + (Instr.jump (.large 0xFAFF)).size : Nat) + (0xFAFF : Word).toInt - 2 = 0 ∧
      (plain.pc + (Instr.jump (.large 0xFAFE)).size : Nat) + (0xFAFE : Word).toInt - 2 < 0 := by decide

theorem witness_VariableMoves :
    opsReadable [.small 0, .var 0] plain = true ∧ inPlaceWritable 0 (opsAfter [.small 0, .var 0] plain) = true ∧
      opsReadable [.large 0x0100, .small 1] plain = true ∧ 255 < (0x0100 : Word).toNat ∧ opReadable (.small 0xFF) plain = true ∧
      varReadable 0xFF plain = true ∧ varWritable 0 plain = true := by decide

/-- The last word and byte of the image, the first past it, and an index that wraps to address 0. -/
theorem witness_MemoryLoads :
    opsReadable [.large 0x07FE, .small 0] plain = true ∧ varWritable 0x10 plain = true ∧
      (0x07FE + 2 * 0) % 0x10000 + 1 < plain.len ∧ plain.len ≤ (0x07FF + 2 * 0) % 0x10000 + 1 ∧
      (0x07FE + 1) % 0x10000 < plain.len ∧ plain.len ≤ (0x0800 + 0) % 0x10000 ∧ (0xFFFF + 1) % 0x10000 < plain.len := by
  decide

theorem witness_MemoryStores :
    plain.mem.wf ∧ opsReadable [.large 0x03FE, .small 0, .small 1] plain = true ∧
      arrayAddr 2 0x03FE 0 + 1 < plain.hdr.staticBase.toNat ∧ plain.hdr.staticBase.toNat ≤ arrayAddr 2 0x03FF 0 + 1 ∧
      arrayAddr 2 0x07FE 0 + 1 < plain.len ∧ plain.len ≤ arrayAddr 2 0x07FF 0 + 1 ∧
      arrayAddr 1 0x03FF 0 < plain.hdr.staticBase.toNat ∧ plain.hdr.staticBase.toNat ≤ arrayAddr 1 0x0400 0 ∧
      arrayAddr 1 0x07FF 0 < plain.len ∧ plain.len ≤ arrayAddr 1 0x0800 0 := by decide

/-- Packed address 0x3FF names the routine header at 0x07FE, whose first byte is the number of locals. -/
theorem witness_CallInstruction :
    opsReadable [.large 0x03FF, .var 0, .var 0] plain = true ∧ varWritable 0x10 plain = true ∧
      2 * (0x03FF : Word).toNat + 2 * (plain.mem.get 0x07FE).toNat < plain.len ∧ (plain.mem.get 0x07FE).toNat ≤ 15 ∧
      plain.callers.length + 1 < plain.params.maxCallDepth ∧
      ({ Params.default with maxCallDepth := 2 } : Params).maxCallDepth ≤ plain.callers.length + 1 ∧
      15 < ((Memory.ofBytes 0x07FE [16]).get (2 * (0x03FF : Word).toNat)).toNat := by decide

theorem witness_ReturnInstructions :
    opReadable (.var 0) plain = true ∧ returnable (opAfter (.var 0) plain) = true ∧ returnable plain = true ∧
      plain.stack = 2 :: [1, 9] ∧ plain.frame.stackBase ≤ [(1 : Word), 9].length ∧
      returnable { plain with stack := [1, 9] } = true ∧
      ({ plain with stack := [9] } : State).stack.length ≤ plain.frame.stackBase := by decide

theorem witness_StackInstructions :
    opReadable (.var 0) plain = true ∧ (opAfter (.var 0) plain).stack.length < plain.params.maxEvalStack ∧
      ({ Params.default with maxEvalStack := 2 } : Params).maxEvalStack ≤ (opAfter (.var 0) plain).stack.length ∧
      ((opValue (.small 0) plain).toNat ≤ 255 ∧ plain.stack = 2 :: [1, 9] ∧ plain.frame.stackBase ≤ [(1 : Word), 9].length ∧
        inPlaceWritable 0 { plain with stack := [1, 9] } = true) ∧
      255 < (opValue (.large 0x0100) plain).toNat ∧
      ({ plain with stack := [9] } : State).stack.length ≤ plain.frame.stackBase := by decide

theorem witness_ObjectChecks :
    opReadable (.small 0) plain = true ∧ opsReadable [.large 0x0100, .small 1] plain = true ∧
      opsReadable [.small 255, .small 32, .small 1] plain = true ∧ (opValue (.small 0) plain).toNat = 0 ∧
      255 < (opValue (.large 0x0100) plain).toNat ∧ 31 < (opValue (.small 32) plain).toNat ∧
      (opValue (.small 255) plain).toNat ≤ 255 := by decide

/-- Object 4's entry ends the object table of an image of 0x0280 bytes. -/
theorem witness_ObjectLinks :
    let s := { fixture entries [] [] with len := 0x0280 }
    opReadable (.small 4) s = true ∧ 0x0220 + 62 + 9 * (4 - 1) + 6 < s.len ∧ varWritable 0x10 s = true ∧
      (false = true ↔ (s.mem.get 0x027E).setWidth 16 ≠ (0 : Word)) ∧ (true = true ↔ (s.mem.get 0x027D).toNat = 2) ∧
      opReadable (.small 2) s = true ∧
      branchable (.getSibling (.small 4) 0x10 ⟨true, .short 1⟩) ⟨true, .short 1⟩ false (withVar 0x10 0 s) = true ∧
      branchable (.getChild (.small 4) 0x10 ⟨false, .short 1⟩) ⟨false, .short 1⟩ false (withVar 0x10 0 s) = true ∧
      branchable (.jin .long (.small 4) (.small 2) ⟨true, .short 0⟩) ⟨true, .short 0⟩ true s = true := by decide

theorem witness_Attributes :
    let s := fixture entries [] []
    s.mem.wf ∧ opsReadable [.small 2, .small 31] s = true ∧ 0x0220 + 62 + 9 * (2 - 1) + 31 / 8 < s.len ∧
      (true = true ↔ (s.mem.get 0x026A).getLsbD (7 - 31 % 8) = true) ∧
      branchable (.testAttr .long (.small 2) (.small 31) ⟨true, .short 0⟩) ⟨true, .short 0⟩ true s = true ∧
      0x026A < s.hdr.staticBase.toNat ∧ ({ headerF with staticBase := 0x026A } : Header).staticBase.toNat ≤ 0x026A := by decide

theorem propSearch_found : PropSearch wide 0x12 (propStart wide 1) (some (0x0288, 2)) :=
  .found 0x0287 (by decide) (by decide) (by decide)

theorem propSearch_next : PropSearch wide 5 (propStart wide 1) (some (0x028B, 1)) :=
  .next 0x0287 _ (by decide) (by decide) (by decide) (.found 0x028A (by decide) (by decide) (by decide))

theorem propSearch_passed : PropSearch wide 31 (propStart wide 1) none := .passed 0x0287 (by decide) (by decide) (by decide)

theorem propSearch_ends : PropSearch wide 1 (propStart wide 4) none := .ends 0x02AE (by decide) (by decide)

theorem propSearch_long : PropSearch wide 31 (propStart wide 3) (some (0x02A1, 8)) :=
  .found 0x02A0 (by decide) (by decide) (by decide)

theorem witness_PropertyWalk : propTableReadable wide 1 = true ∧ PropSearch wide 5 (propStart wide 1) (some (0x028B, 1)) :=
  ⟨by decide, propSearch_next⟩

/-- Object 4 with a property 1 whose data stand above 0xFFFF. -/
def high : State :=
  (({ wide with len := 0x10004 }.setWord (wide.entryAddr 4 + 7) 0xFFFF).setByte 0xFFFF 1).setByte 0x10002 1

/-- R12, R153: a global gets the low 16 bits of the address 0x10003. -/
theorem test_get_prop_addr_above_16_bits :
    gives ((high.setWord 0x1800 0x1204).setWord 0x1802 0x0110) (fun t => global 0 t == 3) = true := by decide

theorem propSearch_high : PropSearch high 1 (propStart high 4) (some (0x10003, 1)) :=
  .found 0x10002 (by decide) (by decide) (by decide)

/-- The searches above give every clause: data of 1, 2 and 8 bytes, and an absent property. -/
theorem witness_PropertyReads :
    opsReadable [.small 1, .small 31] wide = true ∧ varWritable 0x10 wide = true ∧ propTableReadable wide 1 = true ∧
      propTableReadable wide 3 = true ∧ propTableReadable wide 4 = true ∧ 0x0220 + 2 * (31 - 1) + 1 < wide.len ∧
      0x0288 + 1 < wide.len ∧ 0x028B < wide.len ∧ 0x02A1 + 8 < wide.len ∧ propStart wide 1 < wide.len ∧
      1 ≤ (opValue (.large 0x0296) wide).toNat ∧ 0x0296 - 1 < wide.len ∧
      varWritable 0x10 high = true ∧ propTableReadable high 4 = true ∧ 16 ≤ (0x10 : Byte).toNat := by decide

theorem witness_PropertyWrite :
    wide.mem.wf ∧ opsReadable [.small 1, .small 5, .large 0xBEEF] wide = true ∧ propTableReadable wide 1 = true ∧
      0x028B < wide.len ∧ 0x028B < wide.hdr.staticBase.toNat ∧ 0x0288 + 1 < wide.len ∧
      0x0288 + 1 < wide.hdr.staticBase.toNat := by decide

/-- Box (2) is found behind lamp (3) in room's (1) chain, whose first child is the lamp; room has no parent. -/
theorem witness_RemoveObject :
    wide.mem.wf ∧ opReadable (.small 2) wide = true ∧ objectsWritable wide = true ∧ linkOf 4 2 wide ≠ 0 ∧
      chainBefore 2 [3] wide = true ∧ linkOf 4 3 wide ≠ 0 ∧ chainBefore 3 [] wide = true ∧ linkOf 4 1 wide = 0 := by decide

/-- With room's child link cleared, box is not in its parent's chain. -/
theorem witness_RemoveObject_corrupt : ¬ detachable 2 (wide.setByte 0x0264 0) := by
  have h4 : linkOf 4 2 (wide.setByte 0x0264 0) = 1 := by decide
  have h6 : linkOf 6 1 (wide.setByte 0x0264 0) = 0 := by decide
  rintro (h | h | ⟨xs, h, -⟩)
  · rw [h4] at h; omega
  · rw [h4, h6] at h; omega
  · rw [h4, h6] at h
    match xs with
    | [] => simp [siblingPath] at h
    | [y] => simp [siblingPath] at h
    | y :: z :: ys => simp [siblingPath] at h

/-- Object 4, a first child, and box, behind the lamp, into other parents; room into object 4: the path from 4 meets room;
box out of a chain that does not hold it. -/
theorem witness_InsertObject :
    (wide.mem.wf ∧ opsReadable [.small 4, .small 1] wide = true ∧ objectsWritable wide = true ∧
      parentPath wide 0 1 [1] = true ∧ 4 ∉ [1] ∧ chainBefore 4 [] wide = true ∧ linkOf 4 4 wide ≠ 4 ∧
      parentPath wide 0 3 [3, 1] = true ∧ 2 ∉ [3, 1] ∧ chainBefore 2 [3] wide = true ∧ linkOf 4 2 wide ≠ 2 ∧
      parentPath wide 1 4 [4, 2] = true ∧ parentPath (wide.setByte 0x0264 0) 0 3 [3, 1] = true) ∧
      ¬ detachable 2 (wide.setByte 0x0264 0) :=
  ⟨by decide, witness_RemoveObject_corrupt⟩

theorem witness_StringsAndAbbreviations :
    let m := Memory.ofBytes 0x07FC [0x35, 0x51, 0xC6, 0x85]
    textEnds [0x3551, 0xC685] = true ∧ 0x07FC + 2 * 2 ≤ 0x0800 ∧ m.stringAt 0x0800 0x07FC = .ok [0x3551, 0xC685] ∧
      (∀ k, k < 1 → 0x07FE + 2 * k + 1 < 0x0800 ∧ (plain.mem.getWord (0x07FE + 2 * k)).getLsbD 15 = false) ∧
      0x0800 ≤ 0x07FE + 2 * 1 + 1 ∧ plain.len ≤ 2 * ((Memory.ofBytes 0x0300 [4, 0]).getWord 0x0300).toNat ∧
      2 * ((Memory.ofBytes 0x0300 [3, 0xFF]).getWord 0x0300).toNat < plain.len ∧
      plain.mem.stringAt plain.len 0x07FE = .error (.memory (.outOfBounds 0x0800)) := by decide

theorem witness_TextRules :
    let f : Nat → Except FaultKind (List Zscii) := fun k => if k = 95 then .ok [116, 104, 101] else .ok []
    [(2 : ZChar)].length < 2 ∧ 1 ≤ (3 : ZChar).toNat ∧ (3 : ZChar).toNat ≤ 3 ∧
      f (32 * ((3 : ZChar).toNat - 1) + (31 : ZChar).toNat) = .ok [116, 104, 101] ∧
      decodeChars (some f) 0 .a0 [6, 31] = .ok [97, 122] := by decide

theorem witness_PrintInstructions :
    let s := { wide with mem := entries ++ props ++ Memory.ofBytes 0x1801 [0x35, 0x51, 0xC6, 0x85] }
    decodeWords s (s.pc + 1) [0x3551, 0xC685] = .ok [104, 101, 108, 108, 111] ∧
      returnable { s with out := s.out ++ [104, 101, 108, 108, 111] ++ [13] } = true ∧
      decodeWords s (s.pc + 1) [0x98A6] = .error (.text (.orphanedEscape (s.pc + 1))) ∧ opReadable (.small 3) s = true ∧
      decodeZString s 0x1801 = .ok [104, 101, 108, 108, 111] ∧ decodeZString s 0x1FFF = .error (.memory (.outOfBounds 0x1FFF)) ∧
      propTableReadable s 3 = true ∧ s.mem.get (propTableOf s 3) ≠ 0 ∧ s.mem.get (propTableOf s 4) = 0 ∧
      decodeZString s (propTableOf s 3 + 1) = .ok [108, 97, 109, 112] ∧
      (opValue (.large 1023) s).toNat ≤ 1023 ∧ 1023 < (opValue (.large 1024) s).toNat := by decide

theorem witness_ReadSuspends : opsReadable [.var 0, .var 0] plain = true := by decide

/-- F's dictionary with capacities before it, in its last entry and at the end of dynamic memory, and a read of these buffers. -/
def awaiting (a p : Word) : State :=
  { fixture (Memory.ofBytes 0x0100 [20, 0, 0, 0, 0, 4] ++ Memory.ofBytes 0x03BA [4, 20] ++ dictionary ++
      Memory.ofBytes 0x03FA [4, 20]) [] [] with status := .awaitingInput ⟨a, p, 0x0500, 0x0506⟩ }

/-- What lets a line with the word `box` complete the read. -/
abbrev BoxFits (a p : Nat) (s : State) : Prop :=
  let kept := [(98 : Byte), 111, 120].take ((s.mem.get a).toNat - 1)
  let textTop := a + 2 + kept.length
  let parseTop := p + 2 + 4 * (wordsKept p kept s).length
  s.mem.wf ∧ kept.length = 3 ∧ wordsKept p kept s = [⟨0, [98, 111, 120]⟩] ∧ textTop ≤ s.len ∧
    textTop ≤ s.hdr.staticBase.toNat ∧ parseTop ≤ s.len ∧ parseTop ≤ s.hdr.staticBase.toNat ∧ dictTop s ≤ s.len ∧
    (textTop ≤ s.hdr.dictBase.toNat ∨ dictTop s ≤ a + 1) ∧ (parseTop ≤ s.hdr.dictBase.toNat ∨ dictTop s ≤ p + 1) ∧
    (textTop ≤ p ∨ p ≤ a)

/-- The codes 32 and 126 are accepted, 31 is not; `box` is read with the text right before or after the dictionary, right
before the parse buffer or at the end of dynamic memory, and the same for the parse buffer. -/
theorem witness_ProvideInput :
    (plain.status = .running ∧ (∃ c ∈ [31], c < 32 ∨ 126 < c) ∧ (∀ c ∈ [32, 126], 32 ≤ c ∧ c ≤ 126)) ∧
      BoxFits 0x03DF 0x03BA (awaiting 0x03DF 0x03BA) ∧ BoxFits 0x03BB 0x03DF (awaiting 0x03BB 0x03DF) ∧
      BoxFits 0x0100 0x0105 (awaiting 0x0100 0x0105) ∧ BoxFits 0x03FB 0x0100 (awaiting 0x03FB 0x0100) ∧
      BoxFits 0x0100 0x03FA (awaiting 0x0100 0x03FA) :=
  ⟨by decide, by decide, by decide, by decide, by decide, by decide⟩

/-- Storing or splitting the line faults: static memory, a parse buffer outside the image. -/
theorem witness_ProvideInput_faults :
    storeText 0x0400 [98] (awaiting 0x0400 0x0105) = .error (.memory (.writeViolation 0x0401)) ∧
      tokenize 0x0800 [98] (awaiting 0x0100 0x0800) = .error (.memory (.outOfBounds 0x0800)) := by decide

/-- `box` and `take` are the first and last entries, at the end of the image; `x` is in none. -/
theorem witness_DictionaryLookup :
    let s := { fixture dictionary [] [] with len := 0x03E0 }
    let entry (k : Nat) : List Byte := [0, 1, 2, 3].map fun j => s.mem.get (0x03C7 + 7 * k + j)
    s.hdr.dictBase.toNat + 3 + 4 = 0x03C7 ∧ 0x03C7 ≤ s.len ∧ (s.mem.getWord 0x03C5).toInt.natAbs = 4 ∧
      0x03C7 + 7 * 3 + 3 < s.len ∧ entry 0 = encodeWord [98, 111, 120] ∧ entry 3 = encodeWord [116, 97, 107, 101] ∧
      (∀ j, j < 3 → entry j ≠ encodeWord [116, 97, 107, 101]) ∧
      ∀ k, k < 4 → 0x03C7 + 7 * k + 3 < s.len ∧ entry k ≠ encodeWord [120] := by decide

theorem witness_RandomNumbers :
    opReadable (.large 0x7FFF) plain = true ∧ varWritable 0 (opAfter (.large 0x7FFF) plain) = true ∧
      0 < (opValue (.large 0x7FFF) plain).toInt ∧ (opValue (.large 0x8000) plain).toInt < 0 ∧
      (opValue (.small 0) plain).toInt = 0 := by decide

theorem witness_SystemInstructions :
    branchable (.save ⟨false, .short 0⟩) ⟨false, .short 0⟩ false plain = true ∧
      branchable (.restore ⟨false, .long 2⟩) ⟨false, .long 2⟩ false plain = true ∧
      (true = true ↔ ((List.range 0x40).map fun a => if 0x40 ≤ a then (plain.rom.get a).toNat else 0).sum % 0x10000 =
        plain.hdr.checksum.toNat) ∧
      branchable (.verify ⟨true, .short 1⟩) ⟨true, .short 1⟩ true plain = true := by decide

theorem witness_Restart : wide.rom.wf := by decide

theorem witness_NonGoals :
    opsReadable [.var 0, .var 0] plain = true ∧ Params.default.nongoal = .fault ∧
      ({ Params.default with nongoal := .nop } : Params).nongoal = .nop ∧
      (Instr.outputStream (.var 0) (some (.var 0))).opbyte = 0xF3 := by decide

/-- P1's machine (95_test_vectors.md), which satisfies the invariant and prints and halts. -/
def p1 : State :=
  { State.reset with
    mem := Memory.ofBytes 0x40 [0xB3, 0x35, 0x51, 0xC6, 0x85], rom := Memory.ofBytes 0x40 [0xB3, 0x35, 0x51, 0xC6, 0x85] }

theorem p1_inv : Inv p1 where
  sound :=
    { memWf := by decide, romWf := by decide, memIn := by decide, romIn := by decide, header := by decide, version := by decide
      checked := by decide, static := fun _ _ => rfl, linked := by decide, base := by decide, depth := by decide
      words := by decide, output := by decide }
  pending := fun _ h => nomatch (show Status.running = _ from h)
  faultPc := fun _ h => nomatch (show Status.running = _ from h)

theorem witness_RunComposes :
    ∃ t, p1.status = .running ∧ step p1 = .next t ∧ ({ plain with status := .halted } : State).status ≠ .running := by
  obtain ⟨t, ht⟩ := step_total p1
  exact ⟨t, by decide, ht, by decide⟩

theorem witness_StepKeepsInv : ∃ t, Inv p1 ∧ step p1 = .next t := by
  obtain ⟨t, h⟩ := step_total p1
  exact ⟨t, p1_inv, h⟩

/-- A store to local 1 names it and no other local; it is no call, return or `restart`, and has no branch. -/
theorem witness_FieldFrame :
    (∃ t, exec (.add .long (.var 1) (.small 1) 1) plain = .next t) ∧
      (Instr.add .long (.var 1) (.small 1) 1).parts.op ∉ [.call, .ret, .rtrue, .rfalse, .retPopped, .printRet, .restart] ∧
      (Instr.add .long (.var 1) (.small 1) 1).parts.branch = none := ⟨exec_total _ _, by decide, by decide⟩

/-- The same store names no global variable. -/
theorem witness_MemoryFrame :
    let i := Instr.add .long (.var 1) (.small 1) 1
    plain.mem.wf ∧
      i.parts.op ∉ [.storew, .storeb, .setAttr, .clearAttr, .putProp, .insertObj, .removeObj, .restart] ∧
      (∃ t, exec i plain = .next t) ∧
      ∀ n : Byte, 16 ≤ n.toNat → i.parts.store ≠ some n ∧ i.parts.op ∉ [.store, .inc, .dec, .incChk, .decChk, .pull] ∧
        i.parts.op ∉ [.ret, .rtrue, .rfalse, .retPopped, .printRet] ∧ i.parts.branch = none := by
  refine ⟨by decide, by decide, exec_total _ _, fun n hn => ⟨fun h => ?_, by decide, by decide, rfl⟩⟩
  obtain rfl : (1 : Byte) = n := Option.some.inj h
  exact absurd hn (by decide)

theorem witness_StackBelowBase :
    plain.frame.stackBase ≤ plain.stack.length ∧ (Instr.pop).parts.op ≠ .restart ∧ ∃ t, exec .pop plain = .next t :=
  ⟨by decide, by decide, exec_total _ _⟩

theorem witness_SnapshotRestores : ∃ t : State, Inv p1 ∧ Inv t ∧ t.params = p1.params ∧ t.len = p1.len ∧ t.rom = p1.rom :=
  ⟨p1, p1_inv, p1_inv, rfl, rfl, rfl⟩

end Sys2Proof.Tests
end

section
/-! PROOFS. The machine after load, the property reads and line input's second phase (the statements O4, O37, O47). -/

namespace Sys2Proof.Machine

/-! ## Load (70_reset_and_hazards.md R442, R446) -/

/-- The machine that starts from a checked image is sound: its memory is the loaded image and its stacks are empty. -/
theorem Sound.loaded {p : Params} {m : Memory} {len : Nat} (hp : 1 ≤ p.maxCallDepth) (hwf : m.wf)
    (hin : ∀ c ∈ m, c.1 < len) (hv : m.get 0 = 3) (hc : checkHeader (headerOf m) len = .ok ()) :
    Sound (loaded p m len) where
  memWf := hwf
  romWf := hwf
  memIn := hin
  romIn := hin
  header := rfl
  version := hv
  checked := hc
  static := fun _ _ => rfl
  linked := by simp [Machine.loaded, framesLinked]
  base := Nat.zero_le _
  depth := hp
  words := Nat.zero_le _
  output := fun _ hc => nomatch hc

/-- A running machine has neither a pending read nor a fault record. -/
theorem Inv.of_running {s : State} (h : Sound s) (hr : s.status = .running) : Inv s where
  sound := h
  pending := fun r hs => by simp [hr] at hs
  faultPc := fun f hs => by simp [hr] at hs

/-! ## The property reads (42_objects.md R227, R247 to R250) -/

@[simp] theorem propTableReadable_opsAfter (os : List Operand) (s : State) (o : Nat) :
    propTableReadable (opsAfter os s) o = propTableReadable s o := by
  unfold propTableReadable propTableOf
  simp

@[simp] theorem propStart_opsAfter (os : List Operand) (s : State) (o : Nat) :
    propStart (opsAfter os s) o = propStart s o := by
  simp [propStart, propTableOf]

/-- An instruction whose last act is a store that can be made leaves the stored value and the next pc. -/
theorem finish_storeNext {i : Instr} {st : Byte} {v : Word} {s u : State} (hw : varWritable st u = true)
    (hpc : u.pc = s.pc) :
    finish i.opbyte s (storeNext i st v u) = .next { withVar st v u with pc := s.pc + i.size } := by
  rw [storeNext_ok hw, ← hpc, ← withVar_pc st v u]
  rfl

section Values

variable {o p : Nat} {t : State}

theorem propValue_absent (hf : findProp o p t = .ok none) (hl : t.hdr.objBase.toNat + 2 * (p - 1) + 1 < t.len) :
    propValue o p t = .ok (t.mem.getWord (t.hdr.objBase.toNat + 2 * (p - 1))) := by
  unfold propValue
  rw [hf]
  exact readWord_ok hl

theorem propValue_byte {a : Nat} (hf : findProp o p t = .ok (some ⟨a, 1⟩)) (hl : a < t.len) :
    propValue o p t = .ok ((t.mem.get a).setWidth 16) := by
  unfold propValue
  rw [hf, ok_bind]
  simp only [if_true]
  rw [readByte_ok hl]
  rfl

theorem propValue_word {a : Nat} (hf : findProp o p t = .ok (some ⟨a, 2⟩)) (hl : a + 1 < t.len) :
    propValue o p t = .ok (t.mem.getWord a) := by
  unfold propValue
  rw [hf]
  exact readWord_ok hl

theorem propValue_long {a k : Nat} (hf : findProp o p t = .ok (some ⟨a, k⟩)) (hk : 3 ≤ k) :
    propValue o p t = .error (.object (.propertyTooLong o p)) := by
  unfold propValue
  rw [hf, ok_bind]
  simp only
  rw [if_neg (by omega), if_neg (by omega)]

theorem nextProp_first (ht : propTableReadable t o = true) (hl : propStart t o < t.len) :
    nextProp o 0 t = .ok ((t.mem.get (propStart t o)).toNat % 32) := by
  unfold nextProp
  rw [if_pos rfl, firstProp_ok ht, ok_bind, readByte_ok hl, ← sizeNum_eq]
  rfl

theorem nextProp_absent (hp : 1 ≤ p) (hf : findProp o p t = .ok none) :
    nextProp o p t = .error (.object (.missingProperty o p)) := by
  unfold nextProp
  rw [if_neg (by omega), hf]
  rfl

theorem nextProp_after {a k : Nat} (hp : 1 ≤ p) (hf : findProp o p t = .ok (some ⟨a, k⟩)) (hl : a + k < t.len) :
    nextProp o p t = .ok ((t.mem.get (a + k)).toNat % 32) := by
  unfold nextProp
  rw [if_neg (by omega), hf, ok_bind]
  simp only
  rw [readByte_ok hl, ← sizeNum_eq]
  rfl

end Values

section Instructions

variable {f : TwoOp} {o p : Operand} {st : Byte} {s : State}

theorem exec_getPropLen_zero (hr : opReadable o s = true) (hw : varWritable st (opAfter o s) = true)
    (hx : (opValue o s).toNat = 0) :
    exec (.getPropLen o st) s = .next { withVar st 0 (opAfter o s) with pc := s.pc + (Instr.getPropLen o st).size } := by
  show execGetPropLen o st s = _
  unfold execGetPropLen
  rw [with1_ok _ hr, if_pos (BitVec.eq_of_toNat_eq hx), finish_storeNext hw (by simp)]

theorem exec_getPropLen_pos (hr : opReadable o s = true) (hw : varWritable st (opAfter o s) = true)
    (hx : 1 ≤ (opValue o s).toNat) (hl : (opValue o s).toNat - 1 < s.len) :
    exec (.getPropLen o st) s =
      .next { withVar st (BitVec.ofNat 16 ((s.mem.get ((opValue o s).toNat - 1)).toNat / 32 + 1)) (opAfter o s) with
        pc := s.pc + (Instr.getPropLen o st).size } := by
  have h0 : opValue o s ≠ 0 := fun h => by simp [h] at hx
  show execGetPropLen o st s = _
  unfold execGetPropLen
  rw [with1_ok _ hr, if_neg h0, readByte_ok (by simpa using hl), ok_bind, finish_storeNext hw (by simp), sizeLen_eq,
    opAfter_mem]

variable (hr : opsReadable [o, p] s = true) (hx : 1 ≤ (opValue o s).toNat) (hx' : (opValue o s).toNat ≤ 255)

include hr hx hx'

/-- `get_prop` of a valid object and property stores the property's value, or takes its fault. -/
theorem exec_getProp (hy : 1 ≤ (opValue p (opAfter o s)).toNat) (hy' : (opValue p (opAfter o s)).toNat ≤ 31) :
    exec (.getProp f o p st) s =
      finish (Instr.getProp f o p st).opbyte s
        (propValue (opValue o s).toNat (opValue p (opAfter o s)).toNat (opsAfter [o, p] s) >>= fun v =>
          storeNext (.getProp f o p st) st v (opsAfter [o, p] s)) := by
  show execGetProp f o p st s = _
  unfold execGetProp
  rw [with2_ok _ hr, checkObj_ok hx hx', ok_bind, checkProp_ok hy hy', ok_bind]

/-- `get_prop_addr` of a valid object and property stores where the walk found it, 0 if it did not. -/
theorem exec_getPropAddr (hy : 1 ≤ (opValue p (opAfter o s)).toNat) (hy' : (opValue p (opAfter o s)).toNat ≤ 31)
    {r : Option PropAt}
    (hf : findProp (opValue o s).toNat (opValue p (opAfter o s)).toNat (opsAfter [o, p] s) = .ok r) :
    exec (.getPropAddr f o p st) s =
      finish (Instr.getPropAddr f o p st).opbyte s
        (storeNext (.getPropAddr f o p st) st (r.elim 0 fun x => addressValue st x.addr) (opsAfter [o, p] s)) := by
  show execGetPropAddr f o p st s = _
  unfold execGetPropAddr
  rw [with2_ok _ hr, checkObj_ok hx hx', ok_bind, checkProp_ok hy hy', ok_bind, hf, ok_bind]
  cases r <;> rfl

/-- `get_next_prop` of a valid object and a property number, 0 included, stores the next number, or takes the fault. -/
theorem exec_getNextProp (hy' : (opValue p (opAfter o s)).toNat ≤ 31) :
    exec (.getNextProp f o p st) s =
      finish (Instr.getNextProp f o p st).opbyte s
        (nextProp (opValue o s).toNat (opValue p (opAfter o s)).toNat (opsAfter [o, p] s) >>= fun q =>
          storeNext (.getNextProp f o p st) st (BitVec.ofNat 16 q) (opsAfter [o, p] s)) := by
  show execGetNextProp f o p st s = _
  unfold execGetNextProp
  rw [with2_ok _ hr, checkObj_ok hx hx', ok_bind, if_neg (by omega)]

end Instructions

/-! ## Line input's second phase (46_io_system.md R352 to R358) -/

theorem lineCodes_ok_iff {line : List Nat} : line.all lineCodeOk = true ↔ ∀ c ∈ line, 32 ≤ c ∧ c ≤ 126 := by
  simp [lineCodeOk]

section Reply

variable {line : List Nat} {s : State}

theorem provideInput_not_awaiting (h : ∀ r, s.status ≠ .awaitingInput r) : provideInput line s = (.refused, s) := by
  unfold provideInput
  cases hs : s.status with
  | awaitingInput r => exact absurd hs (h r)
  | running => rfl
  | halted => rfl
  | faulted f => rfl

variable {r : PendingRead} (hs : s.status = .awaitingInput r)

include hs

theorem provideInput_bad_code (h : ∃ c ∈ line, c < 32 ∨ 126 < c) : provideInput line s = (.refused, s) := by
  have hl : ¬ line.all lineCodeOk = true := fun hl => by
    obtain ⟨c, hc, hbad⟩ := h
    have := lineCodes_ok_iff.mp hl c hc
    omega
  simp only [provideInput, hs]
  rw [if_neg hl]

theorem provideInput_error (hl : ∀ c ∈ line, 32 ≤ c ∧ c ≤ 126) {k : FaultKind} (h : completeRead r line s = .error k) :
    provideInput line s = (.accepted, { s with status := .faulted { kind := k, pc := r.atPc, opbyte := some 0xE4 } }) := by
  simp only [provideInput, hs, lineCodes_ok_iff.mpr hl, if_true, h]

theorem provideInput_ok (hl : ∀ c ∈ line, 32 ≤ c ∧ c ≤ 126) {t : State} (h : completeRead r line s = .ok t) :
    provideInput line s = (.accepted, t) := by
  simp only [provideInput, hs, lineCodes_ok_iff.mpr hl, if_true, h]

end Reply

/-- A read that completes changes memory, the pc and the status only. -/
theorem completeRead_frame {r : PendingRead} {line : List Nat} {s t : State} (h : completeRead r line s = .ok t) :
    t = { s with mem := t.mem, pc := r.next, status := .running } := by
  obtain ⟨w, hw, rfl⟩ := keep_completeRead (P := fun u => u = { s with mem := u.mem })
    (fun u a b hu _ _ => by rw [hu]; rfl) h rfl
  rw [hw]

/-- A read stores the line, then splits it. -/
theorem completeRead_eq {r : PendingRead} {line : List Nat} {s u : State} {kept : List Byte}
    (h : storeText r.textAddr.toNat (line.map lowerCode) s = .ok (kept, u)) :
    completeRead r line s =
      (tokenize r.parseAddr.toNat kept u >>= fun t => .ok { t with pc := r.next, status := .running }) := by
  unfold completeRead
  rw [h]
  rfl

theorem completeRead_storeText_error {r : PendingRead} {line : List Nat} {s : State} {k : FaultKind}
    (h : storeText r.textAddr.toNat (line.map lowerCode) s = .error k) : completeRead r line s = .error k := by
  unfold completeRead
  rw [h]
  rfl

/-- What storing a line leaves in the text buffer (R353). -/
theorem storeText_bytes {a : Nat} {cs kept : List Byte} {s : State} (hm : s.mem.wf)
    (hk : kept = cs.take ((s.mem.get a).toNat - 1)) (h1 : a + 1 + kept.length < s.len)
    (h2 : a + 1 + kept.length < s.hdr.staticBase.toNat) :
    ∃ t, storeText a cs s = .ok (kept, t) ∧ t = { s with mem := t.mem } ∧ t.mem.wf ∧
      (∀ k c, kept[k]? = some c → t.mem.get (a + 1 + k) = c) ∧ t.mem.get (a + 1 + kept.length) = 0 ∧
      ∀ x, (x < a + 1 ∨ a + 1 + kept.length < x) → t.mem.get x = s.mem.get x := by
  have hget : ∀ x, (s.mem.place (a + 1) (kept ++ [0])).get x =
      if a + 1 ≤ x ∧ x < a + 1 + (kept.length + 1) then (kept ++ [0]).getD (x - (a + 1)) 0 else s.mem.get x := fun x => by
    rw [Memory.get_place _ _ _ hm, List.length_append, List.length_singleton]
  subst hk
  refine ⟨_, storeText_ok (by omega) (by omega), rfl, Memory.wf_place _ _ hm, fun k c hc => ?_, ?_, fun x hx => ?_⟩
  · obtain ⟨hlt, hkc⟩ := List.getElem?_eq_some_iff.mp hc
    dsimp only
    rw [hget, if_pos (by omega), Nat.add_sub_cancel_left, List.getD_append _ _ _ _ hlt, List.getD_eq_getElem _ _ hlt, hkc]
  · dsimp only
    rw [hget, if_pos (by omega), Nat.add_sub_cancel_left]
    simp
  · dsimp only
    rw [hget, if_neg (by omega)]

/-- The text buffer at `a`, which takes `kept`, and the parse buffer at `p` lie in dynamic memory, the dictionary lies in the
image, and no buffer overlaps what a search reads of the dictionary or the parse buffer's capacity. -/
structure BuffersFit (a p : Nat) (kept : List Byte) (s : State) : Prop where
  textLen : a + 2 + kept.length ≤ s.len
  textDynamic : a + 2 + kept.length ≤ s.hdr.staticBase.toNat
  parseLen : p + 2 + 4 * (wordsKept p kept s).length ≤ s.len
  parseDynamic : p + 2 + 4 * (wordsKept p kept s).length ≤ s.hdr.staticBase.toNat
  dictLen : dictTop s ≤ s.len
  textDict : a + 2 + kept.length ≤ s.hdr.dictBase.toNat ∨ dictTop s ≤ a + 1
  parseDict : p + 2 + 4 * (wordsKept p kept s).length ≤ s.hdr.dictBase.toNat ∨ dictTop s ≤ p + 1
  capacity : a + 2 + kept.length ≤ p ∨ p ≤ a

/-- A read whose buffers fit completes and writes the two buffers only: storing the line leaves the dictionary and the parse
buffer's capacity as they were, so the words kept are those of the state before. -/
theorem completeRead_ok {r : PendingRead} {line : List Nat} {kept : List Byte} {s : State} (hm : s.mem.wf)
    (hk : kept = (line.map lowerCode).take ((s.mem.get r.textAddr.toNat).toNat - 1))
    (h : BuffersFit r.textAddr.toNat r.parseAddr.toNat kept s) :
    ∃ t, completeRead r line s = .ok t ∧
      ∀ x, (x < r.textAddr.toNat + 1 ∨ r.textAddr.toNat + 2 + kept.length ≤ x) →
        (x < r.parseAddr.toNat + 1 ∨ r.parseAddr.toNat + 2 + 4 * (wordsKept r.parseAddr.toNat kept s).length ≤ x) →
          t.mem.get x = s.mem.get x := by
  obtain ⟨h1, h2, h3, h4, hd, hd1, hd2, hc⟩ := h
  obtain ⟨u, hu, huf, hum, -, -, hux⟩ := storeText_bytes hm hk (by omega) (by omega)
  have hul : u.len = s.len := by rw [huf]
  have huh : u.hdr = s.hdr := by rw [huf]
  have same : SameDict s u := ⟨hul, huh, fun x hx1 hx2 => hux x (by omega)⟩
  have words : wordsKept r.parseAddr.toNat kept u = wordsKept r.parseAddr.toNat kept s := by
    unfold wordsKept
    rw [same.separatorsOf, hux _ (by omega)]
  rw [← words] at h3 h4 hd2 ⊢
  obtain ⟨t, ht, -, -, -, htx⟩ := tokenize_ok (p := r.parseAddr.toNat) (codes := kept) hum (by omega) (by rw [huh]; omega)
    (by rw [same.dictTop, hul]; exact hd) (by rw [same.dictTop, huh]; omega)
  refine ⟨{ t with pc := r.next, status := .running }, ?_, fun x hx1 hx2 => ?_⟩
  · rw [completeRead_eq hu, ht]
    rfl
  · exact (htx x (by omega)).trans (hux x (by omega))

end Sys2Proof.Machine

/-! ## The settled statements -/

namespace Sys2Proof.Proofs

open Sys2Proof.Machine

/-- Settles O4: the loaded image is canonical and inside its own length, and passed the header checks. -/
theorem loadedInv : Obligations.LoadedInv := by
  intro p image s hp hload
  obtain ⟨-, hv, hc, rfl⟩ := load_ok hload
  have hin : ∀ c ∈ Memory.ofBytes 0 image, c.1 < image.length := fun c hc => by
    have := Memory.ofBytes_ge 0 image c hc
    omega
  exact Inv.of_running (Sound.loaded hp (Memory.wf_ofBytes 0 image) hin hv hc) rfl

/-- Settles O37: each read's value is what the property walk finds, and the store that ends it is `finish_storeNext`. -/
theorem propertyReads : Obligations.PropertyReads := by
  intro f o p st r s hr
  have hro : opReadable o s = true := by
    simp only [opsReadable, Bool.and_eq_true] at hr
    exact hr.1
  dsimp only
  refine ⟨fun hw hx hx' hy hy' ht hs => ?_, fun hw hx hx' hy ht hl => ?_, exec_getPropLen_zero hro,
    exec_getPropLen_pos hro⟩
  · have hf := findProp_opsAfter (os := [o, p]) ht hs
    have addr := exec_getPropAddr (f := f) (st := st) hr hx hx' hy hy' hf
    have value := exec_getProp (f := f) (st := st) hr hx hx' hy hy'
    have next := exec_getNextProp (f := f) (st := st) hr hx hx' hy'
    have stored := fun i v => finish_storeNext (i := i) (v := v) hw (opsAfter_pc [o, p] s)
    refine ⟨?_, ?_, ?_, ?_, ?_, ?_, ?_, ?_, ?_, ?_⟩
    · rintro rfl hl
      rw [value, propValue_absent hf (by simpa using hl), ok_bind, stored, opsAfter_mem, opsAfter_hdr]
    · rintro a rfl hl
      rw [value, propValue_byte hf (by simpa using hl), ok_bind, stored, opsAfter_mem]
    · rintro a rfl hl
      rw [value, propValue_word hf (by simpa using hl), ok_bind, stored, opsAfter_mem]
    · rintro a k rfl hk
      rw [value, propValue_long hf hk]
      rfl
    · rintro rfl
      exact addr.trans (stored _ _)
    · rintro a k rfl ha
      rw [addr, stored]
      simp [addressValue, ha]
    · rintro a k rfl hst
      rw [addr, stored]
      simp [addressValue, hst]
    · rintro a k rfl
      exact ⟨_, addr.trans (stored _ _)⟩
    · rintro a k rfl hl
      rw [next, nextProp_after hy hf (by simpa using hl), ok_bind, stored, opsAfter_mem]
    · rintro rfl
      rw [next, nextProp_absent hy hf]
      rfl
  · have next := exec_getNextProp (f := f) (st := st) hr hx hx' (by omega)
    rw [next, hy, nextProp_first (by simpa using ht) (by simpa using hl), ok_bind, finish_storeNext hw (opsAfter_pc [o, p] s),
      opsAfter_mem, propStart_opsAfter]

/-- Settles O47: the reply is read off `completeRead`, which stores the line (`storeText_bytes`), then splits it
(`tokenize_ok`) with the dictionary it had before. -/
theorem provideInput : Obligations.ProvideInput := by
  refine ⟨fun line s => ⟨provideInput_not_awaiting, fun r hs => ⟨provideInput_bad_code hs, fun hl => ⟨?_, ?_, ?_⟩⟩⟩, ?_, ?_⟩
  · exact fun k hk => provideInput_error hs hl (completeRead_storeText_error hk)
  · intro kept u hu
    have hcr := completeRead_eq (r := r) hu
    refine ⟨fun k hk => provideInput_error hs hl ?_, fun t ht => ?_⟩
    · rw [hcr, hk]
      rfl
    · rw [ht, ok_bind] at hcr
      rw [provideInput_ok hs hl hcr, ← completeRead_frame hcr]
  · intro hm kept textTop parseTop h1 h2 h3 h4 hd hd1 hd2 hc
    obtain ⟨t, ht, hx⟩ := completeRead_ok (r := r) hm rfl ⟨h1, h2, h3, h4, hd, hd1, hd2, hc⟩
    exact ⟨t, provideInput_ok hs hl ht, completeRead_frame ht, hx⟩
  · intro a cs s hm kept h1 h2
    obtain ⟨t, ht, hf, -, hrest⟩ := storeText_bytes hm rfl h1 h2
    exact ⟨t, ht, hf, hrest⟩
  · intro p codes s hm ws parseTop h1 h2 hl hd
    exact tokenize_ok hm h1 h2 hl hd

end Sys2Proof.Proofs
end

section
/-! PROOFS. What every step keeps, what an instruction leaves unchanged, and the snapshot round trip (the statements O5,
O55 to O58 and O60). Each frame is one set of `Effects`, run by `Effects.run`. -/

namespace Sys2Proof.Machine

/-! ## Decoding and returns, as the frames need them -/

/-- What a fetch answers is well formed. -/
theorem State.fetch_wellFormed {s : State} {i : Instr} (h : s.fetch = .ok i) : i.wellFormed = true := by
  obtain ⟨⟨j, next⟩, hd, rfl⟩ := map_ok_iff.mp h
  exact (decodeNext_ok hd).2

/-- No instruction has more than four operands (30_encoding.md R111). -/
theorem Instr.ops_length_le {i : Instr} (h : i.wellFormed = true) : i.parts.ops.length ≤ 4 :=
  Op.admits_le _ (Instr.parts_fits h).1.admits

theorem Instr.ne_restart {i : Instr} (h : i.parts.op ≠ .restart) : i ≠ .restart := by
  rintro rfl
  exact h rfl

/-- A step of a running machine runs the instruction fetched or takes the decode fault; another machine keeps its state
(40_decode.md R163, 60_exceptions.md R417). -/
theorem step_next {s t : State} (h : step s = .next t) :
    t = s ∨ s.status = .running ∧
      ((∃ i, s.fetch = .ok i ∧ exec i s = .next t) ∨ ∃ k, t = takeFault k s.opbyteAt s) := by
  unfold step at h
  cases hs : s.status with
  | running =>
    rw [hs] at h
    cases hf : s.fetch with
    | ok i => exact .inr ⟨rfl, .inl ⟨i, rfl, by simpa [hf] using h⟩⟩
    | error k => exact .inr ⟨rfl, .inr ⟨k, by simpa [hf, eq_comm] using h⟩⟩
  | awaitingInput r => exact .inl (by simpa [hs, eq_comm] using h)
  | halted => exact .inl (by simpa [hs, eq_comm] using h)
  | faulted f => exact .inl (by simpa [hs, eq_comm] using h)

/-- A return leaves the status or halts (43_calls_stack.md R277, R278). -/
theorem afterReturn_status (v : Word) (s : State) :
    (afterReturn v s).status = s.status ∨ (afterReturn v s).status = .halted := by
  obtain ⟨-, h⟩ | ⟨c, rest, ra, -, -, ⟨-, h⟩ | ⟨n, -, h⟩⟩ := afterReturn_cases v s <;> simp [h]

/-! ## The invariant (10_state.md R21 to R26, R32, R38) -/

/-- A machine that runs or has halted has neither a pending read nor a fault record. -/
theorem Inv.of_running_or_halted {s : State} (h : Sound s) (hs : s.status = .running ∨ s.status = .halted) : Inv s where
  sound := h
  pending := fun r hr => by simp [hr] at hs
  faultPc := fun f hf => by simp [hf] at hs

/-- A fault taken in a sound state records that state's pc (60_exceptions.md R400). -/
theorem Sound.inv_takeFault {s : State} (h : Sound s) (k : FaultKind) (op : Option Byte) :
    Inv (Machine.takeFault k op s) where
  sound := h.takeFault k op
  pending := fun r hr => nomatch hr
  faultPc := fun f hf => by
    cases hf
    rfl

/-- A restarted machine is sound: its memory is the loaded image but for one byte of the header, which is dynamic memory
(46_io_system.md R364). -/
theorem Sound.restarted {s : State} (h : Sound s) (b : Byte) :
    Sound { s with
      mem := s.rom.set flags2Low b, stack := [], frame := rootFrame, callers := [], pc := s.hdr.initialPc.toNat } := by
  obtain ⟨hstatic, hlen⟩ := h.header_room
  have hdepth := h.depth
  have image : Sound { s with
      mem := s.rom, stack := [], frame := rootFrame, callers := [], pc := s.hdr.initialPc.toNat } :=
    { h with
      memWf := h.romWf
      memIn := h.romIn
      static := fun _ _ => rfl
      linked := by simp [framesLinked]
      base := Nat.zero_le _
      depth := by simp only [List.length_nil]; omega
      words := Nat.zero_le _ }
  have hlow : flags2Low < 64 := by decide
  exact image.setByte b (by simp only; omega) (by simp only; omega)

/-- A working copy of the instruction that began in `s`: sound, running, its pc still the instruction's. -/
structure Working (s u : State) : Prop where
  sound : Sound u
  running : u.status = .running
  pc : u.pc = s.pc

/-- What an instruction does keeps its working copy sound, and it ends with the invariant. Only a call needs the bound on
the operands: a frame records at most three arguments (R26). -/
theorem effects_inv {i : Instr} {s : State} (hi : i.wellFormed = true) : Effects i s (Working s) Inv where
  read := fun u n h hr => ⟨h.sound.afterVar hr, by simpa using h.running, by simpa using h.pc⟩
  store := fun u st v _ h hw => ⟨h.sound.withVar v hw, by simpa using h.running, by simpa using h.pc⟩
  update := fun u n v _ h hw => ⟨h.sound.withVarInPlace v hw, by simpa using h.running, by simpa using h.pc⟩
  push := fun u v _ h hl => ⟨h.sound.push v hl, h.running, h.pc⟩
  byte := fun u a b _ h ha hs => ⟨h.sound.setByte b ha hs, h.running, h.pc⟩
  print := fun u cs _ h => ⟨h.sound.emitAll cs, by simpa using h.running, by simpa using h.pc⟩
  random := fun u g _ h => ⟨h.sound.setRng g, h.running, h.pc⟩
  goOn := fun u p h => .of_running (h.sound.setPc p) h.running
  ret := fun u v _ h hr => .of_running_or_halted (h.sound.afterReturn v hr) (by
    rw [← h.running]
    exact afterReturn_status v u)
  call := fun u t p args st ra _ hn h hc => by
    have hops := Instr.ops_length_le hi
    refine .of_running (h.sound.callRoutine (by omega) hc) ?_
    obtain ⟨-, -, -, -, rfl⟩ := callRoutine_ok_iff.mp hc
    exact h.running
  halt := fun u _ h => .of_running_or_halted (h.sound.setStatus _) (.inr rfl)
  suspend := fun u x y _ h =>
    { sound := h.sound.setStatus _
      pending := fun r hr => by
        cases hr
        exact ⟨rfl, Nat.lt_add_of_pos_right i.size_pos⟩
      faultPc := fun f hf => nomatch hf }
  restart := fun u b _ h => .of_running (h.sound.restarted b) h.running

/-- A well-formed instruction keeps the invariant of a running machine. -/
theorem Inv.exec {i : Instr} {s t : State} (h : Inv s) (hr : s.status = .running) (hi : i.wellFormed = true)
    (he : exec i s = .next t) : Inv t := by
  obtain ⟨k, rfl⟩ | ht := (effects_inv hi).run ⟨h.sound, hr, rfl⟩ he
  · exact h.sound.inv_takeFault k _
  · exact ht

/-- The reset state is sound: its memory is the image no byte of which is listed (70_reset_and_hazards.md R446). -/
theorem Sound.reset : Sound State.reset :=
  .loaded (p := Params.default) (m := []) (len := 0x45) (by decide) Memory.wf_nil (fun _ hc => nomatch hc) rfl rfl

/-! ## Parameters, image, generator and output (10_state.md R21, R22, R34, R35, R38) -/

/-- The instructions that print (41_text.md R206 to R212, 42_objects.md R254). -/
def prints (i : Instr) : Prop :=
  i.parts.op ∈ [.print, .printRet, .printAddr, .printPaddr, .printObj, .printChar, .printNum, .newLine]

/-- What instruction `i`, begun in `s`, leaves of the parameters, the image, the generator and the output in `u`. -/
def PortsKept (i : Instr) (s u : State) : Prop :=
  u.params = s.params ∧ u.len = s.len ∧ u.rom = s.rom ∧ u.hdr = s.hdr ∧ (i.parts.op ≠ .random → u.rng = s.rng) ∧
    (¬ prints i → u.out = s.out) ∧ ∃ cs, (∀ c ∈ cs, c ≠ 0) ∧ u.out = s.out ++ cs

theorem PortsKept.refl (i : Instr) (s : State) : PortsKept i s s :=
  ⟨rfl, rfl, rfl, rfl, fun _ => rfl, fun _ => rfl, [], by simp, by simp⟩

/-- A state with the same ports has kept as much. -/
theorem PortsKept.of_same {i : Instr} {s u v : State} (h : PortsKept i s u)
    (hv : v.params = u.params ∧ v.len = u.len ∧ v.rom = u.rom ∧ v.hdr = u.hdr ∧ v.rng = u.rng ∧ v.out = u.out) :
    PortsKept i s v := by
  obtain ⟨hp, hl, hr, hh, hg, ho⟩ := hv
  simpa only [PortsKept, hp, hl, hr, hh, hg, ho] using h

/-- Printing appends codes other than 0 (41_text.md R203). -/
theorem PortsKept.emitAll {i : Instr} {s u : State} (h : PortsKept i s u) (hi : prints i) (cs : List Zscii) :
    PortsKept i s (emitAll cs u) := by
  obtain ⟨hp, hl, hr, hh, hg, -, ds, hds, ho⟩ := h
  refine ⟨by simpa, by simpa, by simpa, by simpa, by simpa, fun hn => absurd hi hn, ds ++ cs.filter (· ≠ 0), ?_, by simp [ho]⟩
  intro c hc
  rcases List.mem_append.mp hc with hc | hc
  · exact hds c hc
  · simpa using (List.mem_filter.mp hc).2

/-- A return changes no port: it sets the frames, the stack, the pc, the status and the variable stored. -/
theorem afterReturn_ports (v : Word) (s : State) :
    (afterReturn v s).params = s.params ∧ (afterReturn v s).len = s.len ∧ (afterReturn v s).rom = s.rom ∧
      (afterReturn v s).hdr = s.hdr ∧ (afterReturn v s).rng = s.rng ∧ (afterReturn v s).out = s.out := by
  obtain ⟨-, h⟩ | ⟨c, rest, ra, -, -, ⟨-, h⟩ | ⟨n, -, h⟩⟩ := afterReturn_cases v s <;> simp [h]

/-- Only `random` touches the generator, and only the printing instructions the output. -/
theorem effects_ports (i : Instr) (s : State) : Effects i s (PortsKept i s) (PortsKept i s) where
  read := fun u n h _ => h.of_same (by simp)
  store := fun u st v _ h _ => h.of_same (by simp)
  update := fun u n v _ h _ => h.of_same (by simp)
  push := fun u v _ h _ => h.of_same (by simp)
  byte := fun u a b _ h _ _ => h.of_same (by simp)
  print := fun u cs hi h => h.emitAll hi cs
  random := fun u g hi h => by
    obtain ⟨hp, hl, hr, hh, -, ho, hcs⟩ := h
    exact ⟨hp, hl, hr, hh, fun hn => absurd hi hn, ho, hcs⟩
  goOn := fun u p h => h.of_same (by simp)
  ret := fun u v _ h _ => h.of_same (afterReturn_ports v u)
  call := fun u t p args st ra _ _ h hc => by
    obtain ⟨-, -, -, -, rfl⟩ := callRoutine_ok_iff.mp hc
    exact h.of_same (by simp)
  halt := fun u _ h => h.of_same (by simp)
  suspend := fun u x y _ h => h.of_same (by simp)
  restart := fun u b _ h => h.of_same (by simp)

/-- Every instruction keeps the parameters, the loaded image and the latched header; the generator and the output change
only by the instructions for them. -/
theorem exec_ports {i : Instr} {s t : State} (he : exec i s = .next t) : PortsKept i s t := by
  obtain ⟨k, rfl⟩ | ht := (effects_ports i s).run (.refl i s) he
  · exact (PortsKept.refl i s).of_same (by simp)
  · exact ht

/-! ## Frames and locals (10_state.md R26, R28) -/

/-- Local `k + 1` is the variable the instruction stores its result in, or the one it names to be written in place. -/
def namesLocal (i : Instr) (s : State) (k : Nat) : Prop :=
  (∃ st, i.parts.store = some st ∧ st.toNat = k + 1) ∨
    i.parts.op ∈ [.store, .inc, .dec, .incChk, .decChk, .pull] ∧
      ∃ r rest, i.parts.ops = r :: rest ∧ (opValue r s).toNat = k + 1

/-- A variable updated in place has the number its reference gives (40_decode.md R151). -/
theorem loByte_toNat_of_le {v : Word} (h : v.toNat ≤ 255) : (loByte v).toNat = v.toNat := by
  rw [loByte_toNat]
  omega

/-- The local that an instruction updates in place is one it names. -/
theorem updates.namesLocal {i : Instr} {s : State} {n : Byte} (h : updates i s n) {k : Nat} (hk : n.toNat = k + 1) :
    namesLocal i s k := by
  obtain ⟨hop, r, rest, hr, hle, rfl⟩ := h
  exact .inr ⟨hop, r, rest, hr, by rw [← loByte_toNat_of_le hle, hk]⟩

/-- The frames of `u` are those of `s` but for the locals that instruction `i` names. -/
structure FramesKept (i : Instr) (s u : State) : Prop where
  callers : u.callers = s.callers
  frame : u.frame = { s.frame with locals := u.frame.locals }
  length : u.frame.locals.length = s.frame.locals.length
  locals : ∀ k, ¬ namesLocal i s k → u.frame.locals[k]? = s.frame.locals[k]?

theorem FramesKept.refl (i : Instr) (s : State) : FramesKept i s s := ⟨rfl, rfl, rfl, fun _ _ => rfl⟩

/-- A state with the same frames has kept as much. -/
theorem FramesKept.of_same {i : Instr} {s u v : State} (h : FramesKept i s u) (hc : v.callers = u.callers)
    (hf : v.frame = u.frame) : FramesKept i s v := by
  obtain ⟨h1, h2, h3, h4⟩ := h
  rw [← hc] at h1
  rw [← hf] at h2 h3 h4
  exact ⟨h1, h2, h3, h4⟩

theorem FramesKept.withVar {i : Instr} {s u : State} (h : FramesKept i s u) {n : Byte} (v : Word)
    (hn : ∀ k, n.toNat = k + 1 → namesLocal i s k) : FramesKept i s (withVar n v u) where
  callers := by rw [withVar_callers, h.callers]
  frame := by rw [withVar_frame, h.frame]
  length := by rw [withVar_locals_length, h.length]
  locals := fun k hk => by rw [withVar_locals_ne v u (fun hkn => hk (hn k hkn)), h.locals k hk]

theorem FramesKept.withVarInPlace {i : Instr} {s u : State} (h : FramesKept i s u) {n : Byte} (v : Word)
    (hn : ∀ k, n.toNat = k + 1 → namesLocal i s k) : FramesKept i s (withVarInPlace n v u) := by
  unfold Machine.withVarInPlace
  split
  · exact h.of_same rfl rfl
  · exact h.withVar v hn

/-- An instruction that neither calls, returns nor restarts keeps the frames but for the locals it names. -/
theorem effects_frames {i : Instr} (s : State) (hcall : i.parts.op ≠ .call) (hret : ¬ mayReturn i) (hre : i ≠ .restart) :
    Effects i s (FramesKept i s) (FramesKept i s) where
  read := fun u n h _ => h.of_same (by simp) (by simp)
  store := fun u st v hst h _ => h.withVar v fun k hk => .inl ⟨st, hst, hk⟩
  update := fun u n v hn h _ => h.withVarInPlace v fun k hk => hn.namesLocal hk
  push := fun u v _ h _ => h.of_same rfl rfl
  byte := fun u a b _ h _ _ => h.of_same rfl rfl
  print := fun u cs _ h => h.of_same (by simp) (by simp)
  random := fun u g _ h => h.of_same rfl rfl
  goOn := fun u p h => h.of_same rfl rfl
  ret := fun u v hm _ _ => absurd hm hret
  call := fun u t p args st ra hc _ _ _ => absurd hc hcall
  halt := fun u _ h => h.of_same rfl rfl
  suspend := fun u x y _ h => h.of_same rfl rfl
  restart := fun u b hr _ => absurd hr hre

/-- So does the whole of such an instruction, whether it completes or takes a fault. -/
theorem exec_frames {i : Instr} {s t : State} (hcall : i.parts.op ≠ .call) (hret : ¬ mayReturn i) (hre : i ≠ .restart)
    (he : exec i s = .next t) : FramesKept i s t := by
  obtain ⟨k, rfl⟩ | ht := (effects_frames s hcall hret hre).run (.refl i s) he
  · exact (FramesKept.refl i s).of_same rfl rfl
  · exact ht

/-! ## Memory (10_state.md R27, 20_memory.md R65) -/

/-- Address `a` is none of the two bytes of variable `n`, if that is a global. -/
def apartFrom (a : Nat) (s : State) (n : Byte) : Prop := 16 ≤ n.toNat → a ≠ s.globalAddr n ∧ a ≠ s.globalAddr n + 1

/-- What a working copy of an instruction begun in `s` keeps while no byte at `a` is written: the byte, and what says where
the globals lie and which variable a return stores into. -/
structure ByteKept (a : Nat) (s u : State) : Prop where
  wf : u.mem.wf
  get : u.mem.get a = s.mem.get a
  hdr : u.hdr = s.hdr
  storeVar : u.frame.storeVar = s.frame.storeVar

/-- A state with the same memory, header and store variable has kept as much. -/
theorem ByteKept.of_same {a : Nat} {s u v : State} (h : ByteKept a s u) (hm : v.mem = u.mem) (hh : v.hdr = u.hdr)
    (hf : v.frame.storeVar = u.frame.storeVar) : ByteKept a s v :=
  ⟨hm ▸ h.wf, hm ▸ h.get, hh.trans h.hdr, hf.trans h.storeVar⟩

/-- The globals of a working copy lie where they lay. -/
theorem apartFrom.of_hdr {a : Nat} {s u : State} {n : Byte} (h : apartFrom a s n) (hh : u.hdr = s.hdr) : apartFrom a u n := by
  unfold apartFrom State.globalAddr at *
  rwa [hh]

theorem ByteKept.withVar {a : Nat} {s u : State} (h : ByteKept a s u) {n : Byte} (v : Word) (hn : apartFrom a s n) :
    ByteKept a s (withVar n v u) := by
  obtain ⟨hget, hwf⟩ := withVar_get v h.wf (hn.of_hdr h.hdr)
  exact ⟨hwf, hget.trans h.get, by simp [h.hdr], by rw [withVar_frame, h.storeVar]⟩

theorem ByteKept.withVarInPlace {a : Nat} {s u : State} (h : ByteKept a s u) {n : Byte} (v : Word) (hn : apartFrom a s n) :
    ByteKept a s (withVarInPlace n v u) := by
  unfold Machine.withVarInPlace
  split
  · exact h.of_same rfl rfl rfl
  · exact h.withVar v hn

/-- A return writes no byte but those of the global its frame stores into (43_calls_stack.md R277). -/
theorem ByteKept.afterReturn {a : Nat} {s u : State} (h : ByteKept a s u) (v : Word)
    (hn : ∀ n, s.frame.storeVar = some n → apartFrom a s n) : (afterReturn v u).mem.get a = s.mem.get a := by
  obtain ⟨-, heq⟩ | ⟨c, rest, ra, -, -, ⟨-, heq⟩ | ⟨n, hs, heq⟩⟩ := afterReturn_cases v u
  · rw [heq]
    exact h.get
  · rw [heq]
    exact h.get
  · rw [heq]
    have apart : apartFrom a (u.popFrame c rest ra) n := (hn n (h.storeVar ▸ hs)).of_hdr h.hdr
    exact (withVar_get (s := u.popFrame c rest ra) v h.wf apart).1.trans h.get

/-- The variables instruction `i` can write, begun in `s`, none of whose bytes is at `a`. -/
structure WritesApart (i : Instr) (s : State) (a : Nat) : Prop where
  store : ∀ n, i.parts.store = some n → apartFrom a s n
  update : ∀ n, updates i s n → apartFrom a s n
  ret : mayReturn i → ∀ n, s.frame.storeVar = some n → apartFrom a s n

/-- An instruction that does not itself store to memory, nor restarts, writes only the globals it names. -/
theorem effects_byte {i : Instr} {s : State} {a : Nat} (hw : WritesApart i s a)
    (hop : i.parts.op ∉ [.storew, .storeb, .setAttr, .clearAttr, .putProp, .insertObj, .removeObj]) (hre : i ≠ .restart) :
    Effects i s (ByteKept a s) fun t => t.mem.get a = s.mem.get a where
  read := fun u n h _ => h.of_same (by simp) (by simp) (by simp)
  store := fun u st v hst h _ => h.withVar v (hw.store st hst)
  update := fun u n v hn h _ => h.withVarInPlace v (hw.update n hn)
  push := fun u v _ h _ => h.of_same rfl rfl rfl
  byte := fun u x b hb _ _ _ => absurd hb hop
  print := fun u cs _ h => h.of_same (by simp) (by simp) (by simp)
  random := fun u g _ h => h.of_same rfl rfl rfl
  goOn := fun u p h => h.get
  ret := fun u v hm h _ => h.afterReturn v (hw.ret hm)
  call := fun u t p args st ra _ _ h hc => by
    obtain ⟨-, -, -, -, rfl⟩ := callRoutine_ok_iff.mp hc
    exact h.get
  halt := fun u _ h => h.get
  suspend := fun u x y _ h => h.get
  restart := fun u b hr _ => absurd hr hre

/-- So does the whole instruction: a fault leaves memory as it was (60_exceptions.md R410). -/
theorem exec_byte {i : Instr} {s t : State} {a : Nat} (hm : s.mem.wf) (hw : WritesApart i s a)
    (hop : i.parts.op ∉ [.storew, .storeb, .setAttr, .clearAttr, .putProp, .insertObj, .removeObj]) (hre : i ≠ .restart)
    (he : exec i s = .next t) : t.mem.get a = s.mem.get a := by
  obtain ⟨k, rfl⟩ | ht := (effects_byte hw hop hre).run ⟨hm, rfl, rfl, rfl⟩ he
  · rfl
  · exact ht

/-! ## The stack below the frame's base (10_state.md R25, 43_calls_stack.md R271, R279) -/

/-- The words below the current frame's base, top first. -/
def State.belowBase (s : State) : List Word := s.stack.drop (s.stack.length - s.frame.stackBase)

theorem State.belowBase_length {s : State} (h : s.frame.stackBase ≤ s.stack.length) :
    s.belowBase.length = s.frame.stackBase := by
  rw [State.belowBase, List.length_drop]
  omega

/-- A stack with these words at its bottom has them as its oldest. -/
theorem State.belowBase_reverse {s : State} (h : s.frame.stackBase ≤ s.stack.length) {l : List Word}
    (hl : s.belowBase <:+ l) : l.reverse.take s.frame.stackBase = s.belowBase.reverse := by
  have := List.prefix_iff_eq_take.mp (List.reverse_prefix.mpr hl)
  rw [List.length_reverse, s.belowBase_length h] at this
  exact this.symm

/-- A working copy of an instruction begun in `s` has the same base and the same words below it. -/
structure StackKept (s u : State) : Prop where
  base : u.frame.stackBase = s.frame.stackBase
  below : s.belowBase <:+ u.stack

/-- A state with the same base and stack has kept as much. -/
theorem StackKept.of_same {s u v : State} (h : StackKept s u) (hb : v.frame.stackBase = u.frame.stackBase)
    (hs : v.stack = u.stack) : StackKept s v := ⟨hb.trans h.base, hs ▸ h.below⟩

/-- A variable write pushes at most. -/
theorem withVar_stack_suffix (n : Byte) (v : Word) (s : State) : s.stack <:+ (withVar n v s).stack := by
  unfold withVar
  split
  · exact List.suffix_cons v s.stack
  · split <;> exact List.suffix_rfl

theorem StackKept.withVar {s u : State} (h : StackKept s u) (n : Byte) (v : Word) : StackKept s (withVar n v u) where
  base := by rw [withVar_frame, h.base]
  below := h.below.trans (withVar_stack_suffix n v u)

section Kept

variable {s u : State} (hs : s.frame.stackBase ≤ s.stack.length)

include hs

/-- Taking off a word above the base keeps the words below it. -/
theorem StackKept.below_tail (h : StackKept s u) (ht : hasTop u = true) : s.belowBase <:+ u.stack.tail := by
  have hlen : u.frame.stackBase < u.stack.length := by simpa [hasTop] using ht
  refine List.suffix_of_suffix_length_le h.below (List.tail_suffix u.stack) ?_
  rw [s.belowBase_length hs, ← h.base, List.length_tail]
  omega

theorem StackKept.afterVar (h : StackKept s u) {n : Byte} (hr : varReadable n u = true) : StackKept s (afterVar n u) := by
  unfold Machine.afterVar
  split
  · rename_i h0
    exact ⟨h.base, h.below_tail hs (by simpa [varReadable, h0] using hr)⟩
  · exact h

theorem StackKept.withVarInPlace (h : StackKept s u) {n : Byte} (v : Word) (hw : inPlaceWritable n u = true) :
    StackKept s (withVarInPlace n v u) := by
  unfold Machine.withVarInPlace
  split
  · rename_i h0
    exact ⟨h.base, (h.below_tail hs (by simpa [inPlaceWritable, h0] using hw)).trans (List.suffix_cons v _)⟩
  · exact h.withVar n v

/-- A return cuts the stack back to the base, where the words below it remain (R279). -/
theorem StackKept.popFrame_stack (h : StackKept s u) (c : Frame) (rest : List Frame) (ra : Nat) :
    (u.popFrame c rest ra).stack = s.belowBase := by
  rw [State.popFrame_stack, h.base, List.suffix_iff_eq_drop.mp h.below, s.belowBase_length hs]

theorem StackKept.afterReturn (h : StackKept s u) (v : Word) : s.belowBase <:+ (afterReturn v u).stack := by
  obtain ⟨-, heq⟩ | ⟨c, rest, ra, -, -, ⟨-, heq⟩ | ⟨n, -, heq⟩⟩ := afterReturn_cases v u
  · rw [heq]
    exact h.below
  · rw [heq, h.popFrame_stack hs]
  · rw [heq, ← h.popFrame_stack hs c rest ra]
    exact withVar_stack_suffix n v _

/-- No effect but a restart reaches below the base: what is taken off lies above it (R271), and a return cuts back to it. -/
theorem effects_stack {i : Instr} (hre : i ≠ .restart) : Effects i s (StackKept s) fun t => s.belowBase <:+ t.stack where
  read := fun u n h hr => h.afterVar hs hr
  store := fun u st v _ h _ => h.withVar st v
  update := fun u n v _ h hw => h.withVarInPlace hs v hw
  push := fun u v _ h _ => ⟨h.base, h.below.trans (List.suffix_cons v _)⟩
  byte := fun u a b _ h _ _ => h.of_same rfl rfl
  print := fun u cs _ h => h.of_same (by simp) (by simp)
  random := fun u g _ h => h.of_same rfl rfl
  goOn := fun u p h => h.below
  ret := fun u v _ h _ => h.afterReturn hs v
  call := fun u t p args st ra _ _ h hc => by
    obtain ⟨-, -, -, -, rfl⟩ := callRoutine_ok_iff.mp hc
    exact h.below
  halt := fun u _ h => h.below
  suspend := fun u x y _ h => h.below
  restart := fun u b hr _ => absurd hr hre

/-- The words below the base of the frame an instruction begins in are the oldest words of the stack it leaves. -/
theorem exec_stack {i : Instr} {t : State} (hre : i ≠ .restart) (he : exec i s = .next t) : s.belowBase <:+ t.stack := by
  have start : s.belowBase <:+ s.stack := List.drop_suffix _ _
  obtain ⟨k, rfl⟩ | ht := (effects_stack hs hre).run ⟨rfl, start⟩ he
  · exact start
  · exact ht

end Kept

/-! ## Snapshots (10_state.md R36, 60_exceptions.md R423) -/

/-- Two machines of one image have the same latched header (R38). -/
theorem Sound.hdr_eq {s t : State} (hs : Sound s) (ht : Sound t) (hr : t.rom = s.rom) : t.hdr = s.hdr := by
  rw [ht.header, hs.header, hr]

/-- A snapshot of a sound machine may be installed in another of the same image. -/
theorem takeSnapshot_fits {s t : State} (hs : Sound s) (hp : t.params = s.params) (hh : t.hdr = s.hdr) :
    (takeSnapshot s).fits t = true := by
  have hd := hs.depth
  simp only [Snapshot.fits, takeSnapshot, hp, hh, List.length_map, List.length_range, hs.linked, hs.base, hd, decide_true,
    Bool.and_self]

/-- The dynamic bytes of `s` over the memory of `t` are the memory of `s`: above them both hold the loaded image. -/
theorem place_takeSnapshot {s t : State} (hs : Sound s) (ht : Sound t) (hh : t.hdr = s.hdr) (hr : t.rom = s.rom) :
    t.mem.place 0 (takeSnapshot s).dyn = s.mem := by
  refine Memory.ext_of_wf (Memory.wf_place _ _ ht.memWf) hs.memWf fun a => ?_
  rw [Memory.get_place _ _ _ ht.memWf]
  by_cases ha : a < s.hdr.staticBase.toNat
  · simp [takeSnapshot, ha]
  · rw [if_neg (by simpa [takeSnapshot] using ha), ht.static a (by rw [hh]; omega), hs.static a (by omega), hr]

end Sys2Proof.Machine

namespace Sys2Proof.Proofs

open Sys2Proof.Machine

/-- Settles O55: a step runs a well-formed instruction, whose effects keep the invariant, takes a fault, or does nothing. -/
theorem stepKeepsInv : Obligations.StepKeepsInv := by
  intro s t h hstep
  obtain rfl | ⟨hr, ⟨i, hf, he⟩ | ⟨k, rfl⟩⟩ := step_next hstep
  · exact h
  · exact h.exec hr (State.fetch_wellFormed hf) he
  · exact h.sound.inv_takeFault k _

/-- Settles O5: the reset state is the machine loaded from the image of unlisted bytes. -/
theorem resetInv : Obligations.ResetInv := Inv.of_running Sound.reset rfl

/-- Settles O56: the ports by `exec_ports`; the frames by `exec_frames`, since the excluded instructions are those that
call, return or restart. -/
theorem fieldFrame : Obligations.FieldFrame := by
  intro i s t he
  obtain ⟨hp, hl, hr, hh, hg, ho, hcs⟩ := exec_ports he
  refine ⟨hp, hl, hr, hh, hg, ho, hcs, fun hop hbr => ?_⟩
  simp only [List.mem_cons, List.not_mem_nil, or_false, not_or] at hop
  obtain ⟨hcall, h1, h2, h3, h4, h5, hre⟩ := hop
  have hret : ¬ mayReturn i := by
    rintro (hm | ⟨br, hb, hv⟩)
    · simp [h1, h2, h3, h4, h5] at hm
    · obtain ⟨h0, h1⟩ := hbr br hb
      exact hv.elim h0 h1
  obtain ⟨hc, hf, hlen, hloc⟩ := exec_frames hcall hret (Instr.ne_restart hre) he
  exact ⟨hc, hf, hlen, hloc⟩

/-- Settles O57: the premise says that no variable the instruction can write has a byte at the address. -/
theorem memoryFrame : Obligations.MemoryFrame := by
  intro i s t a hm hop he hglob
  have apart : WritesApart i s a := by
    refine ⟨fun n hst hn => not_or.mp fun ha => ?_, fun n hup hn => not_or.mp fun ha => ?_,
      fun hret n hsv hn => not_or.mp fun ha => ?_⟩
    · obtain ⟨hne, -, -⟩ := hglob n hn ha
      exact hne hst
    · obtain ⟨hmem, r, rest, hr, hle, rfl⟩ := hup
      obtain ⟨-, hne, -⟩ := hglob _ hn ha
      exact hne hmem r rest hr (loByte_toNat_of_le hle).symm
    · obtain ⟨-, -, hne⟩ := hglob n hn ha
      exact hne hret hsv
  refine exec_byte hm apart (fun h => hop ?_) (Instr.ne_restart fun h => hop (by simp [h])) he
  exact List.mem_append_left [.restart] h

/-- Settles O58: the words below the base stay at the bottom of the stack through every effect but a restart. -/
theorem stackBelowBase : Obligations.StackBelowBase := by
  intro i s t hre hs he
  rw [s.belowBase_reverse hs (exec_stack hs (Instr.ne_restart hre) he), s.belowBase_reverse hs (List.drop_suffix _ _)]

/-- Settles O60: the snapshot fits, its bytes restore the memory, and the other fields are those of the image. -/
theorem snapshotRestores : Obligations.SnapshotRestores := by
  intro s t hs ht hp hl hr
  have hh := hs.sound.hdr_eq ht.sound hr
  rw [installSnapshot, if_pos (takeSnapshot_fits hs.sound hp hh), place_takeSnapshot hs.sound ht.sound hh hr]
  simp [takeSnapshot, hp, hl, hr, hh]

end Sys2Proof.Proofs
end

section
/-! PROOFS. Byte and word accesses (the statement O6). -/

namespace Sys2Proof.Proofs

open Sys2Proof.Machine

/-- Settles O6: an access faults on the bound first and on the static boundary second (20_memory.md R63 to R66); a write
that completes sets the named bytes of a canonical memory, the high byte at the lower address (R68). -/
theorem memoryAccess : Obligations.MemoryAccess := by
  intro a b v s hwf
  refine ⟨readByte_ok, readByte_error, fun hl => ?readWord, readWord_error, writeByte_out, writeByte_static,
    fun hl hs => ?writeByte, writeWord_out, writeWord_static, fun hl hs => ?writeWord⟩
  case readWord => exact ⟨s.mem.getWord a, readWord_ok hl, s.mem.getWord_toNat a⟩
  case writeByte =>
    have hw : writeByte a b s = .ok (s.setByte a b) := writeByte_ok_iff.mpr ⟨hl, hs, rfl⟩
    exact ⟨_, hw, rfl, Memory.wf_set a b hwf, fun x => Memory.get_set a b x hwf⟩
  case writeWord =>
    have hw : writeWord a v s = .ok (s.setWord a v) := writeWord_ok_iff.mpr ⟨hl, hs, rfl⟩
    exact ⟨_, hw, rfl, State.wf_setWord a v hwf, fun x => Memory.get_set_word a v x hwf⟩

end Sys2Proof.Proofs
end

section
/-! PROOFS. Encoding and decoding (the statements O7 to O9 and O11 to O13). Both round trips are the two halves of the
decoder's part-by-part laws: `decodeParts_of_holds` reads parts from their bytes, `decodeParts_ok` says where the parts
that were read stand. -/

namespace Sys2Proof

open Sys2Proof.Machine

/-! ## The round trips (30_encoding.md R90, 40_decode.md R140) -/

/-- Decoding ends with the instruction that the parts read build. -/
theorem decodeNext_of_parts {pol : AfterOmit} {m : Memory} {len pc next : Nat} {d : Decoded} {i : Instr}
    (hd : decodeParts pol m len pc = .ok (d, next)) (hb : d.build = some i) :
    decodeNext pol m len pc = .ok (i, next) := by
  rw [decodeNext, hd, ok_bind]
  simp only [hb]

/-- The encoder's type byte omits every field after the operands, so both policies of R112 read it alike. -/
theorem typeList_typeByte (pol : AfterOmit) {ops : List Operand} (h : ops.length ≤ 4) :
    typeList pol (typeFields (typeByte ops)) = some (ops.map Operand.type) := by
  rw [typeByte_eq, typeList_typeByteOf pol _ (by simpa using h)]

/-- A well-formed instruction is decoded where its encoding stands. -/
theorem decodeNext_of_holds_encode {pol : AfterOmit} {m : Memory} {len pc : Nat} {i : Instr} (hw : i.wellFormed = true)
    (hl : pc + (encode i).length ≤ len) (hh : holds m pc (encode i)) :
    decodeNext pol m len pc = .ok (i, pc + (encode i).length) := by
  obtain ⟨hfits, hbuild⟩ := Instr.parts_fits hw
  obtain ⟨hop, htype, htail⟩ := holds_bytes.mp hh
  rw [encode_length] at hl ⊢
  have types : i.parts.form = .variable →
      typeList pol (typeFields (m.get (pc + 1))) = some (i.parts.ops.map Operand.type) := fun hf => by
    rw [htype hf, typeList_typeByte pol (Instr.ops_length_le hw)]
  exact decodeNext_of_parts (decodeParts_of_holds hfits hl hop types htail) hbuild

/-- What the strict policy decodes stands encoded at `pc`: its type byte has no field that is read and dropped (R112). -/
theorem holds_encode_of_decodeNext {m : Memory} {len pc next : Nat} {i : Instr}
    (h : decodeNext .fault m len pc = .ok (i, next)) : holds m pc (encode i) := by
  obtain ⟨-, -, -, hop, htypes, htail⟩ := decodeParts_ok (decodeNext_ok h).1
  refine holds_bytes.mpr ⟨hop, fun hf => ?_, htail⟩
  rw [typeByte_eq, typeByteOf_typeList _ _ (htypes hf)]

/-! ## Illegal opcodes (30_encoding.md R110) -/

/-- The opcode bytes of R110's list. -/
def illegalBytes : List Nat :=
  [0x00, 0x20, 0x40, 0x60, 0xC0, 0x88, 0x98, 0xA8, 0xBE, 0xBF] ++ List.range' 0x19 7 ++ List.range' 0x39 7 ++
    List.range' 0x59 7 ++ List.range' 0x79 7 ++ List.range' 0xD9 7 ++ List.range' 0xEC 7 ++ List.range' 0xF6 10

/-- The opcode map has no row for the listed bytes, and one for every other. -/
theorem mem_illegalBytes_iff (b : Byte) :
    b.toNat ∈ illegalBytes ↔ opcodeMap (classify b).2.1 (classify b).2.2 = none := by
  revert b
  decide

/-- The illegal-opcode fault is taken exactly when the opcode map has no row for the byte (40_decode.md R142). -/
theorem decodeParts_illegal_iff {pol : AfterOmit} {m : Memory} {len pc : Nat} (hpc : pc < len) :
    decodeParts pol m len pc = .error (.decode (.illegalOpcode pc (m.get pc))) ↔
      opcodeMap (classify (m.get pc)).2.1 (classify (m.get pc)).2.2 = none := by
  constructor
  · intro h
    cases ho : opcodeMap (classify (m.get pc)).2.1 (classify (m.get pc)).2.2 with
    | none => rfl
    | some op =>
      -- a byte with a row takes only other faults
      obtain ⟨a, hk⟩ | hk | hk := decodeParts_error hpc ho h <;> cases hk
  · intro ho
    rw [decodeParts, Memory.byteAt, if_pos hpc, ok_bind]
    simp only [ho]

/-! ## The type byte (30_encoding.md R94, R112, 40_decode.md R144) -/

theorem typeOf_eq_some_iff {c : BitVec 2} {t : OpType} : typeOf c = some t ↔ t.code = c := by
  revert c
  cases t <;> decide

theorem typeOf_eq_none_iff {c : BitVec 2} : typeOf c = none ↔ c = 3 := by
  revert c
  decide

/-- The code of an operand type is not that of an omitted field. -/
theorem OpType.code_ne_omitted (t : OpType) : t.code.toNat ≠ 3 := by cases t <;> decide

/-- The type codes before the first omitted field. -/
def takenFields (fields : List Nat) : List Nat := fields.takeWhile (· ≠ 3)

/-- A field after the first omitted one is not omitted. -/
def lateField (fields : List Nat) : Prop := ∃ c ∈ fields.drop (takenFields fields).length, c ≠ 3

theorem takenFields_cons_code (t : OpType) (fields : List Nat) :
    takenFields (t.code.toNat :: fields) = t.code.toNat :: takenFields fields :=
  List.takeWhile_cons_of_pos (by simpa using t.code_ne_omitted)

theorem takenFields_cons_omitted (fields : List Nat) : takenFields (3 :: fields) = [] :=
  List.takeWhile_cons_of_neg (by simp)

theorem lateField_cons_code (t : OpType) (fields : List Nat) : lateField (t.code.toNat :: fields) ↔ lateField fields := by
  rw [lateField, takenFields_cons_code]
  rfl

theorem lateField_cons_omitted (fields : List Nat) : lateField (3 :: fields) ↔ ∃ c ∈ fields, c ≠ 3 := by
  rw [lateField, takenFields_cons_omitted]
  simp

/-- The types read are the fields before the first omitted one. -/
theorem typeList_codes {pol : AfterOmit} {cs : List (BitVec 2)} {ts : List OpType} (h : typeList pol cs = some ts) :
    ts.map (fun t => t.code.toNat) = takenFields (cs.map BitVec.toNat) := by
  induction cs generalizing ts with
  | nil =>
    cases h
    rfl
  | cons c cs ih =>
    cases hc : typeOf c with
    | some t =>
      obtain rfl := typeOf_eq_some_iff.mp hc
      simp only [typeList, hc] at h
      obtain ⟨us, hus, rfl⟩ := Option.map_eq_some_iff.mp h
      rw [List.map_cons, List.map_cons, takenFields_cons_code, ih hus]
    | none =>
      obtain rfl := typeOf_eq_none_iff.mp hc
      simp only [typeList, hc, Option.ite_none_left_eq_some, Option.some.injEq] at h
      obtain ⟨-, rfl⟩ := h
      exact (takenFields_cons_omitted _).symm

/-- No types are read exactly when the strict policy meets a late field. -/
theorem typeList_eq_none_iff {pol : AfterOmit} {cs : List (BitVec 2)} :
    typeList pol cs = none ↔ pol = .fault ∧ lateField (cs.map BitVec.toNat) := by
  induction cs with
  | nil => simp [typeList, lateField]
  | cons c cs ih =>
    cases hc : typeOf c with
    | some t =>
      obtain rfl := typeOf_eq_some_iff.mp hc
      simp only [typeList, hc, Option.map_eq_none_iff, ih]
      rw [List.map_cons, lateField_cons_code]
    | none =>
      obtain rfl := typeOf_eq_none_iff.mp hc
      have kept : (∃ c ∈ cs.map BitVec.toNat, c ≠ 3) ↔ cs.any (· ≠ 3) = true := by simp [BitVec.toNat_eq]
      simp only [typeList, hc]
      rw [List.map_cons, show BitVec.toNat (3 : BitVec 2) = 3 from rfl, lateField_cons_omitted, kept]
      simp only [ite_eq_left_iff, reduceCtorEq, imp_false, not_not]

/-- The four fields of the type byte `tb` as numbers. -/
def fieldCodes (tb : Nat) : List Nat := [tb / 64, tb / 16 % 4, tb / 4 % 4, tb % 4]

theorem typeFields_toNat (tb : Byte) : (typeFields tb).map BitVec.toNat = fieldCodes tb.toNat := by
  revert tb
  decide

/-- The rows of the variable form, `b` their opcode byte (30_encoding.md R105, R108). -/
abbrev variableRow (b : Nat) : Prop := 0xC1 ≤ b ∧ b ≤ 0xD8 ∨ 0xE0 ≤ b ∧ b ≤ 0xEB ∨ 0xF3 ≤ b ∧ b ≤ 0xF5

/-- The operand counts of those rows (R111). -/
def variableRange (b : Nat) : Nat × Nat :=
  if b = 0xC1 then (2, 4) else if b < 0xE0 then (2, 2) else if b = 0xE0 ∨ b = 0xF5 then (1, 4)
  else if b = 0xE1 ∨ b = 0xE2 ∨ b = 0xE3 then (3, 3) else if b = 0xE4 then (2, 2)
  else if b = 0xF3 then (1, 2) else (1, 1)

/-- The opcode map's rows of the variable form have these operand counts. -/
theorem classify_variableRow {b : Byte} (h : variableRow b.toNat) :
    (classify b).1 = .variable ∧
      ∃ op, opcodeMap (classify b).2.1 (classify b).2.2 = some op ∧ op.arity = variableRange b.toNat := by
  have rows : ∀ b : Byte, variableRow b.toNat → (classify b).1 = .variable ∧
      (opcodeMap (classify b).2.1 (classify b).2.2).map Op.arity = some (variableRange b.toNat) := by decide
  obtain ⟨hf, ha⟩ := rows b h
  exact ⟨hf, Option.map_eq_some_iff.mp ha⟩

theorem Op.admits_iff {o : Op} {n : Nat} : o.admits n = true ↔ o.arity.1 ≤ n ∧ n ≤ o.arity.2 := by
  simp [Op.admits]

section VariableForm

variable {pol : AfterOmit} {m : Memory} {len pc : Nat} (hpc : pc + 1 < len) (hrow : variableRow (m.get pc).toNat)

include hpc hrow

/-- The strict policy faults on a late field (R112). -/
theorem decodeNext_late (hp : pol = .fault) (hl : lateField (fieldCodes (m.get (pc + 1)).toNat)) :
    decodeNext pol m len pc = .error (.decode (.malformedTypeByte pc (m.get pc))) := by
  obtain ⟨hf, op, ho, -⟩ := classify_variableRow hrow
  obtain ⟨malformed, -, -⟩ := decodeParts_variable (pol := pol) hpc hf ho
  rw [← typeFields_toNat] at hl
  exact decodeNext_error.mpr (malformed (typeList_eq_none_iff.mpr ⟨hp, hl⟩))

/-- A type byte that is read faults when its operand count is outside the row's range (R111, R148). -/
theorem decodeNext_count (hp : pol = .ignore ∨ ¬ lateField (fieldCodes (m.get (pc + 1)).toNat))
    (hn : (takenFields (fieldCodes (m.get (pc + 1)).toNat)).length < (variableRange (m.get pc).toNat).1 ∨
      (variableRange (m.get pc).toNat).2 < (takenFields (fieldCodes (m.get (pc + 1)).toNat)).length) :
    decodeNext pol m len pc = .error (.decode (.operandCount pc (m.get pc))) := by
  obtain ⟨hf, op, ho, ha⟩ := classify_variableRow hrow
  obtain ⟨-, count, -⟩ := decodeParts_variable (pol := pol) hpc hf ho
  rw [← typeFields_toNat] at hp hn
  cases hts : typeList pol (typeFields (m.get (pc + 1))) with
  | none =>
    obtain ⟨rfl, hl⟩ := typeList_eq_none_iff.mp hts
    exact absurd hl (hp.resolve_left (by decide))
  | some ts =>
    rw [← typeList_codes hts, List.length_map, ← ha] at hn
    refine decodeNext_error.mpr (count ts hts (Bool.eq_false_iff.mpr fun hadm => ?_))
    have := Op.admits_iff.mp hadm
    omega

/-- What is decoded has the operand types of the type byte, in the row's range. -/
theorem decodeNext_variable_ok {i : Instr} {next : Nat} (h : decodeNext pol m len pc = .ok (i, next)) :
    i.parts.ops.map (fun o => o.type.code.toNat) = takenFields (fieldCodes (m.get (pc + 1)).toNat) ∧
      (variableRange (m.get pc).toNat).1 ≤ (takenFields (fieldCodes (m.get (pc + 1)).toNat)).length ∧
        (takenFields (fieldCodes (m.get (pc + 1)).toNat)).length ≤ (variableRange (m.get pc).toNat).2 := by
  obtain ⟨hf, op, ho, ha⟩ := classify_variableRow hrow
  obtain ⟨-, -, parts⟩ := decodeParts_variable (pol := pol) hpc hf ho
  obtain ⟨hd, -⟩ := decodeNext_ok h
  obtain ⟨hform, rfl⟩ := parts _ _ hd
  obtain ⟨hfits, -, -, -, htypes, -⟩ := decodeParts_ok hd
  rw [← typeFields_toNat, ← typeList_codes (htypes hform), List.map_map, List.length_map, ← ha]
  exact ⟨rfl, Op.admits_iff.mp hfits.admits⟩

end VariableForm

end Sys2Proof

namespace Sys2Proof.Proofs

open Sys2Proof.Machine

/-- Settles O7: the parts of a well-formed instruction fit its row, so they are read back from its bytes and build it. -/
theorem decodeEncode : Obligations.DecodeEncode :=
  fun _ _ _ _ _ hw hl hh => decodeNext_of_holds_encode hw hl hh

/-- Settles O8: the parts read stand at `pc`, and the strict policy fixes the type byte that names their types. -/
theorem encodeDecode : Obligations.EncodeDecode := by
  intro m len pc next i h
  obtain ⟨-, hnext, -⟩ := decodeParts_ok (decodeNext_ok h).1
  exact ⟨by rw [encode_length]; exact hnext, holds_encode_of_decodeNext h⟩

/-- Settles O9: each clause is one of the laws of the parts that were read. -/
theorem decodeWellFormed : Obligations.DecodeWellFormed := by
  intro pol m len pc next i h
  obtain ⟨hd, hw⟩ := decodeNext_ok h
  obtain ⟨-, hnext, hlen, hop, -, -⟩ := decodeParts_ok hd
  exact ⟨hw, hop.symm, hnext, hlen, (encode_length i).symm⟩

/-- Settles O11: the five words are evaluated. -/
theorem decodeWords : Obligations.DecodeWords := by
  unfold Obligations.DecodeWords
  decide

/-- Settles O12: the listed bytes are those without a row, and they alone take the illegal-opcode fault. -/
theorem illegalOpcodes : Obligations.IllegalOpcodes := by
  intro pol m len pc hpc
  calc (m.get pc).toNat ∈ illegalBytes
      ↔ opcodeMap (classify (m.get pc)).2.1 (classify (m.get pc)).2.2 = none := mem_illegalBytes_iff _
    _ ↔ decodeParts pol m len pc = .error (.decode (.illegalOpcode pc (m.get pc))) := (decodeParts_illegal_iff hpc).symm
    _ ↔ decodeNext pol m len pc = .error (.decode (.illegalOpcode pc (m.get pc))) := decodeNext_error.symm

/-- Settles O13: `typeList` reads the fields before the first omitted one and refuses a late field under the strict policy
only; the row's range is `Op.arity`. -/
theorem typeByte : Obligations.TypeByte := by
  intro pol m len pc hpc _ _ _ _ _ _ hrow
  exact ⟨decodeNext_late hpc hrow, decodeNext_count hpc hrow, fun _ _ => decodeNext_variable_ok hpc hrow⟩

end Sys2Proof.Proofs
end

section
/-! PROOFS. What a decoding reads, and what a step runs (the statements O10, O14, O15). -/

namespace Sys2Proof

open Sys2Proof.Machine

/-! ## The bytes a decoding reads (40_decode.md R140) -/

/-- Bytes that stand in a memory stand in every memory that agrees with it on their addresses. -/
theorem holds_congr {m n : Memory} {p : Nat} {bs : List Byte} (h : ∀ a, p ≤ a → a < p + bs.length → n.get a = m.get a)
    (hh : holds m p bs) : holds n p bs := by
  intro k hk
  rw [h (p + k) (by omega) (by omega)]
  exact hh k hk

theorem Decoded.size_eq_tail (d : Decoded) : d.size = 1 + d.form.typeBytes + d.tail.length := by
  have htail : d.bytes = d.opbyte :: ((if d.form = .variable then [typeByte d.ops] else []) ++ d.tail) := by
    simp [Decoded.bytes, Decoded.tail]
  rw [← d.bytes_length, htail, List.length_cons, List.length_append, Form.typeBytes]
  split <;> simp only [List.length_singleton, List.length_nil] <;> omega

/-- The parts read depend on the bytes between `pc` and the next instruction only. -/
theorem decodeParts_congr {pol : AfterOmit} {m n : Memory} {len pc next : Nat} {d : Decoded}
    (h : decodeParts pol m len pc = .ok (d, next)) (hn : ∀ a, pc ≤ a → a < next → n.get a = m.get a) :
    decodeParts pol n len pc = .ok (d, next) := by
  obtain ⟨hfits, rfl, hlen, hop, htypes, htail⟩ := decodeParts_ok h
  have hsize := d.size_eq_tail
  refine decodeParts_of_holds hfits hlen ?opbyte (fun hf => ?typeByte) (holds_congr ?tail htail)
  case opbyte => rw [hn pc le_rfl (by omega), hop]
  case typeByte =>
    rw [Form.typeBytes, if_pos hf] at hsize
    rw [hn (pc + 1) (by omega) (by omega), htypes hf]
  case tail => exact fun a ha hl => hn a (by omega) (by omega)

end Sys2Proof

namespace Sys2Proof.Machine

/-! ## The step (40_decode.md R163, 60_exceptions.md R417) -/

theorem step_of_fetch_ok {s : State} {i : Instr} (hs : s.status = .running) (hf : s.fetch = .ok i) : step s = exec i s := by
  simp only [step, hs, hf]

theorem step_of_fetch_error {s : State} {k : FaultKind} (hs : s.status = .running) (hf : s.fetch = .error k) :
    step s = .next (takeFault k s.opbyteAt s) := by
  simp only [step, hs, hf]

theorem step_of_not_running {s : State} (hs : s.status ≠ .running) : step s = .next s := by
  unfold step
  cases h : s.status with
  | running => exact absurd h hs
  | awaitingInput r => rfl
  | halted => rfl
  | faulted f => rfl

/-- The fetch answers the instruction whose encoding stands at pc. -/
theorem State.fetch_of_holds_encode {s : State} {i : Instr} (hw : i.wellFormed = true)
    (hl : s.pc + (encode i).length ≤ s.len) (hh : holds s.mem s.pc (encode i)) : s.fetch = .ok i :=
  map_ok_iff.mpr ⟨_, decodeNext_of_holds_encode hw hl hh, rfl⟩

end Sys2Proof.Machine

namespace Sys2Proof.Proofs

open Sys2Proof.Machine

/-- Settles O10: the parts read stand between `pc` and `next`, so they are read again where those bytes are the same, and
they build the same instruction. -/
theorem decodeLocal : Obligations.DecodeLocal := by
  intro pol m n len pc next i h hn
  obtain ⟨hd, hw⟩ := decodeNext_ok h
  exact decodeNext_of_parts (decodeParts_congr hd hn) (Instr.parts_fits hw).2

/-- Settles O14: each clause is the step's equation for one outcome of the status and the fetch. -/
theorem stepRunsDecoded : Obligations.StepRunsDecoded :=
  fun _ => ⟨fun _ => step_of_fetch_ok, fun _ => step_of_fetch_error, step_of_not_running⟩

/-- Settles O15: the fetch decodes the encoding that stands at pc, by the round trip of O7. -/
theorem stepRunsEncoded : Obligations.StepRunsEncoded :=
  fun _ _ hs hw hl hh => step_of_fetch_ok hs (State.fetch_of_holds_encode hw hl hh)

end Sys2Proof.Proofs
end

section
/-! PROOFS. Variables, operands and branches (the statements O16 to O20). -/

namespace Sys2Proof.Machine

/-! ## The top of the stack (43_calls_stack.md R270 to R272) -/

section Top

variable {s : State} {w : Word} {rest : List Word}

theorem hasTop_of_lt (h : s.frame.stackBase < s.stack.length) : hasTop s = true := by
  simpa [hasTop] using h

theorem hasTop_of_le (h : s.stack.length ≤ s.frame.stackBase) : hasTop s = false := by
  simpa [hasTop] using h

theorem pop_of_cons (hs : s.stack = w :: rest) (h : s.frame.stackBase < s.stack.length) :
    pop s = .ok (w, { s with stack := rest }) := by
  rw [pop_eq, if_pos (hasTop_of_lt h), hs, List.headD_cons, List.tail_cons]

theorem peek_of_cons (hs : s.stack = w :: rest) (h : s.frame.stackBase < s.stack.length) : peek s = .ok w := by
  rw [peek_eq, if_pos (hasTop_of_lt h), hs, List.headD_cons]

theorem replaceTop_of_cons (v : Word) (hs : s.stack = w :: rest) (h : s.frame.stackBase < s.stack.length) :
    replaceTop v s = .ok { s with stack := v :: rest } := by
  rw [replaceTop_eq, if_pos (hasTop_of_lt h), hs, List.tail_cons]

theorem pop_underflow (h : s.stack.length ≤ s.frame.stackBase) : pop s = .error (.stack .evalUnderflow) := by
  rw [pop_eq, hasTop_of_le h]
  rfl

theorem peek_underflow (h : s.stack.length ≤ s.frame.stackBase) : peek s = .error (.stack .evalUnderflow) := by
  rw [peek_eq, hasTop_of_le h]
  rfl

theorem replaceTop_underflow (v : Word) (h : s.stack.length ≤ s.frame.stackBase) :
    replaceTop v s = .error (.stack .evalUnderflow) := by
  rw [replaceTop_eq, hasTop_of_le h]
  rfl

end Top

/-! ## The operation each kind of variable stands for (40_decode.md R152 to R155) -/

section Kinds

variable {n : Byte} {v : Word} {s : State}

theorem readVar_stack (h : n.toNat = 0) : readVar n s = pop s := if_pos h

theorem readVar_local (h1 : 1 ≤ n.toNat) (h15 : n.toNat ≤ 15) (hv : s.frame.locals[n.toNat - 1]? = some v) :
    readVar n s = .ok (v, s) := by
  rw [readVar, if_neg (by omega), if_pos h15]
  simp only [hv]

theorem readVar_badLocal (h1 : 1 ≤ n.toNat) (h15 : n.toNat ≤ 15) (hl : s.frame.locals.length < n.toNat) :
    readVar n s = .error (.stack (.badLocal n.toNat)) := by
  rw [readVar, if_neg (by omega), if_pos h15]
  simp only [List.getElem?_eq_none (show s.frame.locals.length ≤ n.toNat - 1 by omega)]

theorem readVar_global (h : 16 ≤ n.toNat) : readVar n s = (readWord (s.globalAddr n) s).map (·, s) := by
  rw [readVar, if_neg (by omega), if_neg (by omega)]

theorem readVar_global_ok (h : 16 ≤ n.toNat) (hl : s.globalAddr n + 1 < s.len) :
    readVar n s = .ok (s.mem.getWord (s.globalAddr n), s) := by
  rw [readVar_global h, readWord_ok hl]
  rfl

theorem readVar_global_out (h : 16 ≤ n.toNat) (hl : s.len ≤ s.globalAddr n + 1) :
    readVar n s = .error (.memory (.outOfBounds (s.globalAddr n))) := by
  rw [readVar_global h, readWord_error hl]
  rfl

theorem writeVar_stack (h : n.toNat = 0) : writeVar n v s = push v s := if_pos h

theorem writeVar_local (h1 : 1 ≤ n.toNat) (h15 : n.toNat ≤ 15) (hl : n.toNat ≤ s.frame.locals.length) :
    writeVar n v s = .ok (s.setLocal n v) := by
  rw [writeVar, if_neg (by omega), if_pos h15, if_pos hl]

theorem writeVar_badLocal (h1 : 1 ≤ n.toNat) (h15 : n.toNat ≤ 15) (hl : s.frame.locals.length < n.toNat) :
    writeVar n v s = .error (.stack (.badLocal n.toNat)) := by
  rw [writeVar, if_neg (by omega), if_pos h15, if_neg (by omega)]

theorem writeVar_global (h : 16 ≤ n.toNat) : writeVar n v s = writeWord (s.globalAddr n) v s := by
  rw [writeVar, if_neg (by omega), if_neg (by omega)]

theorem readVarInPlace_stack (h : n.toNat = 0) : readVarInPlace n s = peek s := if_pos h

theorem readVarInPlace_other (h : n.toNat ≠ 0) : readVarInPlace n s = (readVar n s).map Prod.fst := if_neg h

theorem writeVarInPlace_stack (h : n.toNat = 0) : writeVarInPlace n v s = replaceTop v s := if_pos h

theorem writeVarInPlace_other (h : n.toNat ≠ 0) : writeVarInPlace n v s = writeVar n v s := if_neg h

end Kinds

/-! ## Resolving a list of operands (40_decode.md R150) -/

theorem zextWord_toNat (b : Byte) : (zextWord b).toNat = b.toNat :=
  BitVec.toNat_setWidth_of_le (by decide)

theorem resolveAll_cons {o : Operand} {os : List Operand} {s t : State} {v : Word} (h : resolve o s = .ok (v, t)) :
    resolveAll (o :: os) s = (resolveAll os t).map fun r => (v :: r.1, r.2) := by
  rw [resolveAll, h, ok_bind]
  rfl

theorem resolveAll_cons_error {o : Operand} {s : State} {k : FaultKind} (os : List Operand) (h : resolve o s = .error k) :
    resolveAll (o :: os) s = .error k := by
  rw [resolveAll, h, error_bind]

/-- Two operands that name variable 0 pop twice, the first taking the top. -/
theorem resolveAll_pop_twice {x y : Word} {rest : List Word} {s : State} (hs : s.stack = x :: y :: rest)
    (hb : s.frame.stackBase ≤ rest.length) :
    resolveAll [.var 0, .var 0] s = .ok ([x, y], { s with stack := rest }) := by
  have first : resolve (.var 0) s = .ok (x, { s with stack := y :: rest }) :=
    pop_of_cons hs (by rw [hs, List.length_cons, List.length_cons]; omega)
  have second : resolve (.var 0) { s with stack := y :: rest } = .ok (y, { s with stack := rest }) :=
    pop_of_cons rfl (by rw [List.length_cons]; exact Nat.lt_succ_of_le hb)
  rw [resolveAll_cons first, resolveAll_cons second]
  rfl

/-! ## The four ways of a branch (40_decode.md R158 to R161) -/

section Ways

variable {i : Instr} {br : Branch} {cond : Bool} {s : State}

theorem branch_passed (hc : cond ≠ br.onTrue) : branch i br cond s = .ok (advance i s) := if_neg hc

theorem branch_false (hc : cond = br.onTrue) (h0 : br.offset.value = 0) : branch i br cond s = returnValue 0 s := by
  rw [branch, if_pos hc, if_pos h0]

theorem branch_true (hc : cond = br.onTrue) (h1 : br.offset.value = 1) : branch i br cond s = returnValue 1 s := by
  rw [branch, if_pos hc, if_neg (by omega), if_pos h1]

theorem branch_jump (hc : cond = br.onTrue) (h0 : br.offset.value ≠ 0) (h1 : br.offset.value ≠ 1) :
    branch i br cond s = jumpTo (branchTarget i br s) s := by
  rw [branch, if_pos hc, if_neg h0, if_neg h1, branchTarget]

end Ways

theorem jumpTo_negative {target : Int} {s : State} (h : target < 0) :
    jumpTo target s = .error (.memory (.outOfBounds target)) := if_pos h

end Sys2Proof.Machine

namespace Sys2Proof.Proofs

open Sys2Proof.Machine

/-- Settles O16: the clauses are those of `pop`, of the locals and of `readWord` at the global's address. -/
theorem readVariable : Obligations.ReadVariable := by
  intro n s a
  refine ⟨fun v rest h0 hs hb => ?popped, fun h0 hb => ?underflow, fun _ => readVar_local, readVar_badLocal,
    readVar_global_ok, readVar_global_out, fun _ _ => readVar_ok_iff⟩
  case popped => rw [readVar_stack h0, pop_of_cons hs hb]
  case underflow => rw [readVar_stack h0, pop_underflow hb]

/-- Settles O17: the clauses are those of `push`, of the locals and of `writeWord` at the global's address. -/
theorem writeVariable : Obligations.WriteVariable := by
  intro n v s hwf a
  refine ⟨fun h0 hl => ?pushed, fun h0 hl => ?overflow, writeVar_local, writeVar_badLocal, fun h16 hl => ?outside,
    fun h16 hl hs => ?static, fun h16 hl hs => ?global, fun _ => writeVar_ok_iff⟩
  case pushed => rw [writeVar_stack h0, push_eq, if_pos hl]
  case overflow => rw [writeVar_stack h0, push_eq, if_neg (by omega)]
  case outside => exact (writeVar_global h16).trans (writeWord_out hl)
  case static => exact (writeVar_global h16).trans (writeWord_static hl hs)
  case global =>
    have hw : writeVar n v s = .ok (s.setWord a v) := (writeVar_global h16).trans (writeWord_ok_iff.mpr ⟨hl, hs, rfl⟩)
    refine ⟨_, hw, rfl, State.getWord_setWord a v hwf, fun x hx hx' => ?_⟩
    rw [State.get_setWord a v x hwf, if_neg hx, if_neg hx']

/-- Settles O18: variable 0 is peeked at and replaced; any other variable is read and written by R152 and R153. -/
theorem inPlaceAccess : Obligations.InPlaceAccess := by
  intro n v s
  refine ⟨fun w rest h0 hs hb => ?top, fun h0 hb => ?underflow, fun h0 => ?other, fun _ => readVarInPlace_ok_iff,
    fun _ => writeVarInPlace_ok_iff⟩
  case top =>
    exact ⟨(readVarInPlace_stack h0).trans (peek_of_cons hs hb), (writeVarInPlace_stack h0).trans (replaceTop_of_cons v hs hb)⟩
  case underflow =>
    exact ⟨(readVarInPlace_stack h0).trans (peek_underflow hb), (writeVarInPlace_stack h0).trans (replaceTop_underflow v hb)⟩
  case other =>
    rw [readVarInPlace_other h0]
    refine ⟨writeVarInPlace_other h0, fun w t hr => ?_, fun k hr => ?_⟩ <;> rw [hr] <;> rfl

/-- Settles O19: the list's clauses are the two equations of `resolveAll` at its first operand. -/
theorem operandValues : Obligations.OperandValues := by
  refine ⟨fun _ _ => rfl, fun b _ => ⟨zextWord b, rfl, zextWord_toNat b⟩, fun _ _ => rfl,
    fun _ _ _ _ => resolveAll_pop_twice, fun o os s => ⟨?firstFault, ?laterFault, ?values⟩, fun _ _ _ _ => resolveAll_ok_iff⟩
  case firstFault => exact fun _ => resolveAll_cons_error os
  case laterFault => exact fun _ _ _ ho hos => by rw [resolveAll_cons ho, hos]; rfl
  case values => exact fun _ _ _ _ ho hos => by rw [resolveAll_cons ho, hos]; rfl

/-- Settles O20: the branch's four ways; a jump's target is accepted exactly when it is not negative (R161). -/
theorem branchRule : Obligations.BranchRule := by
  intro i br cond s k next
  have hk : k = br.offset.value := by
    simp only [k]
    cases br.offset <;> rfl
  rw [hk]
  refine ⟨branch_passed, branch_false, branch_true, fun hc h0 h1 target ht => ?jump, fun hc h0 h1 ht => ?negative,
    fun _ => branch_ok_iff⟩
  case jump =>
    have htarget : branchTarget i br s = target := ht
    rw [branch_jump hc h0 h1, htarget]
    exact jumpTo_ok_iff.mpr ⟨Int.natCast_nonneg target, rfl⟩
  case negative => exact (branch_jump hc h0 h1).trans (jumpTo_negative ht)

end Sys2Proof.Proofs
end

section
/-! PROOFS. The text engine and the print instructions (the statements O41 to O45). -/

namespace Sys2Proof.Machine

/-! ## Strings and abbreviations (41_text.md R180, R188, R192) -/

theorem Memory.stringAt_error {m : Memory} {len a n : Nat}
    (hk : ∀ k, k < n → a + 2 * k + 1 < len ∧ (m.getWord (a + 2 * k)).getLsbD 15 = false) (hl : len ≤ a + 2 * n + 1) :
    m.stringAt len a = .error (.memory (.outOfBounds (a + 2 * n : Nat))) :=
  Memory.stringFrom_error m len (by omega) hk hl

/-- The byte address of the string that entry `i` of the abbreviation table names (R188). -/
def abbrevAddr (s : State) (i : Nat) : Nat := 2 * (s.mem.getWord (s.hdr.abbrBase.toNat + 2 * i)).toNat

theorem abbreviation_outside {s : State} {i : Nat}
    (h : s.len ≤ s.hdr.abbrBase.toNat + 2 * i + 1 ∨ s.len ≤ abbrevAddr s i) :
    abbreviation s i = .error (.text (.abbrevOutOfRange i)) := by
  unfold abbreviation
  by_cases he : s.len ≤ s.hdr.abbrBase.toNat + 2 * i + 1
  · rw [if_pos he]
  · rw [if_neg he]
    exact if_pos (h.resolve_left he)

/-- An abbreviation inside the image is its string's text, decoded without abbreviations, or the string's fault. -/
theorem abbreviation_inside {s : State} {i : Nat} (he : s.hdr.abbrBase.toNat + 2 * i + 1 < s.len)
    (ha : abbrevAddr s i < s.len) :
    abbreviation s i =
      (s.mem.stringAt s.len (abbrevAddr s i) >>= fun ws => decodeChars none (abbrevAddr s i) .a0 (ws.flatMap zchars)) := by
  unfold abbreviation
  rw [if_neg (Nat.not_le.mpr he)]
  exact if_neg (Nat.not_le.mpr ha)

/-! ## Z-characters (R182 to R189) -/

/-! The alphabets' codes, in the order of the spec's table. -/

theorem alphabetCode_a0 : ∀ k, k < 26 →
    alphabetCode .a0 (BitVec.ofNat 5 (6 + k)) =
      ("abcdefghijklmnopqrstuvwxyz".toList.map fun c => BitVec.ofNat 10 c.toNat).getD k 0 := by
  decide

theorem alphabetCode_a1 : ∀ k, k < 26 →
    alphabetCode .a1 (BitVec.ofNat 5 (6 + k)) =
      ("ABCDEFGHIJKLMNOPQRSTUVWXYZ".toList.map fun c => BitVec.ofNat 10 c.toNat).getD k 0 := by
  decide

theorem alphabetCode_a2 : ∀ k, k < 25 →
    alphabetCode .a2 (BitVec.ofNat 5 (7 + k)) =
      ("\r0123456789.,!?_#'\"/\\-:()".toList.map fun c => BitVec.ofNat 10 c.toNat).getD k 0 := by
  decide

section Characters

variable {e : Option (Nat → Except FaultKind (List Zscii))} {f : Nat → Except FaultKind (List Zscii)} {start : Nat}
  {alpha : Alphabet} {zs : List ZChar}

/-- A Z-character 6 to 31 stands for its code in the current alphabet, except the escape (R183). -/
theorem decodeChars_tabled {n : Nat} (h6 : 6 ≤ n) (h31 : n ≤ 31) (h2 : alpha = .a2 → n ≠ 6) :
    decodeChars e start alpha (BitVec.ofNat 5 n :: zs) =
      (decodeChars e start .a0 zs).map (alphabetCode alpha (BitVec.ofNat 5 n) :: ·) := by
  have hn : (BitVec.ofNat 5 n).toNat = n := Nat.mod_eq_of_lt (by omega)
  refine decodeChars_code e start zs (by rwa [hn]) fun ha hz => h2 ha ?_
  rw [← hn, hz]
  rfl

/-- An escape takes its two Z-characters from its own string (R185). -/
theorem decodeChars_orphanedEscape (h : zs.length < 2) :
    decodeChars e start .a2 (6 :: zs) = .error (.text (.orphanedEscape start)) := by
  rw [decodeChars_cons, if_pos ⟨rfl, rfl⟩]
  match zs, h with
  | [], _ => rfl
  | [_], _ => rfl

variable {z : ZChar} (h1 : 1 ≤ z.toNat) (h3 : z.toNat ≤ 3)

include h1 h3

/-- A Z-character 1 to 3 is an abbreviation reference in every alphabet (R182): neither the escape nor a space. -/
theorem reference_ne : ¬ (alpha = .a2 ∧ z = 6) ∧ z ≠ 0 := by
  constructor
  · rintro ⟨-, rfl⟩
    exact absurd h3 (by decide)
  · rintro rfl
    exact absurd h1 (by decide)

theorem decodeChars_nestedAbbreviation :
    decodeChars none start alpha (z :: zs) = .error (.text (.nestedAbbreviation start)) := by
  obtain ⟨hescape, hspace⟩ := reference_ne (alpha := alpha) h1 h3
  rw [decodeChars_cons, if_neg hescape, if_neg hspace, if_pos h3]

theorem decodeChars_truncatedAbbreviation :
    decodeChars (some f) start alpha [z] = .error (.text (.truncatedAbbreviation start)) := by
  obtain ⟨hescape, hspace⟩ := reference_ne (alpha := alpha) h1 h3
  rw [decodeChars_cons, if_neg hescape, if_neg hspace, if_pos h3]

/-- The referenced text stands in place of the two Z-characters, and what follows starts from A0 (R187). -/
theorem decodeChars_abbreviation (x : ZChar) :
    decodeChars (some f) start alpha (z :: x :: zs) =
      (f (abbrevIndex z x) >>= fun cs => decodeChars (some f) start .a0 zs >>= fun ds => .ok (cs ++ ds)) := by
  obtain ⟨hescape, hspace⟩ := reference_ne (alpha := alpha) h1 h3
  rw [decodeChars_cons, if_neg hescape, if_neg hspace, if_pos h3]

end Characters

/-! ## Decimal numerals (R204) -/

/-- A 16-bit value has at most five decimal digits. -/
theorem natAbs_s16_lt (v : Word) : (s16 v).natAbs < 10 ^ (4 + 1) := by
  have hlow := BitVec.le_toInt v
  have hhigh := BitVec.toInt_lt (x := v)
  unfold s16
  omega

/-! ## Printing (R206 to R212, 42_objects.md R254) -/

/-- What `print_ret` does with the codes of its text (R207). -/
theorem emit_emitAll (cs : List Zscii) (s : State) :
    emit 13 (emitAll cs s) = { s with out := s.out ++ cs.filter (· ≠ 0) ++ [13] } := by
  rw [emitAll_eq]
  rfl

section PrintNext

variable {i : Instr} {text : Except FaultKind (List Zscii)} {s u : State}
  (h : exec i s = finish i.opbyte s (printNext i text u))

include h

/-- An instruction that ends by printing a text appends its codes other than 0 and goes on. -/
theorem exec_of_printNext_ok {cs : List Zscii} (ht : text = .ok cs) (hout : u.out = s.out) (hpc : u.pc = s.pc) :
    exec i s = .next { u with out := s.out ++ cs.filter (· ≠ 0), pc := s.pc + i.size } := by
  rw [h, ht, printNext, ok_bind, emitAll_eq, ← hout, ← hpc]
  rfl

theorem exec_of_printNext_error {k : FaultKind} (ht : text = .error k) :
    exec i s = .next (takeFault k (some i.opbyte) s) := by
  rw [h, ht]
  rfl

end PrintNext

/-- The text of an object's short name: none for a length byte of 0 (R254). -/
theorem nameText_eq {o : Nat} {t : State} (h : propTableReadable t o = true) :
    nameText o t = if t.mem.get (propTableOf t o) = 0 then .ok [] else decodeZString t (propTableOf t o + 1) := by
  simp only [propTableReadable, Bool.and_eq_true, decide_eq_true_eq] at h
  obtain ⟨hentry, htable⟩ := h
  have table : propTable o t = .ok (propTableOf t o) := by
    rw [propTable, readWord_ok (by omega)]
    rfl
  rw [nameText, table, ok_bind, readByte_ok htable, ok_bind]

section Operand

variable {a : Operand} {s : State} (hr : opReadable a s = true)

include hr

theorem exec_printAddr :
    exec (.printAddr a) s =
      finish (Instr.printAddr a).opbyte s
        (printNext (.printAddr a) (decodeZString (opAfter a s) (opValue a s).toNat) (opAfter a s)) := by
  show execPrintAddr a s = _
  rw [execPrintAddr, with1_ok _ hr]

theorem exec_printPaddr :
    exec (.printPaddr a) s =
      finish (Instr.printPaddr a).opbyte s
        (printNext (.printPaddr a) (decodeZString (opAfter a s) (2 * (opValue a s).toNat)) (opAfter a s)) := by
  show execPrintPaddr a s = _
  rw [execPrintPaddr, with1_ok _ hr]

theorem exec_printNum :
    exec (.printNum a) s =
      finish (Instr.printNum a).opbyte s (printNext (.printNum a) (.ok (decimalDigits (opValue a s))) (opAfter a s)) := by
  show execPrintNum a s = _
  rw [execPrintNum, with1_ok _ hr]

/-- `print_obj` of a valid object prints its short name. -/
theorem exec_printObj (hx : 1 ≤ (opValue a s).toNat) (hx' : (opValue a s).toNat ≤ 255)
    (ht : propTableReadable s (opValue a s).toNat = true) :
    exec (.printObj a) s =
      finish (Instr.printObj a).opbyte s
        (printNext (.printObj a)
          (if s.mem.get (propTableOf s (opValue a s).toNat) = 0 then .ok []
            else decodeZString (opAfter a s) (propTableOf s (opValue a s).toNat + 1))
          (opAfter a s)) := by
  have table : propTableOf (opAfter a s) (opValue a s).toNat = propTableOf s (opValue a s).toNat := by simp [propTableOf]
  have readable : propTableReadable (opAfter a s) (opValue a s).toNat = true :=
    (propTableReadable_opsAfter [a] s (opValue a s).toNat).trans ht
  show execPrintObj a s = _
  rw [execPrintObj, with1_ok _ hr, checkObj_ok hx hx', ok_bind, nameText_eq readable, table, opAfter_mem]

/-- `print_char` prints the one code of its operand. -/
theorem exec_printChar (hx : (opValue a s).toNat ≤ 1023) :
    exec (.printChar a) s =
      finish (Instr.printChar a).opbyte s
        (printNext (.printChar a) (.ok [BitVec.ofNat 10 (opValue a s).toNat]) (opAfter a s)) := by
  show execPrintChar a s = _
  rw [execPrintChar, with1_ok _ hr, if_neg (Nat.not_lt.mpr hx), BitVec.ofNat_toNat]
  rfl

theorem exec_printChar_bad (hx : 1023 < (opValue a s).toNat) :
    exec (.printChar a) s =
      .next (takeFault (.text (.badCharacter (opValue a s).toNat)) (some (Instr.printChar a).opbyte) s) := by
  show execPrintChar a s = _
  rw [execPrintChar, with1_ok _ hr, if_pos hx]
  rfl

end Operand

section Inline

variable {text : List Word} {s : State}

theorem exec_print :
    exec (.print text) s =
      finish (Instr.print text).opbyte s (printNext (.print text) (decodeWords s (s.pc + 1) text) s) := rfl

theorem exec_printRet_ok {cs : List Zscii} (ht : decodeWords s (s.pc + 1) text = .ok cs)
    (hret : returnable { s with out := s.out ++ cs.filter (· ≠ 0) ++ [13] } = true) :
    exec (.printRet text) s = .next (afterReturn 1 { s with out := s.out ++ cs.filter (· ≠ 0) ++ [13] }) := by
  show execPrintRet text s = _
  rw [execPrintRet, with0_eq, ht, ok_bind, emit_emitAll, returnValue_ok hret]
  rfl

theorem exec_printRet_error {k : FaultKind} (ht : decodeWords s (s.pc + 1) text = .error k) :
    exec (.printRet text) s = .next (takeFault k (some (Instr.printRet text).opbyte) s) := by
  show execPrintRet text s = _
  rw [execPrintRet, with0_eq, ht]
  rfl

theorem exec_newLine :
    exec .newLine s = finish Instr.newLine.opbyte s (printNext .newLine (.ok [13]) s) := rfl

end Inline

end Sys2Proof.Machine

namespace Sys2Proof.Proofs

open Sys2Proof.Machine

/-- Settles O41: a string's walk ends at its first end bit or at the image end; an abbreviation and a text are the decoding
of such a walk. -/
theorem stringsAndAbbreviations : Obligations.StringsAndAbbreviations := by
  refine ⟨fun m len a ws => ⟨Memory.stringAt_ok_iff, fun n => Memory.stringAt_error⟩, fun s i => ?abbreviations,
    fun s a => ⟨fun ws => rfl, fun ws hws => ?text, fun k hk => ?fault⟩⟩
  case abbreviations =>
    refine ⟨abbreviation_outside, fun he ha ws hws => ?_, fun he ha k hk => ?_⟩
    · rw [abbreviation_inside he ha, abbrevAddr, hws]
      rfl
    · rw [abbreviation_inside he ha, abbrevAddr, hk]
      rfl
  case text =>
    rw [decodeZString, hws]
    rfl
  case fault =>
    rw [decodeZString, hk]
    rfl

/-- Settles O42: one clause for each branch of the decoder's turn; the alphabets' codes are those of the spec's tables. -/
theorem textRules : Obligations.TextRules := by
  intro e start alpha zs code
  refine ⟨decodeChars_nil e start alpha, fun k hk => ⟨?lower, ?upper⟩, fun k hk => ?punctuation,
    decodeChars_space e start alpha zs, decodeChars_shift1 e start alpha zs, decodeChars_shift2 e start alpha zs,
    fun hi lo => ⟨hi ++ lo, escape_toNat hi lo, decodeChars_escape e start hi lo zs⟩, decodeChars_orphanedEscape,
    fun z h1 h3 => ⟨decodeChars_nestedAbbreviation h1 h3, fun f => ⟨decodeChars_truncatedAbbreviation h1 h3,
      fun x cs ds hcs hds => ?reference⟩⟩⟩
  case lower =>
    rw [decodeChars_tabled (by omega) (by omega) (by simp), alphabetCode_a0 k hk]
  case upper =>
    rw [decodeChars_tabled (by omega) (by omega) (by simp), alphabetCode_a1 k hk]
  case punctuation =>
    rw [decodeChars_tabled (by omega) (by omega) (fun _ => by omega), alphabetCode_a2 k hk]
  case reference =>
    rw [decodeChars_abbreviation h1 h3, abbrevIndex, hcs, ok_bind, hds, ok_bind]

/-- Settles O43, by induction on the text: what one code encodes to decodes to that code. -/
theorem textRoundTrip : Obligations.TextRoundTrip := by
  intro e start cs
  induction cs with
  | nil => exact decodeChars_nil e start .a0
  | cons c cs ih =>
    rw [List.flatMap_cons, decodeChars_encodeChar, ih]
    rfl

/-- Settles O44: the magnitude has at most five digits, so `decimalOf_spec` gives its numeral. -/
theorem decimalNumerals : Obligations.DecimalNumerals := by
  intro v
  obtain ⟨digits, hcodes, hnumeral⟩ := decimalOf_spec 4 (natAbs_s16_lt v)
  exact ⟨digits, congrArg (_ ++ ·) hcodes, hnumeral⟩

/-- Settles O45: each instruction ends by printing its text (`printNext`), which appends its codes or takes its fault. -/
theorem printInstructions : Obligations.PrintInstructions := by
  intro a text s x u prints stops name
  have hout : u.out = s.out := opAfter_out a s
  have hpc : u.pc = s.pc := opAfter_pc a s
  refine ⟨fun cs hcs => ⟨exec_of_printNext_ok exec_print hcs rfl rfl, exec_printRet_ok hcs⟩,
    fun k hk => ⟨exec_of_printNext_error exec_print hk, exec_printRet_error hk⟩, fun hr => ?operand,
    exec_of_printNext_ok exec_newLine rfl rfl rfl⟩
  refine ⟨fun cs hcs => exec_of_printNext_ok (exec_printAddr hr) hcs hout hpc,
    fun k hk => exec_of_printNext_error (exec_printAddr hr) hk,
    fun cs hcs => exec_of_printNext_ok (exec_printPaddr hr) hcs hout hpc,
    fun k hk => exec_of_printNext_error (exec_printPaddr hr) hk, fun hx hx' ht => ?object,
    fun hx => exec_of_printNext_ok (exec_printChar hr hx) rfl hout hpc, exec_printChar_bad hr,
    exec_of_printNext_ok (exec_printNum hr) rfl hout hpc⟩
  have hobj := exec_printObj hr hx hx' ht
  exact ⟨fun h0 => exec_of_printNext_ok hobj (if_pos h0) hout hpc,
    fun h0 cs hcs => exec_of_printNext_ok hobj ((if_neg h0).trans hcs) hout hpc,
    fun h0 k hk => exec_of_printNext_error hobj ((if_neg h0).trans hk)⟩

end Sys2Proof.Proofs
end

section
/-! PROOFS. The object instructions: checks, links, attributes, properties and tree updates (the statements O33 to O36 and
O38 to O40). -/

namespace Sys2Proof.Machine

/-! ## How an instruction ends (40_decode.md R163) -/

/-- A sequence ends with its first operation's fault. -/
theorem bind_of_error {α β : Type} {x : Except FaultKind α} {f : α → Except FaultKind β} {k : FaultKind}
    (h : x = .error k) : (x >>= f) = .error k := by
  rw [h, error_bind]

/-- The two ways the meanings write "then advance". -/
theorem bind_advance (i : Instr) (r : Except FaultKind State) : (r >>= fun t => .ok (advance i t)) = r.map (advance i) := by
  cases r <;> rfl

section Endings

variable {i : Instr} {s u t : State} {r : Except FaultKind State} {k : FaultKind}

theorem exec_of_error (he : exec i s = finish i.opbyte s r) (hr : r = .error k) :
    exec i s = .next (takeFault k (some i.opbyte) s) := by
  rw [he, hr]
  rfl

/-- An instruction that ends with a branch that can be taken. -/
theorem finish_branch {br : Branch} {c : Bool} (hb : branchable i br c u = true) :
    finish i.opbyte s (branch i br c u) = .next (afterBranch i br c u) := by
  rw [branch_ok hb]
  rfl

/-- An instruction that stores, then branches. -/
theorem finish_storeBranch {st : Byte} {v : Word} {br : Branch} {c : Bool} (hw : varWritable st u = true)
    (hb : branchable i br c (withVar st v u) = true) :
    finish i.opbyte s (storeBranch i st v br c u) = .next (afterBranch i br c (withVar st v u)) := by
  rw [storeBranch_ok_iff.mpr ⟨hw, hb, rfl⟩]
  rfl

/-! An instruction whose operation on memory, `r`, is followed by the default advance. -/

section Advance

variable (he : exec i s = finish i.opbyte s (r.map (advance i)))

include he

theorem exec_of_map_ok (hr : r = .ok t) : exec i s = .next (advance i t) := by
  rw [he, hr]
  rfl

theorem exec_of_map_error (hr : r = .error k) : exec i s = .next (takeFault k (some i.opbyte) s) :=
  exec_of_error he (by rw [hr]; rfl)

end Advance

variable {a : Nat} (hm : u.mem.wf) (hpc : u.pc = s.pc)

include hm hpc

theorem exec_writeByte_ok {b : Byte} (he : exec i s = finish i.opbyte s ((writeByte a b u).map (advance i)))
    (hl : a < u.len) (hs : a < u.hdr.staticBase.toNat) :
    ∃ t, exec i s = .next t ∧ t = { u with mem := t.mem, pc := s.pc + i.size } ∧
      ∀ x, t.mem.get x = if x = a then b else u.mem.get x := by
  refine ⟨_, exec_of_map_ok he (writeByte_ok_iff.mpr ⟨hl, hs, rfl⟩), ?_, fun x => Memory.get_set a b x hm⟩
  rw [← hpc]
  rfl

theorem exec_writeWord_ok {v : Word} (he : exec i s = finish i.opbyte s ((writeWord a v u).map (advance i)))
    (hl : a + 1 < u.len) (hs : a + 1 < u.hdr.staticBase.toNat) :
    ∃ t, exec i s = .next t ∧ t = { u with mem := t.mem, pc := s.pc + i.size } ∧ ∀ x,
      (t.mem.get x).toNat = if x = a then v.toNat / 256 else if x = a + 1 then v.toNat % 256 else (u.mem.get x).toNat := by
  refine ⟨_, exec_of_map_ok he (writeWord_ok_iff.mpr ⟨hl, hs, rfl⟩), ?_, fun x => Memory.get_set_word a v x hm⟩
  rw [← hpc]
  rfl

end Endings

/-! ## The object is checked before anything else (42_objects.md R228) -/

section Checked

variable {i : Instr} {o n : Operand} {s : State} {k : FaultKind}

theorem exec_badObject {x : Word} {next : Nat → Except FaultKind State}
    (he : exec i s = finish i.opbyte s (checkObj x >>= next)) (hx : x.toNat = 0 ∨ 255 < x.toNat) :
    exec i s = .next (takeFault (.object (.badObject x.toNat)) (some i.opbyte) s) :=
  exec_of_error he (bind_of_error (checkObj_bad hx))

theorem exec_goodObject {x : Word} {next : Nat → Except FaultKind State}
    (he : exec i s = finish i.opbyte s (checkObj x >>= next)) (h1 : 1 ≤ x.toNat) (h2 : x.toNat ≤ 255) :
    exec i s = finish i.opbyte s (next x.toNat) := by
  rw [he, checkObj_ok h1 h2, ok_bind]

theorem exec_badObject_one {next : Nat → State → Except FaultKind State}
    (he : exec i s = with1 i o s fun x t => checkObj x >>= (next · t)) (hr : opReadable o s = true)
    (hx : (opValue o s).toNat = 0 ∨ 255 < (opValue o s).toNat) :
    exec i s = .next (takeFault (.object (.badObject (opValue o s).toNat)) (some i.opbyte) s) :=
  exec_badObject (he.trans (with1_ok _ hr)) hx

section Two

variable {next : Nat → Word → State → Except FaultKind State}
  (he : exec i s = with2 i o n s fun x y t => checkObj x >>= (next · y t)) (hr : opsReadable [o, n] s = true)

include he hr

theorem exec_badObject_two (hx : (opValue o s).toNat = 0 ∨ 255 < (opValue o s).toNat) :
    exec i s = .next (takeFault (.object (.badObject (opValue o s).toNat)) (some i.opbyte) s) :=
  exec_badObject (he.trans (with2_ok _ hr)) hx

/-- With a valid object, the second operand's fault is taken. -/
theorem exec_badSecond (h1 : 1 ≤ (opValue o s).toNat) (h2 : (opValue o s).toNat ≤ 255)
    (hk : next (opValue o s).toNat (opValue n (opAfter o s)) (opsAfter [o, n] s) = .error k) :
    exec i s = .next (takeFault k (some i.opbyte) s) :=
  exec_of_error (exec_goodObject (he.trans (with2_ok _ hr)) h1 h2) hk

end Two

end Checked

/-! ## Links (R221, R223, R240 to R243) -/

/-- The link byte of a working copy whose operands are resolved. -/
theorem readLink_opsAfter {k x : Nat} {os : List Operand} {s : State} (h : s.entryAddr x + k < s.len) :
    readLink k x (opsAfter os s) = .ok (linkOf k x s) := by
  rw [readLink_ok (by simpa using h), linkOf_opsAfter]

theorem readLink_opAfter {k x : Nat} {o : Operand} {s : State} (h : s.entryAddr x + k < s.len) :
    readLink k x (opAfter o s) = .ok (linkOf k x s) := readLink_opsAfter (os := [o]) h

/-- The word that is stored for a link. -/
theorem ofNat_linkOf (k x : Nat) (s : State) :
    BitVec.ofNat 16 (linkOf k x s) = (s.mem.get (s.entryAddr x + k)).setWidth 16 := BitVec.ofNat_toNat _ _

theorem toNat_ofNat_linkOf (k x : Nat) (s : State) : (BitVec.ofNat 16 (linkOf k x s)).toNat = linkOf k x s := by
  have := linkOf_le k x s
  rw [BitVec.toNat_ofNat, Nat.mod_eq_of_lt (by omega)]

/-- A link names an object exactly when its stored word is not 0. -/
theorem linkOf_bne_zero {c : Bool} {k x : Nat} {s : State} (hc : c = true ↔ BitVec.ofNat 16 (linkOf k x s) ≠ 0) :
    (linkOf k x s != 0) = c := by
  rw [Bool.eq_iff_iff, hc, bne_iff_ne, ne_eq, ne_eq, ← BitVec.toNat_inj, toNat_ofNat_linkOf]
  rfl

section Links

variable {f : TwoOp} {o b : Operand} {st : Byte} {br : Branch} {s : State} {x : Nat} (hx : x = (opValue o s).toNat)
  (h1 : 1 ≤ x) (h2 : x ≤ 255) (hl : s.entryAddr x + 6 < s.len)

include hx h1 h2 hl

theorem exec_getParent (hr : opReadable o s = true) :
    exec (.getParent o st) s =
      finish (Instr.getParent o st).opbyte s
        (storeNext (.getParent o st) st (BitVec.ofNat 16 (linkOf 4 x s)) (opAfter o s)) := by
  subst hx
  show execGetParent o st s = _
  rw [execGetParent, with1_ok _ hr, checkObj_ok h1 h2, ok_bind, parentOf, readLink_opAfter (by omega), ok_bind]

theorem exec_getSibling (hr : opReadable o s = true) :
    exec (.getSibling o st br) s =
      finish (Instr.getSibling o st br).opbyte s
        (storeBranch (.getSibling o st br) st (BitVec.ofNat 16 (linkOf 5 x s)) br (linkOf 5 x s != 0)
          (opAfter o s)) := by
  subst hx
  show execGetSibling o st br s = _
  rw [execGetSibling, with1_ok _ hr, checkObj_ok h1 h2, ok_bind, siblingOf, readLink_opAfter (by omega), ok_bind]

theorem exec_getChild (hr : opReadable o s = true) :
    exec (.getChild o st br) s =
      finish (Instr.getChild o st br).opbyte s
        (storeBranch (.getChild o st br) st (BitVec.ofNat 16 (linkOf 6 x s)) br (linkOf 6 x s != 0) (opAfter o s)) := by
  subst hx
  show execGetChild o st br s = _
  rw [execGetChild, with1_ok _ hr, checkObj_ok h1 h2, ok_bind, childOf, readLink_opAfter (by omega), ok_bind]

theorem exec_jin (hr : opsReadable [o, b] s = true) (hy : (opValue b (opAfter o s)).toNat ≤ 255) :
    exec (.jin f o b br) s =
      finish (Instr.jin f o b br).opbyte s
        (branch (.jin f o b br) br (linkOf 4 x s == (opValue b (opAfter o s)).toNat) (opsAfter [o, b] s)) := by
  subst hx
  show execJin f o b br s = _
  rw [execJin, with2_ok _ hr, checkObj_ok h1 h2, ok_bind, if_neg (by omega), parentOf, readLink_opsAfter (by omega),
    ok_bind]

end Links

/-! ## Attributes (R222, R244 to R246) -/

/-- Resolving operands moves no entry. -/
@[simp] theorem attrAddr_opsAfter (x y : Nat) (os : List Operand) (s : State) :
    (opsAfter os s).attrAddr x y = s.attrAddr x y := by
  simp [State.attrAddr]

section Attributes

variable {f : TwoOp} {o n : Operand} {br : Branch} {s : State} {x y : Nat} (hx : x = (opValue o s).toNat)
  (hy : y = (opValue n (opAfter o s)).toNat) (hr : opsReadable [o, n] s = true) (h1 : 1 ≤ x) (h2 : x ≤ 255) (h3 : y ≤ 31)
  (hl : s.attrAddr x y < s.len)

include hx hy hr h1 h2 h3 hl

theorem exec_testAttr :
    exec (.testAttr f o n br) s =
      finish (Instr.testAttr f o n br).opbyte s
        (branch (.testAttr f o n br) br ((s.mem.get (s.attrAddr x y)).getLsbD (7 - y % 8)) (opsAfter [o, n] s)) := by
  subst hx hy
  show execTestAttr f o n br s = _
  rw [execTestAttr, with2_ok _ hr, checkObj_ok h1 h2, ok_bind, checkAttr_ok h3, ok_bind, readByte_ok (by simpa using hl),
    ok_bind, attrAddr_opsAfter, opsAfter_mem]

theorem exec_setAttr :
    exec (.setAttr f o n) s =
      finish (Instr.setAttr f o n).opbyte s
        ((writeByte (s.attrAddr x y) (s.mem.get (s.attrAddr x y) ||| attrMask y) (opsAfter [o, n] s)).map
          (advance (.setAttr f o n))) := by
  subst hx hy
  show execSetAttr f o n s = _
  rw [execSetAttr, with2_ok _ hr, checkObj_ok h1 h2, ok_bind, checkAttr_ok h3, ok_bind, readByte_ok (by simpa using hl),
    ok_bind, attrAddr_opsAfter, opsAfter_mem]

theorem exec_clearAttr :
    exec (.clearAttr f o n) s =
      finish (Instr.clearAttr f o n).opbyte s
        ((writeByte (s.attrAddr x y) (s.mem.get (s.attrAddr x y) &&& ~~~ attrMask y) (opsAfter [o, n] s)).map
          (advance (.clearAttr f o n))) := by
  subst hx hy
  show execClearAttr f o n s = _
  rw [execClearAttr, with2_ok _ hr, checkObj_ok h1 h2, ok_bind, checkAttr_ok h3, ok_bind, readByte_ok (by simpa using hl),
    ok_bind, attrAddr_opsAfter, opsAfter_mem]

end Attributes

theorem getLsbD_or_attrMask (b : Byte) (n : Nat) {k : Nat} (hk : k < 8) :
    (b ||| attrMask n).getLsbD k = (decide (k = 7 - n % 8) || b.getLsbD k) := by
  rw [BitVec.getLsbD_or, attrMask_bit n k hk, Bool.or_comm]

theorem getLsbD_and_not_attrMask (b : Byte) (n : Nat) {k : Nat} (hk : k < 8) :
    (b &&& ~~~ attrMask n).getLsbD k = (!decide (k = 7 - n % 8) && b.getLsbD k) := by
  rw [BitVec.getLsbD_and, BitVec.getLsbD_not, attrMask_bit n k hk, decide_eq_true hk, Bool.true_and, Bool.and_comm]

/-! ## Writing a property (R251) -/

section SetProp

variable {o p a : Nat} {v : Word} {t : State}

theorem setProp_absent (hf : findProp o p t = .ok none) :
    setProp o p v t = .error (.object (.missingProperty o p)) := by
  rw [setProp, hf]
  rfl

theorem setProp_byte (hf : findProp o p t = .ok (some ⟨a, 1⟩)) : setProp o p v t = writeByte a (loByte v) t := by
  rw [setProp, hf]
  rfl

theorem setProp_word (hf : findProp o p t = .ok (some ⟨a, 2⟩)) : setProp o p v t = writeWord a v t := by
  rw [setProp, hf]
  rfl

theorem setProp_long {k : Nat} (hf : findProp o p t = .ok (some ⟨a, k⟩)) (hk : 3 ≤ k) :
    setProp o p v t = .error (.object (.propertyTooLong o p)) := by
  rw [setProp, hf, ok_bind]
  simp only
  rw [if_neg (by omega), if_neg (by omega)]

end SetProp

/-- `put_prop` of a valid object and property sets the property, or takes its fault. -/
theorem exec_putProp {o p v : Operand} {s : State} (hr : opsReadable [o, p, v] s = true)
    (h1 : 1 ≤ (opValue o s).toNat) (h2 : (opValue o s).toNat ≤ 255) (hy : 1 ≤ (opValue p (opAfter o s)).toNat)
    (hy' : (opValue p (opAfter o s)).toNat ≤ 31) :
    exec (.putProp o p v) s =
      finish (Instr.putProp o p v).opbyte s
        ((setProp (opValue o s).toNat (opValue p (opAfter o s)).toNat (opValue v (opAfter p (opAfter o s)))
          (opsAfter [o, p, v] s)).map (advance (.putProp o p v))) := by
  show execPutProp o p v s = _
  rw [execPutProp, with3_ok _ hr, checkObj_ok h1 h2, ok_bind, checkProp_ok hy hy', ok_bind, bind_advance]

/-! ## Moving objects (R232, R233, R252, R253) -/

section Moving

variable {s : State} {x y : Nat} (h1 : 1 ≤ x) (h2 : x ≤ 255)

include h1 h2

/-- Detaching an object closes its parent's chain over it; one without a parent is in no chain. -/
theorem detach_chain {before : List Nat} (hm : s.mem.wf) (h : objectsWritable s = true)
    (hb : chainBefore x before s = true) :
    ∃ t, detach x s = .ok t ∧ OnlyLinks s t ∧ (∀ k, 1 ≤ k → k ≠ x → linkOf 4 k t = linkOf 4 k s) ∧
      (∀ k, 1 ≤ k → k ≠ x → linkOf 5 k t = if before.getLast? = some k then linkOf 5 x s else linkOf 5 k s) ∧
      ∀ k, 1 ≤ k → linkOf 6 k t = if k = linkOf 4 x s ∧ linkOf 6 k s = x then linkOf 5 x s else linkOf 6 k s := by
  by_cases hp : linkOf 4 x s = 0
  · rw [chainBefore, if_pos (.inl hp), List.isEmpty_iff] at hb
    subst hb
    refine ⟨s, detach_none h h1 h2 hp, .refl hm h, fun k _ _ => rfl, fun k _ _ => by simp, fun k hk => ?_⟩
    rw [if_neg (by omega)]
  · obtain ⟨t, ht, ho, -, -, l4, l5, l6⟩ := detach_ok hm h h1 h2 hp hb
    refine ⟨t, ht, ho, l4, l5, fun k hk => (l6 k hk).trans (if_congr ?_ rfl rfl)⟩
    exact and_congr_right fun hk => by rw [hk]

/-- The links after an object, detached, becomes the first child of another. -/
theorem attach_of_detach {d : State} (hd : detach x s = .ok d) (ho : OnlyLinks s d) (h3 : 1 ≤ y) (h4 : y ≤ 255) :
    ∃ t, attach x y s = .ok t ∧ OnlyLinks s t ∧ linkOf 4 x t = y ∧ linkOf 5 x t = linkOf 6 y d ∧ linkOf 6 y t = x ∧
      ∀ j q, 1 ≤ q → j ≤ 8 → ¬ (q = y ∧ j = 6 ∨ q = x ∧ (j = 4 ∨ j = 5)) → linkOf j q t = linkOf j q d := by
  obtain ⟨u, hu, hou, lu⟩ := ho.write (k := 4) h1 h2 (by omega) h4
  have child : linkOf 6 y u = linkOf 6 y d := by rw [lu 6 y h3 (by omega), if_neg (by omega)]
  obtain ⟨v, hv, hov, lv⟩ := hou.write (k := 5) h1 h2 (by omega) (linkOf_le 6 y d)
  obtain ⟨t, ht, hot, lt⟩ := hov.write (k := 6) h3 h4 (by omega) h2
  refine ⟨t, ?_, hot, ?_, ?_, ?_, fun j q hq hj hne => ?_⟩
  · rw [attach, hd, ok_bind, setParent, hu, ok_bind, childOf, hou.read h3 h4 (by omega), ok_bind, child, setSibling, hv,
      ok_bind, setChild, ht]
  · rw [lt 4 x h1 (by omega), if_neg (by omega), lv 4 x h1 (by omega), if_neg (by omega), lu 4 x h1 (by omega),
      if_pos ⟨rfl, rfl⟩]
  · rw [lt 5 x h1 (by omega), if_neg (by omega), lv 5 x h1 (by omega), if_pos ⟨rfl, rfl⟩]
  · rw [lt 6 y h3 (by omega), if_pos ⟨rfl, rfl⟩]
  · rw [lt j q hq hj, if_neg (by omega), lv j q hq hj, if_neg (by omega), lu j q hq hj, if_neg (by omega)]

end Moving

theorem exec_removeObj {o : Operand} {s : State} (hr : opReadable o s = true) (h1 : 1 ≤ (opValue o s).toNat)
    (h2 : (opValue o s).toNat ≤ 255) :
    exec (.removeObj o) s =
      finish (Instr.removeObj o).opbyte s ((detach (opValue o s).toNat (opAfter o s)).map (advance (.removeObj o))) := by
  show execRemoveObj o s = _
  rw [execRemoveObj, with1_ok _ hr, checkObj_ok h1 h2, ok_bind, bind_advance]

section InsertObj

variable {f : TwoOp} {o d : Operand} {s : State} {x y : Nat} (hx : x = (opValue o s).toNat)
  (hy : y = (opValue d (opAfter o s)).toNat) (hr : opsReadable [o, d] s = true) (h1 : 1 ≤ x) (h2 : x ≤ 255) (h3 : 1 ≤ y)
  (h4 : y ≤ 255)

include hx hy hr h1 h2 h3 h4

theorem exec_insertObj (hd : descends y x (opsAfter [o, d] s) = .ok false) :
    exec (.insertObj f o d) s =
      finish (Instr.insertObj f o d).opbyte s ((attach x y (opsAfter [o, d] s)).map (advance (.insertObj f o d))) := by
  subst hx hy
  show execInsertObj f o d s = _
  rw [execInsertObj, with2_ok _ hr, checkObj_ok h1 h2, ok_bind, checkObj_ok h3 h4, ok_bind, hd, ok_bind, if_neg (by decide),
    bind_advance]

theorem exec_insertObj_cycle (hd : descends y x (opsAfter [o, d] s) = .ok true) :
    exec (.insertObj f o d) s = .next (takeFault (.object (.treeCycle x y)) (some (Instr.insertObj f o d).opbyte) s) := by
  subst hx hy
  show execInsertObj f o d s = _
  rw [execInsertObj, with2_ok _ hr, checkObj_ok h1 h2, ok_bind, checkObj_ok h3 h4, ok_bind, hd, ok_bind, if_pos rfl]
  rfl

end InsertObj

/-- A path up the tree from an object holds that object. -/
theorem mem_of_parentPath {s : State} {y : Nat} {xs : List Nat} (hy : 1 ≤ y) (h : parentPath s 0 y xs = true) : y ∈ xs := by
  cases xs with
  | nil =>
    simp only [parentPath, decide_eq_true_eq] at h
    omega
  | cons z zs =>
    simp only [parentPath, Bool.and_eq_true, decide_eq_true_eq] at h
    obtain ⟨⟨⟨rfl, -⟩, -⟩, -⟩ := h
    exact List.mem_cons_self

end Sys2Proof.Machine

namespace Sys2Proof.Proofs

open Sys2Proof.Machine

/-- Settles O33: each instruction checks its object before anything else, then its second number. -/
theorem objectChecks : Obligations.ObjectChecks := by
  intro f o n v st br s x y bad
  refine ⟨fun hr hx => ?object, fun hr hx => ?objectOfTwo, fun hr hx => ?objectOfThree, fun hr h1 h2 hy => ?attr,
    fun hr h1 h2 hy => ?prop, fun hr h1 h2 hy => ?propOfThree, fun hr h1 h2 hy => ?jin, fun hr h1 h2 hy => ?insertObj⟩
  case object =>
    exact ⟨exec_badObject_one (execGetParent.eq_def ..) hr hx, exec_badObject_one (execGetSibling.eq_def ..) hr hx,
      exec_badObject_one (execGetChild.eq_def ..) hr hx, exec_badObject_one (execRemoveObj.eq_def ..) hr hx,
      exec_badObject_one (execPrintObj.eq_def ..) hr hx⟩
  case objectOfTwo =>
    exact ⟨exec_badObject_two (execJin.eq_def ..) hr hx, exec_badObject_two (execTestAttr.eq_def ..) hr hx,
      exec_badObject_two (execSetAttr.eq_def ..) hr hx, exec_badObject_two (execClearAttr.eq_def ..) hr hx,
      exec_badObject_two (execInsertObj.eq_def ..) hr hx, exec_badObject_two (execGetProp.eq_def ..) hr hx,
      exec_badObject_two (execGetPropAddr.eq_def ..) hr hx, exec_badObject_two (execGetNextProp.eq_def ..) hr hx⟩
  case objectOfThree => exact exec_badObject ((execPutProp.eq_def ..).trans (with3_ok _ hr)) hx
  case attr =>
    have attr {next : Nat → Except FaultKind State} := bind_of_error (f := next) (checkAttr_bad hy)
    exact ⟨exec_badSecond (execTestAttr.eq_def ..) hr h1 h2 attr, exec_badSecond (execSetAttr.eq_def ..) hr h1 h2 attr,
      exec_badSecond (execClearAttr.eq_def ..) hr h1 h2 attr,
      exec_badSecond (execGetNextProp.eq_def ..) hr h1 h2 (if_pos hy)⟩
  case prop =>
    have prop {next : Nat → Except FaultKind State} := bind_of_error (f := next) (checkProp_bad hy)
    exact ⟨exec_badSecond (execGetProp.eq_def ..) hr h1 h2 prop, exec_badSecond (execGetPropAddr.eq_def ..) hr h1 h2 prop⟩
  case propOfThree =>
    have good := exec_goodObject (i := .putProp o n v) ((execPutProp.eq_def ..).trans (with3_ok _ hr)) h1 h2
    exact exec_of_error good (bind_of_error (checkProp_bad hy))
  case jin => exact exec_badSecond (execJin.eq_def ..) hr h1 h2 (if_pos hy)
  case insertObj => exact exec_badSecond (execInsertObj.eq_def ..) hr h1 h2 (bind_of_error (checkObj_bad hy))

/-- Settles O34: each instruction reads one link (`readLink_opsAfter`) and ends by storing it, branching on it, or both. -/
theorem objectLinks : Obligations.ObjectLinks := by
  intro f o b st br s hr x u entry link y h1 h2 hl
  have hlink (k : Nat) : link k = BitVec.ofNat 16 (linkOf k x s) := (ofNat_linkOf k x s).symm
  simp only [hlink]
  refine ⟨fun hw => ?parent, fun hw c hc hb => ?sibling, fun hw c hc hb => ?child, fun hrb hy c hc hb => ?jin⟩
  case parent => rw [exec_getParent rfl h1 h2 hl hr, finish_storeNext hw (opAfter_pc o s)]
  case sibling => rw [exec_getSibling rfl h1 h2 hl hr, linkOf_bne_zero hc, finish_storeBranch hw hb]
  case child => rw [exec_getChild rfl h1 h2 hl hr, linkOf_bne_zero hc, finish_storeBranch hw hb]
  case jin =>
    have readable : opsReadable [o, b] s = true := by simp [opsReadable, hr, hrb, u]
    have cond : (linkOf 4 x s == y) = c := by rw [Bool.eq_iff_iff, hc, toNat_ofNat_linkOf, beq_iff_eq]
    rw [exec_jin rfl h1 h2 hl readable hy, cond]
    exact finish_branch hb

/-- Settles O35: the mask is the one bit of R222 (`attrMask_bit`), and its byte is written or refused. -/
theorem attributes : Obligations.Attributes := by
  intro f o n br s hm hr x y u a h1 h2 h3 hl
  have hpc : u.pc = s.pc := opsAfter_pc _ s
  have hmem : u.mem = s.mem := opsAfter_mem _ s
  have hlen : u.len = s.len := opsAfter_len _ s
  have hhdr : u.hdr = s.hdr := opsAfter_hdr _ s
  have hset := exec_setAttr (f := f) rfl rfl hr h1 h2 h3 hl
  have hclear := exec_clearAttr (f := f) rfl rfl hr h1 h2 h3 hl
  refine ⟨fun c hc hb => ?test, fun hs => ?set, fun hs => ?clear, fun hs => ⟨?setStatic, ?clearStatic⟩⟩
  case test =>
    have bit : (s.mem.get (s.attrAddr x y)).getLsbD (7 - y % 8) = c := Bool.eq_iff_iff.mpr hc.symm
    rw [exec_testAttr rfl rfl hr h1 h2 h3 hl, bit]
    exact finish_branch hb
  case set =>
    obtain ⟨t, ht, hf, hget⟩ := exec_writeByte_ok (a := a) (hmem ▸ hm) hpc hset (hlen ▸ hl) (hhdr ▸ hs)
    refine ⟨t, ht, hf, fun k hk => ?_, fun k hk => ?_⟩
    · rw [hget, if_neg hk, opsAfter_mem]
    · rw [hget, if_pos rfl]
      exact getLsbD_or_attrMask _ _ hk
  case clear =>
    obtain ⟨t, ht, hf, hget⟩ := exec_writeByte_ok (a := a) (hmem ▸ hm) hpc hclear (hlen ▸ hl) (hhdr ▸ hs)
    refine ⟨t, ht, hf, fun k hk => ?_, fun k hk => ?_⟩
    · rw [hget, if_neg hk, opsAfter_mem]
    · rw [hget, if_pos rfl]
      exact getLsbD_and_not_attrMask _ _ hk
  case setStatic => exact exec_of_map_error hset (writeByte_static (hlen ▸ hl) (hhdr ▸ hs))
  case clearStatic => exact exec_of_map_error hclear (writeByte_static (hlen ▸ hl) (hhdr ▸ hs))

/-- Settles O36: the walk from the first property is the search along the size bytes (`findPropFrom_ok_iff`). -/
theorem propertyWalk : Obligations.PropertyWalk := fun _ _ _ _ => findProp_ok_iff

/-- Settles O38: the walk finds what the search finds, and its length says what is written or which fault is taken. -/
theorem propertyWrite : Obligations.PropertyWrite := by
  intro o p v r s hm hr x y z u i h1 h2 h3 h4 ht hs
  have hpc : u.pc = s.pc := opsAfter_pc _ s
  have hmem : u.mem = s.mem := opsAfter_mem _ s
  have hlen : u.len = s.len := opsAfter_len _ s
  have hhdr : u.hdr = s.hdr := opsAfter_hdr _ s
  have found := findProp_opsAfter (os := [o, p, v]) ht hs
  have put := exec_putProp hr h1 h2 h3 h4
  refine ⟨?byte, ?word, ?long, ?absent⟩
  case byte =>
    rintro a rfl hl hst
    rw [setProp_byte found] at put
    obtain ⟨t, ht, hf, hget⟩ := exec_writeByte_ok (hmem ▸ hm) hpc put (hlen ▸ hl) (hhdr ▸ hst)
    refine ⟨t, ht, hf, fun k => ?_⟩
    rw [hget, opsAfter_mem, apply_ite BitVec.toNat, loByte_toNat]
  case word =>
    rintro a rfl hl hst
    rw [setProp_word found] at put
    obtain ⟨t, ht, hf, hget⟩ := exec_writeWord_ok (hmem ▸ hm) hpc put (hlen ▸ hl) (hhdr ▸ hst)
    exact ⟨t, ht, hf, fun k => by rw [hget, opsAfter_mem]⟩
  case long =>
    rintro a k rfl hk
    exact exec_of_map_error put (setProp_long found hk)
  case absent =>
    rintro rfl
    exact exec_of_map_error put (setProp_absent found)

/-- Settles O39: the links after `detach` (`detach_ok`), and no byte but theirs is written (`OnlyLinks`). -/
theorem removeObject : Obligations.RemoveObject := by
  intro o before s hm hr hw x u i p h1 h2
  have hmu : u.mem.wf := (opAfter_mem o s).symm ▸ hm
  have hwu : objectsWritable u = true := (objectsWritable_opAfter o s).trans hw
  have hpc : u.pc = s.pc := opAfter_pc o s
  have link (k q : Nat) : linkOf k q u = linkOf k q s := linkOf_opAfter k q o s
  have remove := exec_removeObj hr h1 h2
  refine ⟨fun hp => ?root, fun hp hb => ?child, fun hd => ?corrupt⟩
  case root =>
    rw [exec_of_map_ok remove (detach_none hwu h1 h2 ((link 4 x).trans hp)), advance, opAfter_pc]
  case child =>
    obtain ⟨t, ht, ho, l4x, l5x, l4, l5, l6⟩ :=
      detach_ok hmu hwu h1 h2 (by rwa [link]) ((chainBefore_congr link x before).trans hb)
    simp only [link] at l4 l5 l6
    refine ⟨_, exec_of_map_ok remove ht, ho.advance i hpc, l4x, l5x, fun k hk _ => l4 k hk, fun k hk _ => l5 k hk,
      fun k hk _ => l6 k hk, fun a ha => ?_⟩
    have same := ho.others a (by simpa only [u, entryAddr_opAfter] using ha)
    rwa [opAfter_mem] at same
  case corrupt => exact exec_of_map_error remove (detach_corrupt hwu h1 h2 (by rwa [detachable_congr link]))

/-- Settles O40: the object, detached (`detach_chain`), is made the first child (`attach_of_detach`); which objects lie on
the path up from its new parent decides between that and the fault. -/
theorem insertObject : Obligations.InsertObject := by
  intro f o d xs before s hm hr hw x y u i h1 h2 h3 h4 hlen
  have hmu : u.mem.wf := (opsAfter_mem [o, d] s).symm ▸ hm
  have hwu : objectsWritable u = true := (objectsWritable_opsAfter [o, d] s).trans hw
  have hpc : u.pc = s.pc := opsAfter_pc [o, d] s
  have link (k q : Nat) : linkOf k q u = linkOf k q s := linkOf_opsAfter k q [o, d] s
  have attached (hp : parentPath s 0 y xs = true) (hx : x ∉ xs) :=
    exec_insertObj (f := f) rfl rfl hr h1 h2 h3 h4
      (descendsFrom_false hwu h4 ((parentPath_congr (link 4) 0 y xs).trans hp) hx hlen)
  refine ⟨fun hp hx hb => ?moved, fun hp => ?cycle, fun hp hx hd => ?corrupt⟩
  case moved =>
    have hxy : y ≠ x := fun hyx => hx (hyx ▸ mem_of_parentPath h3 hp)
    obtain ⟨t, ht, hot, l4, l5, l6⟩ := detach_chain h1 h2 hmu hwu ((chainBefore_congr link x before).trans hb)
    obtain ⟨w, hwt, ho, w4, w5, w6, rest⟩ := attach_of_detach h1 h2 ht hot h3 h4
    simp only [link] at l4 l5 l6
    refine ⟨_, exec_of_map_ok (attached hp hx) hwt, ho.advance i hpc, w4, w6, fun hself => ?ownChild, ?sibling,
      fun k hk _ hkx => ?parents, fun k hk _ hkx => ?siblings, fun k hk _ hky => ?children, fun a ha => ?others⟩
    case ownChild =>
      have notFirst : ¬ (x = linkOf 4 x s ∧ linkOf 6 x s = x) := fun hc => hself hc.1.symm
      exact (rest 6 x h1 (by omega) (by omega)).trans ((l6 x h1).trans (if_neg notFirst))
    case sibling => exact w5.trans ((l6 y h3).trans (if_congr (and_congr_left' eq_comm) rfl rfl))
    case parents => exact (rest 4 k hk (by omega) (by omega)).trans (l4 k hk hkx)
    case siblings => exact (rest 5 k hk (by omega) (by omega)).trans (l5 k hk hkx)
    case children => exact (rest 6 k hk (by omega) (by omega)).trans (l6 k hk)
    case others =>
      have same := ho.others a (by simpa only [u, entryAddr_opsAfter] using ha)
      rwa [opsAfter_mem] at same
  case cycle =>
    exact exec_insertObj_cycle rfl rfl hr h1 h2 h3 h4
      (descendsFrom_true hwu (by omega) h4 ((parentPath_congr (link 4) x y xs).trans hp) hlen)
  case corrupt =>
    refine exec_of_map_error (attached hp hx) (bind_of_error (detach_corrupt hwu h1 h2 ?_))
    rwa [detachable_congr link]

end Sys2Proof.Proofs
end

section
/-! PROOFS. Calls, returns and the evaluation stack (the statements O21 and O30 to O32). -/

namespace Sys2Proof.Machine

/-! ## Returns (43_calls_stack.md R277 to R279) -/

theorem returnValue_root {v : Word} {s : State} (hc : s.callers = []) :
    returnValue v s = .ok { s with status := .halted } := by
  simp only [returnValue, hc]

section ToCaller

variable {v : Word} {s : State} {c : Frame} {rest : List Frame} {ra : Nat}

/-- Frame removal leaves the words that lay below the frame's own. -/
theorem State.popFrame_of_append {own below : List Word} (hs : s.stack = own ++ below)
    (hb : below.length = s.frame.stackBase) :
    s.popFrame c rest ra = { s with frame := c, callers := rest, stack := below, pc := ra } := by
  rw [State.popFrame, hs, List.length_append, hb, Nat.add_sub_cancel, List.drop_left]

variable (hc : s.callers = c :: rest) (hr : s.frame.returnPc = some ra)

include hc hr

theorem returnValue_discard (hn : s.frame.storeVar = none) : returnValue v s = .ok (s.popFrame c rest ra) := by
  simp only [returnValue, hc, hr, hn]

theorem returnValue_store {n : Byte} (hn : s.frame.storeVar = some n) :
    returnValue v s = writeVar n v (s.popFrame c rest ra) := by
  simp only [returnValue, hc, hr, hn]

end ToCaller

/-! ## The end of an instruction (40_decode.md R158, R163) -/

/-- An instruction that ends with a return that can be made. -/
theorem finish_returnValue {op : Byte} {v : Word} {s u : State} (h : returnable u = true) :
    finish op s (returnValue v u) = .next (afterReturn v u) := by
  rw [returnValue_ok h]
  rfl

/-- An instruction whose operation leaves the working copy `t`, its pc still the instruction's, goes on after itself. -/
theorem exec_next_of_map_ok {i : Instr} {s t : State} {r : Except FaultKind State}
    (he : exec i s = finish i.opbyte s (r.map (advance i))) (hr : r = .ok t) (hpc : t.pc = s.pc) :
    exec i s = .next { t with pc := s.pc + i.size } := by
  rw [exec_of_map_ok he hr, advance, hpc]

/-! ## Calls (43_calls_stack.md R273 to R276, R280) -/

section Routine

variable {op : Byte} {p : Word} {args : List Word} {sv : Option Byte} {ra : Nat} {s : State}

theorem callRoutine_badHeader (hl : 2 * p.toNat < s.len) (hn : 15 < (s.mem.get (2 * p.toNat)).toNat) :
    callRoutine op p args sv ra s = .error (.decode (.badRoutineHeader s.pc op)) := by
  simp only [callRoutine]
  rw [readByte_ok hl, ok_bind, if_pos hn]

/-- The call stack is checked only after the whole header has been read. -/
theorem callRoutine_stackOverflow (hl : 2 * p.toNat + 2 * (s.mem.get (2 * p.toNat)).toNat < s.len)
    (hn : (s.mem.get (2 * p.toNat)).toNat ≤ 15) (hd : s.params.maxCallDepth ≤ s.callers.length + 1) :
    callRoutine op p args sv ra s = .error (.stack .stackOverflow) := by
  simp only [callRoutine]
  rw [readByte_ok (by omega), ok_bind, if_neg (by omega), defaultLocals_ok_iff.mpr ⟨.inr (by omega), rfl⟩,
    ok_bind, if_pos hd]

end Routine

section Call

variable {r : Operand} {args : List Operand} {st : Byte} {s : State} (hr : opsReadable (r :: args) s = true)

include hr

theorem exec_call_zero (hp : opValue r s = 0) :
    exec (.call r args st) s =
      finish (Instr.call r args st).opbyte s (storeNext (.call r args st) st 0 (opsAfter (r :: args) s)) := by
  show execCall r args st s = _
  unfold execCall
  rw [withMore_ok _ hr, if_pos hp]

/-- Any other packed address calls the routine there; the return address is that of the next instruction. -/
theorem exec_call_routine (hp : opValue r s ≠ 0) :
    exec (.call r args st) s =
      finish (Instr.call r args st).opbyte s
        (callRoutine (Instr.call r args st).opbyte (opValue r s) (opValues args (opAfter r s)) (some st)
          (s.pc + (Instr.call r args st).size) (opsAfter (r :: args) s)) := by
  show execCall r args st s = _
  unfold execCall
  rw [withMore_ok _ hr, if_neg hp, opsAfter_pc]

variable (hp : opValue r s ≠ 0)

include hp

theorem exec_call_badHeader (hl : 2 * (opValue r s).toNat < s.len)
    (hn : 15 < (s.mem.get (2 * (opValue r s).toNat)).toNat) :
    exec (.call r args st) s =
      .next (takeFault (.decode (.badRoutineHeader s.pc (Instr.call r args st).opbyte))
        (some (Instr.call r args st).opbyte) s) := by
  refine exec_of_error (exec_call_routine hr hp) ?_
  rw [callRoutine_badHeader (by simpa using hl) (by simpa using hn), opsAfter_pc]

variable (hl : 2 * (opValue r s).toNat + 2 * (s.mem.get (2 * (opValue r s).toNat)).toNat < s.len)
  (hn : (s.mem.get (2 * (opValue r s).toNat)).toNat ≤ 15)

include hl hn

theorem exec_call_stackOverflow (hd : s.params.maxCallDepth ≤ s.callers.length + 1) :
    exec (.call r args st) s = .next (takeFault (.stack .stackOverflow) (some (Instr.call r args st).opbyte) s) :=
  exec_of_error (exec_call_routine hr hp)
    (callRoutine_stackOverflow (by simpa using hl) (by simpa using hn) (by simpa using hd))

/-- The frame pushed holds the arguments over the header's defaults, and execution goes on after the header (R274). -/
theorem exec_call_enters (hd : s.callers.length + 1 < s.params.maxCallDepth) :
    exec (.call r args st) s =
      .next { opsAfter (r :: args) s with
        callers := s.frame :: s.callers
        frame :=
          { returnPc := some (s.pc + (Instr.call r args st).size), storeVar := some st
            locals := overlay (opValues args (opAfter r s))
              ((List.range (s.mem.get (2 * (opValue r s).toNat)).toNat).map fun k =>
                s.mem.getWord (2 * (opValue r s).toNat + 1 + 2 * k))
            argCount := (opValues args (opAfter r s)).length, stackBase := (opsAfter (r :: args) s).stack.length }
        pc := 2 * (opValue r s).toNat + 1 + 2 * (s.mem.get (2 * (opValue r s).toNat)).toNat } := by
  rw [exec_call_routine hr hp, callRoutine_ok_iff.mpr ⟨?start, by simpa using hn, .inr ?header, by simpa using hd, rfl⟩]
  case start =>
    rw [opsAfter_len]
    omega
  case header =>
    rw [opsAfter_mem, opsAfter_len]
    omega
  simp only [finish, opsAfter_mem, opsAfter_frame, opsAfter_callers]

end Call

/-! ## The return instructions (43_calls_stack.md R281 to R284) -/

section Returns

variable {v : Operand} {s : State}

theorem exec_ret (hr : opReadable v s = true) :
    exec (.ret v) s = finish (Instr.ret v).opbyte s (returnValue (opValue v s) (opAfter v s)) := by
  show execRet v s = _
  unfold execRet
  rw [with1_ok _ hr]

theorem exec_rtrue : exec .rtrue s = finish Instr.rtrue.opbyte s (returnValue 1 s) := rfl

theorem exec_rfalse : exec .rfalse s = finish Instr.rfalse.opbyte s (returnValue 0 s) := rfl

theorem exec_retPopped :
    exec .retPopped s = finish Instr.retPopped.opbyte s (pop s >>= fun p => returnValue p.1 p.2) := rfl

end Returns

/-! ## The stack instructions (43_calls_stack.md R285 to R287) -/

section Stack

variable {o : Operand} {s : State}

theorem pop_of_cons_of_le {x : Word} {rest : List Word} (hs : s.stack = x :: rest) (hb : s.frame.stackBase ≤ rest.length) :
    pop s = .ok (x, { s with stack := rest }) :=
  pop_of_cons hs (by rw [hs, List.length_cons]; exact Nat.lt_succ_of_le hb)

theorem exec_pop : exec .pop s = finish Instr.pop.opbyte s (((pop s).map Prod.snd).map (advance .pop)) := by
  show execPop s = _
  unfold execPop
  rw [with0_eq]
  cases pop s <;> rfl

variable (hr : opReadable o s = true)

include hr

theorem exec_push :
    exec (.push o) s = finish (Instr.push o).opbyte s ((push (opValue o s) (opAfter o s)).map (advance (.push o))) := by
  show execPush o s = _
  unfold execPush
  rw [with1_ok _ hr]

theorem exec_pull (hv : (opValue o s).toNat ≤ 255) :
    exec (.pull o) s =
      finish (Instr.pull o).opbyte s
        ((pop (opAfter o s) >>= fun p => writeVarInPlace (loByte (opValue o s)) p.1 p.2).map (advance (.pull o))) := by
  show execPull o s = _
  unfold execPull
  rw [with1_ok _ hr, varRef_ok_iff.mpr ⟨hv, rfl⟩, ok_bind]
  cases pop (opAfter o s) <;> rfl

/-- The reference is checked before the pop (log 21). -/
theorem exec_pull_badRef (hv : 255 < (opValue o s).toNat) :
    exec (.pull o) s = .next (takeFault (.decode (.badVariableRef s.pc 0xE9)) (some 0xE9) s) := by
  have bad : varRef (Instr.pull o).opbyte (opValue o s) (opAfter o s) = .error (.decode (.badVariableRef s.pc 0xE9)) := by
    rw [varRef, if_neg (by omega), opAfter_pc]
    rfl
  show execPull o s = _
  unfold execPull
  rw [with1_ok _ hr, bad]
  rfl

end Stack

end Sys2Proof.Machine

namespace Sys2Proof.Proofs

open Sys2Proof.Machine

/-- Settles O21: the root frame halts; any other is removed with its own words, and the value is stored in
the variable that frame names, if any. -/
theorem returnRule : Obligations.ReturnRule := by
  refine fun v s => ⟨returnValue_root, fun c rest ra below own hc hr hs hb => ?_, fun t => returnValue_ok_iff⟩
  rw [← State.popFrame_of_append hs hb]
  exact ⟨returnValue_discard hc hr, fun n => returnValue_store hc hr⟩

/-- Settles O30: the faults are those of `callRoutine` in the state whose operands are resolved; the locals of the frame
pushed are the arguments over the defaults (`overlay_getElem?`). -/
theorem callInstruction : Obligations.CallInstruction := by
  intro r args st s hr p vs u ra n i
  refine ⟨fun hp hw => ?zero, fun hp hl hn => ?badHeader, fun hp hl hn hd => ?full, fun hp hl hn hd => ?entered⟩
  case zero => rw [exec_call_zero hr hp, finish_storeNext hw (opsAfter_pc _ s)]
  case badHeader => exact exec_call_badHeader hr hp hl hn
  case full => exact exec_call_stackOverflow hr hp hl hn hd
  case entered =>
    refine ⟨_, exec_call_enters hr hp hl hn hd, ?_, fun k hk => ?_⟩
    · rw [overlay_length, List.length_map, List.length_range]
    · rw [overlay_getElem?, List.length_map, List.length_range, if_pos hk, List.getElem?_map, List.getElem?_range hk]
      rfl

/-- Settles O31: each instruction is `returnValue` of its value, which answers `afterReturn` where the store can be made. -/
theorem returnInstructions : Obligations.ReturnInstructions := by
  refine fun v s => ⟨fun hr ht => ?ret, fun ht => ⟨?rtrue, ?rfalse⟩, fun x rest hs hb ht => ?popped, fun hb => ?underflow⟩
  case ret => rw [exec_ret hr, finish_returnValue ht]
  case rtrue => rw [exec_rtrue, finish_returnValue ht]
  case rfalse => rw [exec_rfalse, finish_returnValue ht]
  case popped => rw [exec_retPopped, pop_of_cons_of_le hs hb, ok_bind, finish_returnValue ht]
  case underflow => exact exec_of_error exec_retPopped (bind_of_error (pop_underflow hb))

/-- Settles O32: an operand popped leaves a working copy with the same base, pc and bound; on it the clauses are those of
`push` (R270), `pop` (R271) and the write in place (R155). -/
theorem stackInstructions : Obligations.StackInstructions := by
  intro o s hr u n
  have hpc : u.pc = s.pc := opAfter_pc o s
  have hframe : u.frame = s.frame := opAfter_frame o s
  have hparams : u.params = s.params := opAfter_params o s
  refine ⟨fun hl => ?pushed, fun hl => ?overflow, fun x rest hv hs hb hw => ?pulled, exec_pull_badRef hr,
    fun hv hb => ?pullUnderflow, fun x rest hs hb => ?popped, fun hb => ?popUnderflow⟩
  case pushed =>
    have hpush : push (opValue o s) u = .ok { u with stack := opValue o s :: u.stack } := by
      rw [push_eq, hparams, if_pos hl]
    exact exec_next_of_map_ok (exec_push hr) hpush hpc
  case overflow =>
    have hpush : push (opValue o s) u = .error (.stack .evalOverflow) := by
      rw [push_eq, hparams, if_neg (by omega)]
    exact exec_of_map_error (exec_push hr) hpush
  case pulled =>
    refine exec_next_of_map_ok (exec_pull hr hv) ?_ ((withVarInPlace_pc n x _).trans hpc)
    rw [pop_of_cons_of_le hs (by rwa [hframe]), ok_bind]
    exact writeVarInPlace_ok_iff.mpr ⟨hw, rfl⟩
  case pullUnderflow => exact exec_of_map_error (exec_pull hr hv) (bind_of_error (pop_underflow (by rwa [hframe])))
  case popped => exact exec_of_map_ok exec_pop (by rw [pop_of_cons_of_le hs hb]; rfl)
  case popUnderflow => exact exec_of_map_error exec_pop (by rw [pop_underflow hb]; rfl)

end Sys2Proof.Proofs
end

section
/-! PROOFS. Logic, arithmetic, in-place counting, the branch conditions and jump (the statements O22 to O26). -/

namespace Sys2Proof

/-! ## The opcode bytes of a row (30_encoding.md R92 to R94) -/

/-- An opcode number fills at most the five low bits of the opcode byte. -/
theorem Op.num_lt (op : Op) : op.num < 32 := by cases op <;> decide

section OpcodeBytes

variable {op : Op} {a b : Operand} {text : List Word} {store : Option Byte} {branch : Option Branch}

/-- The long form's bits 6 and 5 tell a variable from a small constant; the variable form is one byte. -/
theorem twoOp_opbyte_mem (f : TwoOp) (hop : op.count = .op2) :
    (Decoded.opbyte ⟨op, f.form, [a, b], text, store, branch⟩).toNat ∈
      [op.num, op.num + 0x20, op.num + 0x40, op.num + 0x60, op.num + 0xC0] := by
  have hnum : op.num < 32 := op.num_lt
  match f with
  | .long =>
    simp only [Decoded.opbyte, TwoOp.form, BitVec.toNat_ofNat, List.mem_cons]
    split_ifs <;> omega
  | .variable =>
    simp only [Decoded.opbyte, TwoOp.form, hop, if_true, BitVec.toNat_ofNat, List.mem_cons]
    omega

/-- The short form's bits 5 and 4 are the operand's type. -/
theorem oneOp_opbyte_mem (hop : op.num < 16) :
    (Decoded.opbyte ⟨op, .short, [a], text, store, branch⟩).toNat ∈ [op.num + 0x80, op.num + 0x90, op.num + 0xA0] := by
  cases a <;> simp [Decoded.opbyte, Operand.type, OpType.code] <;> omega

end OpcodeBytes

end Sys2Proof

namespace Sys2Proof.Machine

/-! ## Storing the result of two values (44_arith_branch.md R307 to R314) -/

section Store

variable {i : Instr} {a b : Operand} {st : Byte} {op : Word → Word → Word} {s : State} {v : Word}
  (hr : opsReadable [a, b] s = true)

include hr

theorem divideStore_byZero (hy : opValue b (opAfter a s) = 0) :
    divideStore i a b st op s = .next (takeFault (.arithmetic .divideByZero) (some i.opbyte) s) := by
  rw [divideStore, with2_ok _ hr, if_pos hy]
  rfl

variable (hw : varWritable st (opsAfter [a, b] s) = true) (hv : op (opValue a s) (opValue b (opAfter a s)) = v)

include hw hv

theorem binaryStore_stored :
    binaryStore i a b st op s = .next { withVar st v (opsAfter [a, b] s) with pc := s.pc + i.size } := by
  rw [binaryStore, with2_ok _ hr, hv, finish_storeNext hw (opsAfter_pc _ s)]

theorem divideStore_stored (hy : opValue b (opAfter a s) ≠ 0) :
    divideStore i a b st op s = .next { withVar st v (opsAfter [a, b] s) with pc := s.pc + i.size } := by
  rw [divideStore, with2_ok _ hr, if_neg hy, hv, finish_storeNext hw (opsAfter_pc _ s)]

end Store

theorem divWord_eq (a b : Word) : divWord a b = BitVec.ofInt 16 (Int.tdiv a.toInt b.toInt) := by
  rw [divWord, quotient_eq, u16, s16, s16]

theorem modWord_eq (a b : Word) : modWord a b = BitVec.ofInt 16 (Int.tmod a.toInt b.toInt) := by
  rw [modWord, remainder_eq, u16, s16, s16]

theorem exec_not {a : Operand} {st : Byte} {s : State} (hr : opReadable a s = true) :
    exec (.not a st) s =
      finish (Instr.not a st).opbyte s (storeNext (.not a st) st (~~~(opValue a s)) (opAfter a s)) := by
  show execNot a st s = _
  rw [execNot, with1_ok _ hr, xor_ones]

/-! ## Counting in place (R151, R315 to R318) -/

section Count

variable {i : Instr} {r limit : Operand} {br : Branch} {g : Word → Word} {c : Word → Word → Bool} {s : State} {v : Word}

section One

variable (he : exec i s = with1 i r s fun x t => (updateVar i.opbyte x g t).map fun p => advance i p.2)
  (hr : opReadable r s = true)

include he hr

theorem exec_count (hn : (opValue r s).toNat ≤ 255) (hv : varReadable (loByte (opValue r s)) (opAfter r s) = true)
    (hw : inPlaceWritable (loByte (opValue r s)) (opAfter r s) = true)
    (hg : g (varValue (loByte (opValue r s)) (opAfter r s)) = v) :
    exec i s = .next { withVarInPlace (loByte (opValue r s)) v (opAfter r s) with pc := s.pc + i.size } := by
  rw [he, with1_ok _ hr, updateVar_ok_iff.mpr ⟨hn, hv, hw, hg.symm, rfl⟩]
  simp only [Except.map, finish, advance, withVarInPlace_pc, opAfter_pc]

theorem exec_count_badRef (hn : 255 < (opValue r s).toNat) :
    exec i s = .next (takeFault (.decode (.badVariableRef s.pc i.opbyte)) (some i.opbyte) s) := by
  rw [he, with1_ok _ hr, updateVar_bad hn, opAfter_pc]
  rfl

end One

section Check

variable
  (he : exec i s = with2 i r limit s fun x y t => updateVar i.opbyte x g t >>= fun p => branch i br (c p.1 y) p.2)
  (hr : opsReadable [r, limit] s = true)

include he hr

/-- The new value is written before the branch is made, and it is what the condition sees. -/
theorem exec_countCheck (hn : (opValue r s).toNat ≤ 255)
    (hv : varReadable (loByte (opValue r s)) (opsAfter [r, limit] s) = true)
    (hw : inPlaceWritable (loByte (opValue r s)) (opsAfter [r, limit] s) = true)
    (hg : g (varValue (loByte (opValue r s)) (opsAfter [r, limit] s)) = v)
    (hb : branchable i br (c v (opValue limit (opAfter r s)))
      (withVarInPlace (loByte (opValue r s)) v (opsAfter [r, limit] s)) = true) :
    exec i s =
      .next (afterBranch i br (c v (opValue limit (opAfter r s)))
        (withVarInPlace (loByte (opValue r s)) v (opsAfter [r, limit] s))) := by
  rw [he, with2_ok _ hr, updateVar_ok_iff.mpr ⟨hn, hv, hw, hg.symm, rfl⟩, ok_bind, finish_branch hb]

theorem exec_countCheck_badRef (hn : 255 < (opValue r s).toNat) :
    exec i s = .next (takeFault (.decode (.badVariableRef s.pc i.opbyte)) (some i.opbyte) s) := by
  rw [he, with2_ok _ hr, updateVar_bad hn, opsAfter_pc]
  rfl

end Check

end Count

/-! ## Branching on operands' values (R302 to R306) -/

section Condition

variable {f : TwoOp} {i : Instr} {a b : Operand} {more : List Operand} {br : Branch} {cond : Word → Word → Bool} {s : State}
  {c : Bool}

theorem binaryBranch_made (hr : opsReadable [a, b] s = true) (hc : cond (opValue a s) (opValue b (opAfter a s)) = c)
    (hb : branchable i br c (opsAfter [a, b] s) = true) :
    binaryBranch i a b br cond s = .next (afterBranch i br c (opsAfter [a, b] s)) := by
  rw [binaryBranch, with2_ok _ hr, hc, finish_branch hb]

theorem exec_je (hr : opsReadable (a :: b :: more) s = true) :
    exec (.je f a b more br) s =
      finish (Instr.je f a b more br).opbyte s
        (branch (.je f a b more br) br (condEqualAny (opValue a s) (opValues (b :: more) (opAfter a s)))
          (opsAfter (a :: b :: more) s)) := by
  show execJe f a b more br s = _
  rw [execJe, withMore_ok _ hr]

theorem exec_jz (hr : opReadable a s = true) :
    exec (.jz a br) s =
      finish (Instr.jz a br).opbyte s (branch (.jz a br) br (condZero (opValue a s)) (opAfter a s)) := by
  show execJz a br s = _
  rw [execJz, with1_ok _ hr]

end Condition

/-! ## Jump (R319) -/

theorem exec_jump {k : Operand} {s : State} (hr : opReadable k s = true) :
    exec (.jump k) s =
      finish (Instr.jump k).opbyte s
        (jumpTo ((s.pc + (Instr.jump k).size : Nat) + (opValue k s).toInt - 2) (opAfter k s)) := by
  show execJump k s = _
  rw [execJump, with1_ok _ hr, opAfter_pc, s16]

end Sys2Proof.Machine

namespace Sys2Proof.Proofs

open Sys2Proof.Machine

/-- Settles O22: the results through the integers are those of bit vectors (`addWord_eq`, `subWord_eq`, `mulWord_eq`,
`xor_ones`), and each instruction ends by storing its result. -/
theorem logicAndArithmetic : Obligations.LogicAndArithmetic := by
  intro f a b st s x y u
  refine ⟨fun hr hw => ⟨?or, ?and, ?add, ?sub, ?mul⟩, fun hr hw => ?not, twoOp_opbyte_mem f rfl, twoOp_opbyte_mem f rfl,
    twoOp_opbyte_mem f rfl, twoOp_opbyte_mem f rfl, twoOp_opbyte_mem f rfl, oneOp_opbyte_mem (by decide)⟩
  case or => exact binaryStore_stored hr hw rfl
  case and => exact binaryStore_stored hr hw rfl
  case add => exact binaryStore_stored hr hw (addWord_eq x y)
  case sub => exact binaryStore_stored hr hw (subWord_eq x y)
  case mul => exact binaryStore_stored hr hw (mulWord_eq x y)
  case not => rw [exec_not hr, finish_storeNext hw (opAfter_pc a s)]

/-- Settles O23: the quotient and the remainder of R301 are `Int.tdiv` and `Int.tmod` (`quotient_eq`, `remainder_eq`); the
divisor is checked before the store. -/
theorem divideAndRemainder : Obligations.DivideAndRemainder := by
  intro f a b st s hr x y u
  exact ⟨fun hy hw => ⟨divideStore_stored hr hw (divWord_eq x y) hy, divideStore_stored hr hw (modWord_eq x y) hy⟩,
    fun hy => ⟨divideStore_byZero hr hy, divideStore_byZero hr hy⟩, twoOp_opbyte_mem f rfl, twoOp_opbyte_mem f rfl⟩

/-- Settles O24: all four instructions update the variable their operand names (`updateVar`), then go on or branch. -/
theorem incrementAndDecrement : Obligations.IncrementAndDecrement := by
  intro f r limit br s hr n u w y
  refine ⟨fun hn hv hw => ⟨?inc, ?dec⟩, fun hn => ⟨?incBad, ?decBad⟩,
    fun hr2 hn hv hw => ⟨fun hb => ?incChk, fun hb => ?decChk⟩, fun hr2 hn => ⟨?incChkBad, ?decChkBad⟩⟩
  case inc => exact exec_count (execInc.eq_def ..) hr hn hv hw (incWord_eq _)
  case dec => exact exec_count (execDec.eq_def ..) hr hn hv hw (decWord_eq _)
  case incBad => exact exec_count_badRef (execInc.eq_def ..) hr hn
  case decBad => exact exec_count_badRef (execDec.eq_def ..) hr hn
  case incChk => exact exec_countCheck (c := condGreater) (execIncChk.eq_def ..) hr2 hn hv hw (incWord_eq _) hb
  case decChk => exact exec_countCheck (c := condLess) (execDecChk.eq_def ..) hr2 hn hv hw (decWord_eq _) hb
  case incChkBad => exact exec_countCheck_badRef (execIncChk.eq_def ..) hr2 hn
  case decChkBad => exact exec_countCheck_badRef (execDecChk.eq_def ..) hr2 hn

/-- Settles O25: a condition that holds exactly when the model's does is the model's, and the branch it makes is taken. -/
theorem branchConditions : Obligations.BranchConditions := by
  intro f a b more br s x y u
  refine ⟨fun c hr hc hb => ?je, fun c hr hc hb => ?jl, fun c hr hc hb => ?jg, fun c hr hc hb => ?jz,
    fun c hr hc hb => ?test⟩
  case je => rw [exec_je hr, Bool.eq_iff_iff.mpr (condEqualAny_iff.trans hc.symm), finish_branch hb]
  case jl => exact binaryBranch_made hr (Bool.eq_iff_iff.mpr (condLess_iff.trans hc.symm)) hb
  case jg => exact binaryBranch_made hr (Bool.eq_iff_iff.mpr (condGreater_iff.trans hc.symm)) hb
  case jz => rw [exec_jz hr, Bool.eq_iff_iff.mpr (condZero_iff.trans hc.symm), finish_branch hb]
  case test => exact binaryBranch_made hr (Bool.eq_iff_iff.mpr (condAllBits_iff.trans hc.symm)) hb

/-- Settles O26: the operand's value is used as it is, so 0 and 1 are offsets like any other; `jumpTo` refuses exactly the
negative targets. -/
theorem jumpTarget : Obligations.JumpTarget := by
  intro k s hr target
  refine ⟨fun ht => ?jumped, fun ht => exec_of_error (exec_jump hr) (jumpTo_negative ht), oneOp_opbyte_mem (by decide)⟩
  rw [exec_jump hr, jumpTo_ok_iff.mpr ⟨ht, rfl⟩]
  rfl

end Sys2Proof.Proofs
end

section
/-! PROOFS. Variable moves, memory loads and memory stores (the statements O27 to O29). -/

namespace Sys2Proof.Machine

/-! ## Variable moves (40_decode.md R151, 45_memory_vars.md R330, R331) -/

section Endings

variable {i : Instr} {s u : State}

/-- A reference above 255 is the fault of the instruction that resolves it, whatever would follow. -/
theorem exec_badVarRef {r : Word} {next : Byte → Except FaultKind State}
    (he : exec i s = finish i.opbyte s (varRef i.opbyte r u >>= next)) (hpc : u.pc = s.pc) (hn : 255 < r.toNat) :
    exec i s = .next (takeFault (.decode (.badVariableRef s.pc i.opbyte)) (some i.opbyte) s) := by
  refine exec_of_error he (bind_of_error ?_)
  rw [varRef, if_neg (Nat.not_le.mpr hn), hpc]

/-- An instruction that reads a value and stores a word made of it. -/
theorem exec_readStore {α : Type} {read : Except FaultKind α} {word : α → Word} {x : α} {st : Byte}
    (he : exec i s = finish i.opbyte s (read >>= fun y => storeNext i st (word y) u)) (hpc : u.pc = s.pc)
    (hx : read = .ok x) (hw : varWritable st u = true) :
    exec i s = .next { withVar st (word x) u with pc := s.pc + i.size } := by
  rw [he, hx, ok_bind, finish_storeNext hw hpc]

end Endings

section Moves

variable {f : TwoOp} {r v : Operand} {st : Byte} {s : State} (hn : (opValue r s).toNat ≤ 255)

include hn

theorem exec_store (hr : opsReadable [r, v] s = true) :
    exec (.store f r v) s =
      finish (Instr.store f r v).opbyte s
        ((writeVarInPlace (loByte (opValue r s)) (opValue v (opAfter r s)) (opsAfter [r, v] s)).map
          (advance (.store f r v))) := by
  show execStore f r v s = _
  rw [execStore, with2_ok _ hr, varRef_ok_iff.mpr ⟨hn, rfl⟩, ok_bind]

theorem exec_load (hr : opReadable r s = true) :
    exec (.load r st) s =
      finish (Instr.load r st).opbyte s
        (readVarInPlace (loByte (opValue r s)) (opAfter r s) >>= fun x => storeNext (.load r st) st x (opAfter r s)) := by
  show execLoad r st s = _
  rw [execLoad, with1_ok _ hr, varRef_ok_iff.mpr ⟨hn, rfl⟩, ok_bind]

end Moves

/-! ## Array elements (20_memory.md R62, 45_memory_vars.md R332 to R335) -/

theorem arrayAddr_one (base index : Word) : arrayAddr 1 base index = (base.toNat + index.toNat) % 0x10000 := by
  rw [arrayAddr, Nat.one_mul]

section Loads

variable {f : TwoOp} {a i : Operand} {st : Byte} {s : State} (hr : opsReadable [a, i] s = true)

include hr

theorem exec_loadw :
    exec (.loadw f a i st) s =
      finish (Instr.loadw f a i st).opbyte s
        (readWord (arrayAddr 2 (opValue a s) (opValue i (opAfter a s))) (opsAfter [a, i] s) >>= fun v =>
          storeNext (.loadw f a i st) st v (opsAfter [a, i] s)) :=
  (execLoadw.eq_def ..).trans (with2_ok _ hr)

theorem exec_loadb :
    exec (.loadb f a i st) s =
      finish (Instr.loadb f a i st).opbyte s
        (readByte (arrayAddr 1 (opValue a s) (opValue i (opAfter a s))) (opsAfter [a, i] s) >>= fun b =>
          storeNext (.loadb f a i st) st (zextWord b) (opsAfter [a, i] s)) :=
  (execLoadb.eq_def ..).trans (with2_ok _ hr)

end Loads

section Stores

variable {a i v : Operand} {s : State} (hr : opsReadable [a, i, v] s = true)

include hr

theorem exec_storew :
    exec (.storew a i v) s =
      finish (Instr.storew a i v).opbyte s
        ((writeWord (arrayAddr 2 (opValue a s) (opValue i (opAfter a s))) (opValue v (opAfter i (opAfter a s)))
          (opsAfter [a, i, v] s)).map (advance (.storew a i v))) :=
  (execStorew.eq_def ..).trans (with3_ok _ hr)

theorem exec_storeb :
    exec (.storeb a i v) s =
      finish (Instr.storeb a i v).opbyte s
        ((writeByte (arrayAddr 1 (opValue a s) (opValue i (opAfter a s))) (loByte (opValue v (opAfter i (opAfter a s))))
          (opsAfter [a, i, v] s)).map (advance (.storeb a i v))) :=
  (execStoreb.eq_def ..).trans (with3_ok _ hr)

end Stores

end Sys2Proof.Machine

namespace Sys2Proof.Proofs

open Sys2Proof.Machine

/-- Settles O27: the reference is checked first (`varRef`), then the variable is written or read in place. -/
theorem variableMoves : Obligations.VariableMoves := by
  intro f r v st s n u w
  have hpc : u.pc = s.pc := opAfter_pc r s
  have hpc' : w.pc = s.pc := opsAfter_pc _ s
  refine ⟨fun hr hn hw => ?store, fun hr hn => ?storeBad, fun hr hn hv hw => ?load, fun hr hn => ?loadBad⟩
  case store =>
    rw [exec_of_map_ok (exec_store hn hr) (writeVarInPlace_ok_iff.mpr ⟨hw, rfl⟩), advance, withVarInPlace_pc, hpc']
  case storeBad => exact exec_badVarRef ((execStore.eq_def ..).trans (with2_ok _ hr)) hpc' hn
  case load => exact exec_readStore (word := id) (exec_load hn hr) hpc (readVarInPlace_ok_iff.mpr ⟨hv, rfl⟩) hw
  case loadBad => exact exec_badVarRef ((execLoad.eq_def ..).trans (with1_ok _ hr)) hpc hn

/-- Settles O28: the element's address is `arrayAddr`, and its bound is checked before the store. -/
theorem memoryLoads : Obligations.MemoryLoads := by
  intro f a i st s hr x y u wordAt byteAt
  have hpc : u.pc = s.pc := opsAfter_pc _ s
  have hlen : u.len = s.len := opsAfter_len _ s
  have hmem : u.mem = s.mem := opsAfter_mem _ s
  have hbyte : arrayAddr 1 x y = byteAt := arrayAddr_one x y
  refine ⟨fun hl hw => ?word, fun hl => ?wordOut, fun hl hw => ?byte, fun hl => ?byteOut⟩
  case word =>
    refine ⟨_, exec_readStore (word := id) (exec_loadw hr) hpc (readWord_ok (hlen ▸ hl)) hw, ?_⟩
    rw [id, hmem]
    exact s.mem.getWord_toNat wordAt
  case wordOut => exact exec_of_error (exec_loadw hr) (bind_of_error (readWord_error (hlen ▸ hl)))
  case byte =>
    rw [← hbyte] at hl ⊢
    refine ⟨_, exec_readStore (exec_loadb hr) hpc (readByte_ok (hlen ▸ hl)) hw, ?_⟩
    rw [zextWord_toNat, hmem]
  case byteOut =>
    rw [← hbyte] at hl ⊢
    exact exec_of_error (exec_loadb hr) (bind_of_error (readByte_error (hlen ▸ hl)))

/-- Settles O29: the write is the shared one of R65 and R66 at the element's address, in the state whose operands are
resolved, whose memory is still that before the step. -/
theorem memoryStores : Obligations.MemoryStores := by
  intro a i v s hwf hr x y z u wordAt byteAt
  have hpc : u.pc = s.pc := opsAfter_pc _ s
  have hlen : u.len = s.len := opsAfter_len _ s
  have hhdr : u.hdr = s.hdr := opsAfter_hdr _ s
  have hmem : u.mem = s.mem := opsAfter_mem _ s
  have hwf' : u.mem.wf := hmem ▸ hwf
  rw [← hlen, ← hhdr, ← hmem]
  refine ⟨rfl, arrayAddr_one x y, fun hl hs => ?word, fun hl => ?wordOut, fun hl hs => ?wordStatic, fun hl hs => ?byte,
    fun hl => ?byteOut, fun hl hs => ?byteStatic⟩
  case word => exact exec_writeWord_ok hwf' hpc (exec_storew hr) hl hs
  case wordOut => exact exec_of_map_error (exec_storew hr) (writeWord_out hl)
  case wordStatic => exact exec_of_map_error (exec_storew hr) (writeWord_static hl hs)
  case byte =>
    obtain ⟨t, hnext, hframe, hget⟩ := exec_writeByte_ok hwf' hpc (exec_storeb hr) hl hs
    refine ⟨t, hnext, hframe, fun k => ?_⟩
    rw [hget, apply_ite BitVec.toNat, loByte_toNat]
  case byteOut => exact exec_of_map_error (exec_storeb hr) (writeByte_out hl)
  case byteStatic => exact exec_of_map_error (exec_storeb hr) (writeByte_static hl hs)

end Sys2Proof.Proofs
end

section
/-! PROOFS. Reading a line, the words of a line and their dictionary addresses, random numbers, the system instructions and
the non-goals (the statements O46 and O48 to O53). -/

namespace Sys2Proof.Machine

/-! ## The words of a line (46_io_system.md R354) -/

section Words

variable {seps input rest : List Byte} {i : Nat} {cur : List Byte} {t : Token}

theorem mem_flushToken_iff : t ∈ flushToken i cur ↔ cur ≠ [] ∧ t = ⟨i - cur.length, cur⟩ := by
  unfold flushToken
  split <;> simp_all

theorem start_of_mem_flushToken (h : t ∈ flushToken i cur) : t.start = i - cur.length := by
  rw [(mem_flushToken_iff.mp h).2]

@[simp] theorem flatMap_codes_flushToken (i : Nat) (cur : List Byte) : (flushToken i cur).flatMap Token.codes = cur := by
  unfold flushToken
  split <;> simp_all

/-- Splitting loses no code but the spaces and keeps the order. -/
theorem flatMap_codes_tokens (seps : List Byte) (i : Nat) (cur cs : List Byte) :
    (tokens seps i cur cs).flatMap Token.codes = cur ++ cs.filter (· ≠ 32) := by
  fun_induction tokens seps i cur cs with
  | case1 i cur => simp
  | case2 i cur cs ih => simp [ih]
  | case3 i cur c cs hc hsep ih => simpa [ih, List.filter_cons] using hc
  | case4 i cur c cs hc hsep ih => simpa [ih, List.filter_cons] using hc

/-- No word starts before the codes being collected. -/
theorem le_start_of_mem_tokens {cs : List Byte} (h : t ∈ tokens seps i cur cs) : i - cur.length ≤ t.start := by
  fun_induction tokens seps i cur cs with
  | case1 i cur => exact (start_of_mem_flushToken h).ge
  | case2 i cur cs ih =>
    rcases List.mem_append.mp h with h | h
    · exact (start_of_mem_flushToken h).ge
    · have : i + 1 ≤ t.start := ih h
      omega
  | case3 i cur c cs hc hsep ih =>
    rcases List.mem_append.mp h with h | h
    · exact (start_of_mem_flushToken h).ge
    · rcases List.mem_cons.mp h with rfl | h
      · exact Nat.sub_le ..
      · have : i + 1 ≤ t.start := ih h
        omega
  | case4 i cur c cs hc hsep ih => simpa using ih h

/-- Words that start where the collected one ends may follow it. -/
theorem pairwise_flushToken_append {ts : List Token} (hl : cur.length ≤ i) (hge : ∀ w ∈ ts, i ≤ w.start)
    (hts : ts.Pairwise fun t w => t.start + t.codes.length ≤ w.start) :
    (flushToken i cur ++ ts).Pairwise fun t w => t.start + t.codes.length ≤ w.start := by
  refine List.pairwise_append.mpr ⟨?_, hts, fun t ht w hw => ?_⟩
  · unfold flushToken
    split <;> simp
  · obtain ⟨-, rfl⟩ := mem_flushToken_iff.mp ht
    have := hge w hw
    simp only
    omega

/-- Each word ends before the next one starts. -/
theorem pairwise_tokens (seps : List Byte) {cs : List Byte} (hl : cur.length ≤ i) :
    (tokens seps i cur cs).Pairwise fun t w => t.start + t.codes.length ≤ w.start := by
  have later {j : Nat} {ds : List Byte} : ∀ w ∈ tokens seps (j + 1) [] ds, j + 1 ≤ w.start := fun w hw =>
    le_start_of_mem_tokens hw
  fun_induction tokens seps i cur cs with
  | case1 i cur => simpa using pairwise_flushToken_append (ts := []) hl
  | case2 i cur cs ih =>
    exact pairwise_flushToken_append hl (fun w hw => Nat.le_of_succ_le (later w hw)) (ih (Nat.zero_le _))
  | case3 i cur c cs hc hsep ih =>
    refine pairwise_flushToken_append hl (fun w hw => ?_) (List.pairwise_cons.mpr ⟨later, ih (Nat.zero_le _)⟩)
    rcases List.mem_cons.mp hw with rfl | hw
    · exact Nat.le_refl _
    · exact Nat.le_of_succ_le (later w hw)
  | case4 i cur c cs hc hsep ih =>
    exact ih (by simpa using hl)

/-- `t` is a word of `input`: its codes stand in the line from its start on, and it is one separator, or has none and ends
where the line does or before a space or a separator. -/
structure LineWord (seps input : List Byte) (t : Token) : Prop where
  nonempty : t.codes ≠ []
  inLine : (input.drop t.start).take t.codes.length = t.codes
  maximal : (∃ c ∈ seps, t.codes = [c]) ∨
    (∀ c ∈ t.codes, c ∉ seps) ∧ ∀ c, input[t.start + t.codes.length]? = some c → c = 32 ∨ c ∈ seps

/-- The state of the splitter at index `i` of `input`: the codes before `i` end with those collected, none a separator, and
`rest` is to come. -/
structure Splitting (seps input : List Byte) (i : Nat) (cur rest : List Byte) : Prop where
  le : cur.length ≤ i
  split : input.drop (i - cur.length) = cur ++ rest
  plain : ∀ c ∈ cur, c ∉ seps

theorem Splitting.drop (h : Splitting seps input i cur rest) : input.drop i = rest := by
  rw [← Nat.sub_add_cancel h.le, ← List.drop_drop, h.split, List.drop_left]

theorem Splitting.next {c : Byte} (h : Splitting seps input i cur (c :: rest)) : Splitting seps input (i + 1) [] rest where
  le := Nat.zero_le _
  split := by rw [List.length_nil, Nat.sub_zero, ← List.tail_drop, h.drop]; rfl
  plain := fun _ hc => nomatch hc

theorem Splitting.collect {c : Byte} (h : Splitting seps input i cur (c :: rest)) (hc : c ∉ seps) :
    Splitting seps input (i + 1) (cur ++ [c]) rest where
  le := by simpa using h.le
  split := by simpa using h.split
  plain := fun d hd => by
    rcases List.mem_append.mp hd with hd | hd
    · exact h.plain d hd
    · rwa [List.mem_singleton.mp hd]

/-- The collected codes are a word when a space, a separator or nothing follows. -/
theorem Splitting.lineWord_flushToken (h : Splitting seps input i cur rest)
    (hr : ∀ c, rest[0]? = some c → c = 32 ∨ c ∈ seps) (ht : t ∈ flushToken i cur) : LineWord seps input t := by
  obtain ⟨hne, rfl⟩ := mem_flushToken_iff.mp ht
  refine ⟨hne, ?_, .inr ⟨h.plain, fun c hc => hr c ?_⟩⟩
  · rw [h.split, List.take_left]
  · rwa [Nat.sub_add_cancel h.le, ← Nat.add_zero i, ← List.getElem?_drop, h.drop] at hc

theorem Splitting.lineWord_separator {c : Byte} (h : Splitting seps input i cur (c :: rest)) (hc : c ∈ seps) :
    LineWord seps input ⟨i, [c]⟩ :=
  ⟨List.cons_ne_nil _ _, by rw [h.drop]; rfl, .inl ⟨c, hc, rfl⟩⟩

theorem lineWord_of_mem_tokens {cs : List Byte} (h : Splitting seps input i cur cs) (ht : t ∈ tokens seps i cur cs) :
    LineWord seps input t := by
  fun_induction tokens seps i cur cs with
  | case1 i cur => exact h.lineWord_flushToken (by simp) ht
  | case2 i cur cs ih =>
    rcases List.mem_append.mp ht with ht | ht
    · exact h.lineWord_flushToken (by simp) ht
    · exact ih h.next ht
  | case3 i cur c cs hc hsep ih =>
    have hsep := List.contains_iff_mem.mp hsep
    rcases List.mem_append.mp ht with ht | ht
    · exact h.lineWord_flushToken (by simpa using .inr hsep) ht
    · rcases List.mem_cons.mp ht with rfl | ht
      · exact h.lineWord_separator hsep
      · exact ih h.next ht
  | case4 i cur c cs hc hsep ih => exact ih (h.collect (mt List.contains_iff_mem.mpr hsep)) ht

end Words

/-! ## Dictionary encoding (41_text.md R195) -/

/-- Alphabet A2 from Z-character 7 on, as codes (R183). -/
def a2Zscii : List Zscii := a2Codes.map (BitVec.ofNat 10)

/-- The Z-characters of one code, as numbers (R195). -/
def charNumbers (c : Zscii) : List Nat :=
  let v := c.toNat
  if 97 ≤ v ∧ v ≤ 122 then [v - 91] else if 65 ≤ v ∧ v ≤ 90 then [4, v - 59] else if v = 32 then [0]
  else if c ∈ a2Zscii then [5, 7 + a2Zscii.idxOf c] else [5, 6, v / 32, v % 32]

theorem a2Char_eq (c : Zscii) :
    a2Char c = if c ∈ a2Zscii then some (BitVec.ofNat 5 (a2Zscii.idxOf c + 7)) else none := by
  have hcodes : a2Codes = a2Zscii.map BitVec.toNat := by decide
  have hidx : a2Codes.idxOf? c.toNat = a2Zscii.idxOf? c := by
    rw [hcodes, List.idxOf?, List.findIdx?_map, List.idxOf?]
    congr 1
    funext x
    exact Bool.eq_iff_iff.mpr (by simp [BitVec.toNat_inj])
  rw [a2Char, hidx]
  cases h : a2Zscii.idxOf? c with
  | none => rw [if_neg (List.idxOf?_eq_none_iff.mp h)]; rfl
  | some k =>
    have hmem : c ∈ a2Zscii := by
      by_contra hn
      rw [List.idxOf?_eq_none_iff.mpr hn] at h
      cases h
    rw [if_pos hmem, List.idxOf_eq_getD_idxOf?, h]
    rfl

theorem encodeChar_toNat (c : Zscii) : (encodeChar c).map BitVec.toNat = charNumbers c := by
  have hspace : c = 32 ↔ c.toNat = 32 := ⟨fun h => h ▸ rfl, fun h => BitVec.eq_of_toNat_eq h⟩
  have hfits {k : Nat} (h : k < 32) : (BitVec.ofNat 5 k).toNat = k := Nat.mod_eq_of_lt h
  unfold encodeChar charNumbers
  rw [a2Char_eq]
  simp only [hspace]
  split_ifs with hlower hupper hsp ha2
  · exact congrArg ([·]) (hfits (by omega))
  · exact congrArg ([4, ·]) (hfits (by omega))
  · rfl
  · have hidx : a2Zscii.idxOf c < 25 := List.idxOf_lt_length_of_mem ha2
    rw [Nat.add_comm 7]
    exact congrArg ([5, ·]) (hfits (by omega))
  · have hc := c.isLt
    have hhigh : (c.extractLsb' 5 5).toNat = c.toNat / 32 := by
      rw [BitVec.extractLsb'_toNat, Nat.shiftRight_eq_div_pow]
      omega
    exact congrArg₂ ([5, 6, ·, ·]) hhigh rfl

/-- The encoding of a word whose padded Z-characters begin with these six. -/
theorem encodeWord_toNat {cs : List Zscii} {a b c d e f : ZChar} {rest : List ZChar}
    (h : cs.flatMap encodeChar ++ [5, 5, 5, 5, 5, 5] = a :: b :: c :: d :: e :: f :: rest) :
    let w1 := 1024 * a.toNat + 32 * b.toNat + c.toNat
    let w2 := 0x8000 + 1024 * d.toNat + 32 * e.toNat + f.toNat
    (encodeWord cs).map BitVec.toNat = [w1 / 256, w1 % 256, w2 / 256, w2 % 256] := by
  simp only [encodeWord, h, List.take_succ_cons, List.take_zero]
  simp [hiByte_toNat, loByte_toNat, packChars_toNat]

theorem flatMap_encodeChar_toNat (cs : List Zscii) :
    (cs.flatMap encodeChar).map BitVec.toNat = cs.flatMap charNumbers := by
  simp only [List.map_flatMap, encodeChar_toNat]

/-! ## Random numbers (46_io_system.md R360, R361) -/

/-- A store does not look at the generator. -/
theorem withVar_rng_update (n : Byte) (v : Word) (s : State) (g : RngState) :
    withVar n v { s with rng := g } = { withVar n v s with rng := g } := by
  unfold withVar
  split
  · rfl
  · split <;> rfl

theorem exec_random {a : Operand} {st : Byte} {s : State} (hr : opReadable a s = true)
    (hw : varWritable st (opAfter a s) = true) {v : Word} {g : RngState}
    (hg : randomResult s.rng (s16 (opValue a s)) = (v, g)) :
    exec (.random a st) s =
      .next { withVar st v (opAfter a s) with rng := g, pc := s.pc + (Instr.random a st).size } := by
  refine (execRandom.eq_def ..).trans ((with1_ok _ hr).trans ?_)
  rw [opAfter_rng, hg]
  exact (finish_storeNext (u := { opAfter a s with rng := g }) hw (opAfter_pc a s)).trans (by rw [withVar_rng_update])

/-! ## The system instructions (46_io_system.md R364, R366) -/

/-- The sum over the bytes from 0x40 on, as a sum over all of them. -/
theorem imageSum_eq (m : Memory) (n : Nat) :
    imageSum m n = ((List.range n).map fun a => if 0x40 ≤ a then (m.get a).toNat else 0).sum := by
  unfold imageSum
  induction n with
  | zero => rfl
  | succ n ih =>
    rw [List.range_succ, List.map_append, List.sum_append, ← ih]
    by_cases hn : 0x40 ≤ n
    · rw [Nat.sub_add_comm hn, List.range'_1_concat, List.map_append, List.sum_append, Nat.add_sub_cancel' hn]
      simp [hn]
    · rw [Nat.sub_eq_zero_of_le (by omega), Nat.sub_eq_zero_of_le (by omega)]
      simp [hn]

theorem keepLowBits_eq_append (keep b : Byte) : keepLowBits keep b = b.extractLsb' 2 6 ++ keep.extractLsb' 0 2 := by
  refine BitVec.eq_of_getLsbD_eq fun k hk => ?_
  rw [keepLowBits, BitVec.getLsbD_append]
  interval_cases k <;> simp

theorem keepLowBits_toNat (keep b : Byte) : (keepLowBits keep b).toNat = b.toNat / 4 * 4 + keep.toNat % 4 := by
  rw [keepLowBits_eq_append, BitVec.toNat_append, ← Nat.shiftLeft_add_eq_or_of_lt (BitVec.isLt _), Nat.shiftLeft_eq]
  simp only [BitVec.extractLsb'_toNat, Nat.shiftRight_eq_div_pow]
  have := b.isLt
  omega

/-! ## Non-goals (46_io_system.md R370) -/

section Nongoal

variable {i : Instr} {s u : State} (he : exec i s = finish i.opbyte s (nongoal i u)) (hp : u.params = s.params)
  (hpc : u.pc = s.pc)

include he hp hpc

theorem exec_nongoal_nop (h : s.params.nongoal = .nop) : exec i s = .next { u with pc := s.pc + i.size } := by
  have hu : u.params.nongoal = .nop := hp ▸ h
  rw [he, nongoal, hu, ← hpc]
  rfl

theorem exec_nongoal_fault (h : s.params.nongoal = .fault) :
    exec i s = .next (takeFault (.decode (.unimplemented s.pc i.opbyte)) (some i.opbyte) s) :=
  exec_of_error he (by rw [nongoal, hp, h, hpc])

end Nongoal

theorem with1_nongoal {i : Instr} {a : Operand} {s : State} (h : opsReadable [a] s = true) :
    with1 i a s (fun _ t => nongoal i t) = finish i.opbyte s (nongoal i (opsAfter [a] s)) :=
  with1_ok _ (by simpa [opsReadable] using h)

end Sys2Proof.Machine

namespace Sys2Proof.Proofs

open Sys2Proof.Machine

/-- Settles O46: once the operands are resolved, only the status changes. -/
theorem readSuspends : Obligations.ReadSuspends := by
  intro a b s hr
  refine (execSread.eq_def ..).trans ((with2_ok _ hr).trans ?_)
  rw [← opsAfter_pc [a, b] s]
  rfl

/-- Settles O48, by the splitter's recursion over the line. -/
theorem lineWords : Obligations.LineWords := by
  intro seps cs ts
  refine ⟨flatMap_codes_tokens seps 0 [] cs, pairwise_tokens seps (Nat.le_refl _), fun t ht => ?_⟩
  have start : Splitting seps cs 0 [] cs := ⟨Nat.le_refl _, rfl, fun _ hc => nomatch hc⟩
  obtain ⟨hne, hin, hmax⟩ := lineWord_of_mem_tokens start ht
  exact ⟨hne, hin, hmax⟩

/-- Settles O49: a lookup is a search of the entries (`lookup_eq`), and an encoding is six Z-characters in two words. -/
theorem dictionaryLookup : Obligations.DictionaryLookup := by
  constructor
  · intro s word d n elen count base entry e hb
    refine ⟨fun k hk hl he hfirst => ?found, fun h => ?absent⟩
    case found => exact (lookup_eq hb word).trans (lookupFrom_found hk hl he hfirst)
    case absent => exact (lookup_eq hb word).trans (lookupFrom_none h)
  · intro cs a2 chars z
    have hz : (cs.flatMap encodeChar ++ [5, 5, 5, 5, 5, 5]).map BitVec.toNat = cs.flatMap chars ++ [5, 5, 5, 5, 5, 5] := by
      rw [List.map_append, flatMap_encodeChar_toNat]
      rfl
    have hsix : 6 ≤ (cs.flatMap encodeChar ++ [5, 5, 5, 5, 5, 5]).length := by simp
    match h : cs.flatMap encodeChar ++ [5, 5, 5, 5, 5, 5], hsix with
    | a :: b :: c :: d :: e :: f :: rest, _ =>
      rw [encodeWord_toNat h]
      simp only [z, ← hz, h]
      rfl

/-- Settles O50: the three signs of the operand are the three cases of `randomResult`; a positive one is below 2^15, so the
number fits its word. -/
theorem randomNumbers : Obligations.RandomNumbers := by
  intro a st s hr hw n i
  refine ⟨fun hn => ?number, fun hn => ?seed, fun hn => ?entropy⟩
  case number =>
    have hn15 : n < 2 ^ 15 := (opValue a s).toInt_lt
    have hbound : (rngNext s.rng n.toNat).1 - 1 < n.toNat := Nat.mod_lt _ (by omega)
    have hpos : 1 ≤ (rngNext s.rng n.toNat).1 := Nat.le_add_left ..
    have hv : (BitVec.ofNat 16 (rngNext s.rng n.toNat).1).toNat = (rngNext s.rng n.toNat).1 :=
      Nat.mod_eq_of_lt (by omega)
    exact ⟨_, by omega, by omega, hv, exec_random hr hw (if_pos hn)⟩
  case seed => exact exec_random hr hw ((if_neg hn.not_gt).trans (if_pos hn))
  case entropy => exact exec_random hr hw ((if_neg hn.not_gt).trans (if_neg hn.not_lt))

/-- Settles O51: `verify`'s condition is the comparison of the spelled sum (`imageSum_eq`). -/
theorem systemInstructions : Obligations.SystemInstructions := by
  intro br s n sum
  refine ⟨fun hb => finish_branch hb, fun hb => finish_branch hb, fun c hc hb => ?verify, rfl, rfl, rfl, rfl, rfl, rfl,
    rfl⟩
  have hok : checksumOk s = c := by
    rw [Bool.eq_iff_iff, hc, checksumOk, imageSum_eq, beq_iff_eq]
  show finish _ s (branch (.verify br) br (checksumOk s) s) = _
  rw [hok, finish_branch hb]

/-- Settles O52: restarted memory is the loaded image with one byte set. -/
theorem restart : Obligations.Restart := by
  intro s hwf
  refine ⟨_, rfl, rfl, fun a ha => Memory.get_set_ne _ hwf ha, ?_, rfl⟩
  exact (congrArg BitVec.toNat (Memory.get_set_same _ _ hwf)).trans (keepLowBits_toNat _ _)

/-- Settles O53: each non-goal instruction resolves its operands and ends with the shared rule of R370. -/
theorem nonGoals : Obligations.NonGoals := by
  intro i s ops hi hr
  have he : exec i s = finish i.opbyte s (nongoal i (opsAfter ops s)) := by
    obtain ⟨rfl, rfl, -⟩ | ⟨a, rfl, rfl, -⟩ | ⟨a, rfl, rfl, -⟩ | ⟨a, rfl, rfl, -⟩ | ⟨a, b, rfl, rfl, -⟩ |
      ⟨a, rfl, rfl, -⟩ | ⟨a, more, rfl, rfl, -⟩ := hi
    case inl => rfl
    · exact with1_nongoal hr
    · exact with1_nongoal hr
    · exact withMore_ok (fun _ _ t => nongoal _ t) hr
    · exact withMore_ok (fun _ _ t => nongoal _ t) hr
    · exact with1_nongoal hr
    · exact withMore_ok (fun _ _ t => nongoal _ t) hr
  exact ⟨exec_nongoal_nop he (opsAfter_params ops s) (opsAfter_pc ops s),
    exec_nongoal_fault he (opsAfter_params ops s) (opsAfter_pc ops s)⟩

end Sys2Proof.Proofs
end

section
/-! PROOFS. Load and the reset state, the status after an instruction, and the run contract (the statements O1 to O3, O54
and O59). -/

namespace Sys2Proof.Machine

/-! ## Load (70_reset_and_hazards.md R441 to R446) -/

section Checked

variable {p : Params} {image : List Byte} (hl : 64 ≤ image.length)

include hl

/-- A long enough image of another version is refused (R441). -/
theorem load_badVersion (hv : image.getD 0 0 ≠ 3) : load p image = .error (.badVersion (image.getD 0 0)) := by
  have h0 : (Memory.ofBytes 0 image).get 0 = image.getD 0 0 := get_image (by omega)
  rw [← h0] at hv ⊢
  exact (if_neg hl.not_gt).trans (if_pos hv)

/-- A long enough image of version 3 loads, or takes the first fault of the header checks (R442, R446). -/
theorem load_version3 (hv : image.getD 0 0 = 3) :
    load p image = (checkHeader (headerOf (Memory.ofBytes 0 image)) image.length).map fun _ =>
      loaded p (Memory.ofBytes 0 image) image.length := by
  have h0 : (Memory.ofBytes 0 image).get 0 = 3 := (get_image (by omega)).trans hv
  rw [load, if_neg hl.not_gt]
  simp only [h0, ne_eq, not_true_eq_false, if_false]
  cases checkHeader (headerOf (Memory.ofBytes 0 image)) image.length <;> rfl

end Checked

/-- The serial number is the three words from 0x12, the first the most significant (10_state.md R23). -/
theorem headerOf_serial_toNat (m : Memory) :
    (headerOf m).serial.toNat =
      0x100000000 * (m.getWord 0x12).toNat + 0x10000 * (m.getWord 0x14).toNat + (m.getWord 0x16).toNat := by
  have append (n : Nat) (x : BitVec n) (y : Word) : (x ++ y).toNat = 0x10000 * x.toNat + y.toNat := by
    rw [BitVec.toNat_append, ← Nat.shiftLeft_add_eq_or_of_lt y.isLt, Nat.shiftLeft_eq, Nat.mul_comm]
  show (m.getWord 0x12 ++ m.getWord 0x14 ++ m.getWord 0x16).toNat = _
  rw [append, append]
  omega

/-! ## The status after an instruction (60_exceptions.md R410, R411, R413) -/

/-- What a working copy of instruction `i`, begun in `s`, keeps until it ends: the status, the pc, whether its frame is the
root, and, in `sread`, memory. -/
structure Underway (i : Instr) (s u : State) : Prop where
  status : u.status = s.status
  pc : u.pc = s.pc
  callers : u.callers = s.callers
  returnPc : u.frame.returnPc = s.frame.returnPc
  mem : i.parts.op = .sread → u.mem = s.mem

theorem Underway.refl (i : Instr) (s : State) : Underway i s s := ⟨rfl, rfl, rfl, rfl, fun _ => rfl⟩

/-- A state with the same of these has kept as much. -/
theorem Underway.of_same {i : Instr} {s u v : State} (h : Underway i s u)
    (hv : v.status = u.status ∧ v.pc = u.pc ∧ v.callers = u.callers ∧ v.frame.returnPc = u.frame.returnPc)
    (hm : i.parts.op = .sread → v.mem = u.mem) : Underway i s v := by
  obtain ⟨hs, hp, hc, hr⟩ := hv
  exact ⟨hs.trans h.status, hp.trans h.pc, hc.trans h.callers, hr.trans h.returnPc, fun ho => (hm ho).trans (h.mem ho)⟩

@[simp] theorem withVar_returnPc (n : Byte) (v : Word) (s : State) :
    (withVar n v s).frame.returnPc = s.frame.returnPc := by rw [withVar_frame]

@[simp] theorem withVarInPlace_returnPc (n : Byte) (v : Word) (s : State) :
    (withVarInPlace n v s).frame.returnPc = s.frame.returnPc := by rw [withVarInPlace_frame]

/-- `sread` has no store byte (46_io_system.md R351). -/
theorem Instr.store_eq_none_of_sread {i : Instr} (h : i.parts.op = .sread) : i.parts.store = none := by
  cases i with
  | sread text parse => rfl
  | _ => cases h

/-- How an instruction that takes no fault leaves the status: as it was, halted, or suspended. -/
def StatusAfter (i : Instr) (s t : State) : Prop :=
  t.status = s.status ∨
    (t.status = .halted ∧ t.pc = s.pc ∧ (i = .quit ∨ (s.callers = [] ∨ s.frame.returnPc = none) ∧ mayReturn i)) ∨
    ∃ r, t.status = .awaitingInput r ∧ i.parts.op = .sread ∧ t.pc = s.pc ∧ t.mem = s.mem

/-- A return halts in the root frame, with the pc at the instruction; from another frame it leaves the status
(43_calls_stack.md R277, R278). -/
theorem Underway.afterReturn {i : Instr} {s u : State} (h : Underway i s u) (hi : mayReturn i) (v : Word) :
    StatusAfter i s (afterReturn v u) := by
  obtain ⟨hroot, heq⟩ | ⟨c, rest, ra, -, -, ⟨-, heq⟩ | ⟨n, -, heq⟩⟩ := afterReturn_cases v u
  · rw [h.callers, h.returnPc] at hroot
    rw [heq]
    exact .inr (.inl ⟨rfl, h.pc, .inr ⟨hroot, hi⟩⟩)
  · rw [heq]
    exact .inl h.status
  · rw [heq]
    exact .inl ((withVar_status n v _).trans h.status)

/-- Only a return, `quit` and `sread` touch the status, and only as their ends. -/
theorem effects_status (i : Instr) (s : State) : Effects i s (Underway i s) (StatusAfter i s) where
  read := fun u n h _ => h.of_same (by simp) (by simp)
  store := fun u st v hst h _ => h.of_same (by simp) fun ho => by simp [Instr.store_eq_none_of_sread ho] at hst
  update := fun u n v hn h _ => h.of_same (by simp) fun ho => by
    obtain ⟨hmem, -⟩ := hn
    simp [ho] at hmem
  push := fun u v _ h _ => h.of_same (by simp) fun _ => rfl
  byte := fun u a b hb h _ _ => h.of_same (by simp) fun ho => by simp [ho] at hb
  print := fun u cs _ h => h.of_same (by simp) (by simp)
  random := fun u g _ h => h.of_same (by simp) fun _ => rfl
  goOn := fun u p h => .inl h.status
  ret := fun u v hi h _ => h.afterReturn hi v
  call := fun u t p args st ra _ _ h hc => by
    obtain ⟨-, -, -, -, rfl⟩ := callRoutine_ok_iff.mp hc
    exact .inl h.status
  halt := fun u hi h => .inr (.inl ⟨rfl, h.pc, .inl hi⟩)
  suspend := fun u x y hi h => .inr (.inr ⟨_, rfl, hi, h.pc, h.mem hi⟩)
  restart := fun u b _ h => .inl h.status

/-! ## Run (60_exceptions.md R415 to R418) -/

/-- A run of `k` answers a state and the reason that state gives, and `m` more instructions are run from there. -/
theorem run_add (k m : Nat) (s : State) : ∃ t, run k s = .next (stopOf t.status, t) ∧ run (k + m) s = run m t := by
  induction k generalizing s with
  | zero => exact ⟨s, rfl, by rw [Nat.zero_add]⟩
  | succ k ih =>
    by_cases hs : s.status = .running
    · obtain ⟨u, hu⟩ := step_total s
      rw [Nat.succ_add, run_step k hs hu, run_step (k + m) hs hu]
      exact ih u
    · exact ⟨s, run_stopped _ hs, by rw [run_stopped _ hs, run_stopped _ hs]⟩

end Sys2Proof.Machine

namespace Sys2Proof.Proofs

open Sys2Proof.Machine

/-- Settles O54: `Effects.run` on what keeps the status until the instruction ends (`effects_status`). -/
theorem statusChanges : Obligations.StatusChanges := by
  intro i s
  obtain ⟨t, he⟩ := exec_total i s
  refine ⟨t, he, ?_⟩
  obtain hfault | hsame | hhalt | hread := (effects_status i s).run (.refl i s) he
  · exact .inr (.inl hfault)
  · exact .inl hsame
  · exact .inr (.inr (.inl hhalt))
  · exact .inr (.inr (.inr hread))

/-- Settles O59: a run's two equations, and its composition by induction on the first budget (`run_add`). -/
theorem runComposes : Obligations.RunComposes :=
  ⟨⟨rfl, fun _ => rfl, rfl, fun _ => rfl⟩,
    fun k m s => ⟨rfl, run_stopped k, fun _ hs ht => run_step k hs ht, run_add k m s⟩⟩

/-- Settles O2: an image of length 64 and version 3 is left to `checkHeader`, whose branches are the remaining clauses. -/
theorem loadChecks : Obligations.LoadChecks := by
  intro p image word n
  refine ⟨fun hl => if_pos hl, fun hl hv => load_badVersion hl hv, fun hl hv => ?_⟩
  have hword (k : Nat) (hk : k ≤ 0x18) : ((Memory.ofBytes 0 image).getWord k).toNat = word k := getWord_image (by omega)
  have hload := load_version3 (p := p) hl hv
  simp only [checkHeader, headerOf, hword, Nat.reduceLeDiff] at hload
  have passed {w : Nat} (hw : w < n) (e r : Except LoadFault Unit) : (if n ≤ w then e else r) = r := if_neg hw.not_ge
  rw [hload]
  refine ⟨fun h1 => ?pc, fun h1 h2 => ?dict, fun h1 h2 h3 => ?obj, fun h1 h2 h3 h4 => ?glob, fun h1 h2 h3 h4 h5 => ?abbr,
    fun h1 h2 h3 h4 h5 h6 => ?static, fun h1 h2 h3 h4 h5 h6 h7 => ?loads⟩
  case pc => rw [if_pos h1]; rfl
  case dict => rw [passed h1, if_pos h2]; rfl
  case obj => rw [passed h1, passed h2, if_pos h3]; rfl
  case glob => rw [passed h1, passed h2, passed h3, if_pos h4]; rfl
  case abbr => rw [passed h1, passed h2, passed h3, passed h4, if_pos h5]; rfl
  case static => rw [passed h1, passed h2, passed h3, passed h4, passed h5, if_pos h6]; rfl
  case loads =>
    rw [passed h1, passed h2, passed h3, passed h4, passed h5, if_neg (not_or.mpr ⟨h6.not_gt, h7.not_gt⟩)]
    exact ⟨_, rfl⟩

/-- Settles O3: the state is `loaded`, whose header fields are the image's bytes and words (`get_image`,
`getWord_image`). -/
theorem loadedState : Obligations.LoadedState := by
  intro p image s h word
  obtain ⟨hl, -, -, rfl⟩ := load_ok h
  have hword (k : Nat) (hk : k ≤ 0x1C) : ((Memory.ofBytes 0 image).getWord k).toNat = word k := getWord_image (by omega)
  refine ⟨rfl, fun a ha => get_image ha, rfl, get_image (by omega), get_image (by omega), hword _ (by decide),
    hword _ (by decide), hword _ (by decide), hword _ (by decide), hword _ (by decide), hword _ (by decide),
    hword _ (by decide), hword _ (by decide), ?serial, hword _ (by decide), hword _ (by decide), hword _ (by decide),
    hword _ (by decide), rfl, rfl, rfl, rfl, rfl, rfl, rfl⟩
  case serial =>
    rw [← hword _ (by decide), ← hword _ (by decide), ← hword _ (by decide)]
    exact headerOf_serial_toNat _

/-- Settles O1: no byte of the blank image is listed, and its header passes the checks. -/
theorem resetIsLoaded : Obligations.ResetIsLoaded := by
  unfold Obligations.ResetIsLoaded
  decide

end Sys2Proof.Proofs
end
